-- ==== Sys2Proof/Word.lean ====
section
/-! DEFINITION. The words the block computes with: a byte is 8 bits, a button word 16, a host-port
word 32 (spec/00_scope.md R9, spec/30_encoding.md R110). Fields of words are taken out in
Machine/Operands.lean and Decode.lean. -/

namespace Sys2Proof

/-- A byte of the wire or of the response buffer (R9). -/
abbrev Byte := BitVec 8

/-- The 16-bit button word, in wire polarity: a 0 bit means pressed (R38). -/
abbrev ButtonWord := BitVec 16

/-- A host-port word: an operation (R110) or a result (R113). -/
abbrev HostWord := BitVec 32

end Sys2Proof
end

