-- ==== Sys2Proof/Config.lean ====
section
/-! DEFINITION. The parameters of a block instance (spec/00_scope.md R7), the constants an
implementation fixes and the spec leaves OPEN, and the free values the environment answers with
(spec/10_state.md R34, R35). Nothing here has a value that a proof could use: the default of every
parameter the spec gives one is in Machine/Params.lean. -/

namespace Sys2Proof

/-- The transport option of an instance: "exactly one of {GPIO pin set, hardware-SPI handle}" (R31). -/
inductive Transport where
  | gpio
  | hwspi
  deriving DecidableEq, Repr, Inhabited

/-- The controls that BUTTON_BITS (R106) and AXIS_OFFSETS (R107) give a place to. The guitar names and
the colour names are second names of these (Machine/Asm.lean). -/
inductive Control where
  | select | l3 | r3 | start | padUp | padRight | padDown | padLeft
  | l2 | r2 | l1 | r1 | triangle | circle | cross | square
  | rx | ry | lx | ly
  deriving DecidableEq, Repr

/-- The results of the peripheral type query (R252, R113). -/
inductive PeripheralType where
  | unknown | standard | guitarHero | wireless | other
  deriving DecidableEq, Repr

/-- The condition a row of TYPE_MAP puts on the mode byte RB[1] (R252). -/
inductive ModeTest where
  | anyMode
  | modeIs (b : Byte)
  | modeIsNot (b : Byte)
  deriving DecidableEq, Repr

/-- One row of TYPE_MAP: a type code, a condition on the mode byte, the result (R252). -/
structure TypeRule where
  code : Byte
  mode : ModeTest
  type : PeripheralType
  deriving DecidableEq, Repr

/-- The parameters that fix the bytes on the wire: the command catalog of R96, the two lengths of a
read frame and the constant bytes of the read command (R7, R91, R96, R101). -/
structure Catalog where
  enterConfig     : List Byte
  exitConfig      : List Byte
  setMode         : List Byte
  enablePressure  : List Byte
  enableVibration : List Byte
  queryType       : List Byte
  readOpcode      : Byte
  frameMarker     : Byte
  contFill        : Byte
  shortLen        : Nat
  contLen         : Nat
  deriving DecidableEq, Repr

/-- Every row of the parameter table of R7. An instance is one value of this type; no step writes it
(R31 says so of TRANSPORT). -/
structure Params where
  transport      : Transport
  catalog        : Catalog
  rbLen          : Nat
  probeReads     : Nat
  configAttempts : Nat
  readAttempts   : Nat
  delayInit      : Nat
  delayCap       : Nat
  stallMs        : Nat
  analogNibble   : BitVec 4
  basicAnalog    : Byte
  pressureReject : Byte
  fullMode       : Byte
  validModes     : List Byte
  typeIndex      : Nat
  typeMap        : List TypeRule
  buttonBits     : List (Control × Fin 16)
  axisOffsets    : List (Control × Nat)
  tClkUs         : Nat
  tByteUs        : Nat
  tAttUs         : Nat
  tPacketMs      : Nat
  /-- SPI_BITRATE: a natural number, 0 included, by the model's choice (log entry 24). -/
  spiBitrate     : Nat
  clockBits      : Nat
  deriving DecidableEq, Repr

/-! ## What an implementation fixes and the spec leaves OPEN (R7, D13, D15; log entry 2) -/

/-- TRANSPORT of the instance that State.reset describes: GPIO or HWSPI (R7, R31). -/
opaque Config.transport : Transport
/-- T_CLK_US, OPEN (R7, D13). -/
opaque Config.tClkUs : Nat
/-- T_BYTE_US, OPEN (R7, D13). -/
opaque Config.tByteUs : Nat
/-- T_ATT_US, OPEN (R7, D13). -/
opaque Config.tAttUs : Nat
/-- T_PACKET_MS, OPEN (R7, D13). -/
opaque Config.tPacketMs : Nat
/-- SPI_BITRATE, OPEN, in bits per second (R7, D15). R7 gives this row no type and no range: that it is a
natural number, 0 included, is the model's choice (log entry 24). -/
opaque Config.spiBitrate : Nat

/-! ## The environment's free answers (log entries 3 and 21): the n-th draw of each kind -/

/-- The level of DAT at the n-th free sample: "chosen by the environment, under no law" (R35). -/
opaque Config.freeDat : Nat → Bool
/-- The byte the SPI transport returns at the n-th free exchange (R35). -/
opaque Config.freeSpi : Nat → Byte
/-- How many milliseconds the unbounded clock count has advanced at the n-th free sample since the
sample before it: any natural number, so samples are non-decreasing and nothing else holds (R34). -/
opaque Config.freeAdvance : Nat → Nat
/-- Whether the n-th free attempt to take the SPI bus is granted: no bound is stated (R82). -/
opaque Config.freeGrant : Nat → Bool
/-- How many sleeps after reset the time port ends before one that it never ends, or none if it ends every
one: no rule says that a sleep ends (R34, R290; log entry 21). -/
opaque Config.sleepsLeft : Option Nat

end Sys2Proof
end

