-- ==== Sys2Proof/Machine/Params.lean ====
section
/-! DEFINITION. The default of every parameter that spec/00_scope.md R7 gives one, and the
conditions an instance must meet (R8). Every wire constant here is marked "from general knowledge,
not in source" by the spec itself (spec/93_implementation_defined.md, Part 2). -/

namespace Sys2Proof

/-- The command catalog's default bytes, byte 0 first (R96), with the read command's constant bytes
and lengths (R7, R101). -/
def defaultCatalog : Catalog where
  enterConfig     := [0x01, 0x43, 0x00, 0x01, 0x00]
  exitConfig      := [0x01, 0x43, 0x00, 0x00, 0x5A, 0x5A, 0x5A, 0x5A, 0x5A]
  setMode         := [0x01, 0x44, 0x00, 0x01, 0x03, 0x00, 0x00, 0x00, 0x00]
  enablePressure  := [0x01, 0x4F, 0x00, 0xFF, 0xFF, 0x03, 0x00, 0x00, 0x00]
  enableVibration := [0x01, 0x4D, 0x00, 0x00, 0x01]
  queryType       := [0x01, 0x45, 0x00, 0x5A, 0x5A, 0x5A, 0x5A, 0x5A, 0x5A]
  readOpcode      := 0x42
  frameMarker     := 0x01
  contFill        := 0x00
  shortLen        := 9
  contLen         := 12

/-- TYPE_MAP's default, first matching row first (R252). A code no row matches is Unknown. -/
def defaultTypeMap : List TypeRule :=
  [ ⟨0x03, .anyMode, .standard⟩,
    ⟨0x01, .modeIsNot 0x42, .guitarHero⟩,
    ⟨0x01, .modeIs 0x42, .other⟩,
    ⟨0x0C, .anyMode, .wireless⟩ ]

/-- BUTTON_BITS' default: the bit of the button word that each control has (R106). -/
def defaultButtonBits : List (Control × Fin 16) :=
  [ (.select, 0), (.l3, 1), (.r3, 2), (.start, 3),
    (.padUp, 4), (.padRight, 5), (.padDown, 6), (.padLeft, 7),
    (.l2, 8), (.r2, 9), (.l1, 10), (.r1, 11),
    (.triangle, 12), (.circle, 13), (.cross, 14), (.square, 15) ]

/-- AXIS_OFFSETS' default: the RB index of each axis and each pressure byte (R107). -/
def defaultAxisOffsets : List (Control × Nat) :=
  [ (.rx, 5), (.ry, 6), (.lx, 7), (.ly, 8),
    (.padRight, 9), (.padLeft, 10), (.padUp, 11), (.padDown, 12),
    (.triangle, 13), (.circle, 14), (.cross, 15), (.square, 16),
    (.l1, 17), (.r1, 18), (.l2, 19), (.r2, 20) ]

/-- The instance of R7's "value" column. The OPEN rows and TRANSPORT are opaque constants of Config,
so that nothing about them can be proved (log entry 2). -/
def defaultParams : Params where
  transport      := Config.transport
  catalog        := defaultCatalog
  rbLen          := 21
  probeReads     := 2
  configAttempts := 11
  readAttempts   := 5
  delayInit      := 1
  delayCap       := 10
  stallMs        := 1500
  analogNibble   := 0x7
  basicAnalog    := 0x73
  pressureReject := 0x73
  fullMode       := 0x79
  validModes     := [0x41, 0x42, 0x73, 0x79]
  typeIndex      := 3
  typeMap        := defaultTypeMap
  buttonBits     := defaultButtonBits
  axisOffsets    := defaultAxisOffsets
  tClkUs         := Config.tClkUs
  tByteUs        := Config.tByteUs
  tAttUs         := Config.tAttUs
  tPacketMs      := Config.tPacketMs
  spiBitrate     := Config.spiBitrate
  clockBits      := 32

/-- `v[7:4]` (R9). -/
def highNibble (v : Byte) : BitVec 4 := v.extractLsb' 4 4

/-- What the parameters of an instance must satisfy (R8). -/
def Params.ok (p : Params) : Bool :=
  decide (1 ≤ p.delayInit) && decide (p.delayInit ≤ p.delayCap) &&
  decide (p.delayCap ≤ p.stallMs) &&
  decide (highNibble p.fullMode = p.analogNibble) &&
  decide (highNibble p.basicAnalog = p.analogNibble) &&
  decide (p.typeIndex ≤ 8) &&
  p.axisOffsets.all (fun c => decide (c.2 < p.rbLen)) &&
  decide (p.rbLen = p.catalog.shortLen + p.catalog.contLen)

end Sys2Proof
end

