-- ==== Sys2Proof/Syntax.lean ====
section
/-! DEFINITION. The instruction set: one constructor per row of spec/opcode_table.json, the nine
host-port operations (spec/30_encoding.md R111) and the eight wire frames (R96). -/

namespace Sys2Proof

/-- The block's instructions (spec/00_scope.md R2): "(a) the host-port operations of 30_encoding.md
rule R110 and (b) the wire command frames of 30_encoding.md rule R96". -/
inductive Instr where
  /-- INIT: P enablePressures, V enableVibration (R220). -/
  | init (p v : Bool)
  /-- POLL: A vibrationLevelA, B vibrationLevelB (R218). -/
  | poll (a : Bool) (b : Byte)
  /-- IS_PRESSED with mask M (R242). -/
  | isPressed (m : ButtonWord)
  /-- WAS_PRESSED with mask M (R244). -/
  | wasPressed (m : ButtonWord)
  /-- WAS_RELEASED with mask M (R245). -/
  | wasReleased (m : ButtonWord)
  /-- WAS_TOGGLED with mask M (R243). -/
  | wasToggled (m : ButtonWord)
  /-- ANY_TOGGLED (R246). -/
  | anyToggled
  /-- ANALOG with RB index K, five bits (R251). -/
  | analog (k : BitVec 5)
  /-- READ_TYPE (R252). -/
  | readType
  /-- The ENTER_CONFIG frame (R160). -/
  | enterConfig
  /-- The QUERY_TYPE frame (R161). -/
  | queryType
  /-- The SET_MODE frame (R162). -/
  | setMode
  /-- The ENABLE_VIBRATION frame (R163). -/
  | enableVibration
  /-- The ENABLE_PRESSURE frame (R164). -/
  | enablePressure
  /-- The EXIT_CONFIG frame (R165). -/
  | exitConfig
  /-- The READ frame with actuator bytes A' and B' (R166). -/
  | read (a b : Byte)
  /-- The READ frame with its continuation, READ+CONT (R166). -/
  | readCont (a b : Byte)
  deriving DecidableEq, Repr

/-- The wire frames, which the sequencer runs; the other rows are host-port operations. -/
def Instr.isWire : Instr → Bool
  | .init _ _ => false
  | .poll _ _ => false
  | .isPressed _ => false
  | .wasPressed _ => false
  | .wasReleased _ => false
  | .wasToggled _ => false
  | .anyToggled => false
  | .analog _ => false
  | .readType => false
  | .enterConfig => true
  | .queryType => true
  | .setMode => true
  | .enableVibration => true
  | .enablePressure => true
  | .exitConfig => true
  | .read _ _ => true
  | .readCont _ _ => true

/-- The host operations that R277 refuses before the first INIT has returned. -/
def Instr.needsSession : Instr → Bool
  | .init _ _ => false
  | .poll _ _ => true
  | .isPressed _ => true
  | .wasPressed _ => true
  | .wasReleased _ => true
  | .wasToggled _ => true
  | .anyToggled => true
  | .analog _ => true
  | .readType => true
  | .enterConfig => false
  | .queryType => false
  | .setMode => false
  | .enableVibration => false
  | .enablePressure => false
  | .exitConfig => false
  | .read _ _ => false
  | .readCont _ _ => false

/-- The mnemonic of a host operation (R111) or the COMMAND of a frame (R116). -/
def Instr.mnemonic : Instr → String
  | .init _ _ => "INIT"
  | .poll _ _ => "POLL"
  | .isPressed _ => "IS_PRESSED"
  | .wasPressed _ => "WAS_PRESSED"
  | .wasReleased _ => "WAS_RELEASED"
  | .wasToggled _ => "WAS_TOGGLED"
  | .anyToggled => "ANY_TOGGLED"
  | .analog _ => "ANALOG"
  | .readType => "READ_TYPE"
  | .enterConfig => "ENTER_CONFIG"
  | .queryType => "QUERY_TYPE"
  | .setMode => "SET_MODE"
  | .enableVibration => "ENABLE_VIBRATION"
  | .enablePressure => "ENABLE_PRESSURE"
  | .exitConfig => "EXIT_CONFIG"
  | .read _ _ => "READ"
  | .readCont _ _ => "READ+CONT"

end Sys2Proof
end

