-- ==== Sys2Proof/Decode.lean ====
section
/-! DEFINITION. The two encoded spaces of spec/30_encoding.md and the decoder of each, total on every
input and rejecting by name; then the encoder, written from the same tables (R96, R110, R111). -/

namespace Sys2Proof

/-- An encoded instruction: a 32-bit host-port word (R110), or the request bytes of one whole recorded
wire frame, byte 0 first (R90). The two spaces are separate (R2). -/
inductive Code where
  | host (w : HostWord)
  | wire (bytes : List Byte)
  deriving DecidableEq, Repr

/-- Why a code has no instruction. -/
inductive DecodeError where
  /-- The host word matches no row of R111 (R112): RESERVED_ENCODING. -/
  | reservedEncoding
  /-- "A recorded request that matches no row of rule R96 was not sent by the block" (R99). -/
  | unknownFrame
  deriving DecidableEq, Repr

/-! ## Fields of a host-port word (R110) -/

/-- Bit 4: P for INIT, A for POLL. -/
def fieldP (w : HostWord) : Bool := w.getLsbD 4
/-- Bit 5: V. -/
def fieldV (w : HostWord) : Bool := w.getLsbD 5
/-- Bits 12:8: K, an RB index. -/
def fieldK (w : HostWord) : BitVec 5 := w.extractLsb' 8 5
/-- Bits 15:8: B. -/
def fieldB (w : HostWord) : Byte := w.extractLsb' 8 8
/-- Bits 31:16: M, a button mask. -/
def fieldM (w : HostWord) : ButtonWord := w.extractLsb' 16 16

/-- A row of the table of R111: "a word w selects the row whose (w & mask) = match". -/
structure HostRow where
  pattern : HostWord
  mask    : HostWord
  build   : HostWord → Instr

/-- The table of R111, in its order. -/
def hostRows : List HostRow :=
  [ ⟨0x00000000, 0xFFFFFFCF, fun w => .init (fieldP w) (fieldV w)⟩,
    ⟨0x00000001, 0xFFFF00EF, fun w => .poll (fieldP w) (fieldB w)⟩,
    ⟨0x00000002, 0x0000FFFF, fun w => .isPressed (fieldM w)⟩,
    ⟨0x00000003, 0x0000FFFF, fun w => .wasPressed (fieldM w)⟩,
    ⟨0x00000004, 0x0000FFFF, fun w => .wasReleased (fieldM w)⟩,
    ⟨0x00000005, 0x0000FFFF, fun w => .wasToggled (fieldM w)⟩,
    ⟨0x00000006, 0xFFFFFFFF, fun _ => .anyToggled⟩,
    ⟨0x00000007, 0xFFFFE0FF, fun w => .analog (fieldK w)⟩,
    ⟨0x00000008, 0xFFFFFFFF, fun _ => .readType⟩ ]

/-- Whether a word selects a row (R111). -/
def HostRow.selects (r : HostRow) (w : HostWord) : Bool := w &&& r.mask == r.pattern

/-- The host-port word decoder. A word that no row matches is reserved (R112). -/
def decodeHost (w : HostWord) : Except DecodeError Instr :=
  match hostRows.find? (fun r => r.selects w) with
  | some r => .ok (r.build w)
  | none => .error .reservedEncoding

/-! ## Wire frames (R96, R101) -/

/-- Byte i of the 9-byte read command `01 42 00 A' B' 00 00 00 00` (R101): the marker, READ_OPCODE,
filler, the two actuator bytes (R102), filler. -/
def readByte (c : Catalog) (a b : Byte) : Nat → Byte
  | 0 => c.frameMarker
  | 1 => c.readOpcode
  | 2 => 0x00
  | 3 => a
  | 4 => b
  | _ => 0x00

/-- The read command with actuator bytes A' and B', SHORT_LEN bytes (R101, R205's `req`). -/
def readRequest (c : Catalog) (a b : Byte) : List Byte :=
  (List.range c.shortLen).map (readByte c a b)

/-- The continuation request, CONT_LEN bytes of CONT_FILL (R101, D36). -/
def contRequest (c : Catalog) : List Byte := List.replicate c.contLen c.contFill

/-- The decoder of one recorded request, for a reader of traces: the block itself "never receives
requests" (R99). ENTER_CONFIG and EXIT_CONFIG are told apart by their bytes and length (R97); READ and
READ+CONT by their length (R93). -/
def decodeWire (c : Catalog) (bytes : List Byte) : Except DecodeError Instr :=
  let a := bytes.getD 3 0x00
  let b := bytes.getD 4 0x00
  if bytes = c.enterConfig then .ok .enterConfig
  else if bytes = c.queryType then .ok .queryType
  else if bytes = c.setMode then .ok .setMode
  else if bytes = c.enableVibration then .ok .enableVibration
  else if bytes = c.enablePressure then .ok .enablePressure
  else if bytes = c.exitConfig then .ok .exitConfig
  else if bytes = readRequest c a b then .ok (.read a b)
  else if bytes = readRequest c a b ++ contRequest c then .ok (.readCont a b)
  else .error .unknownFrame

/-- The decoder, total on every code. -/
def decode (c : Catalog) : Code → Except DecodeError Instr
  | .host w => decodeHost w
  | .wire bytes => decodeWire c bytes

/-! ## The encoder -/

/-- A host word whose operands are in bits 5:4 and 15:8 (INIT, POLL, ANALOG). -/
def hostLow (high : BitVec 8) (v p : Bool) (opc : BitVec 4) : HostWord :=
  0#16 ++ (high ++ (0#2 ++ (BitVec.ofBool v ++ (BitVec.ofBool p ++ opc))))

/-- A host word whose operand is the mask M in bits 31:16. -/
def hostMask (m : ButtonWord) (opc : BitVec 16) : HostWord := m ++ opc

/-- The request bytes or host word of an instruction (R96, R101, R110, R111). -/
def encode (c : Catalog) : Instr → Code
  | .init p v => .host (hostLow 0#8 v p 0x0)
  | .poll a b => .host (hostLow b false a 0x1)
  | .isPressed m => .host (hostMask m 0x2)
  | .wasPressed m => .host (hostMask m 0x3)
  | .wasReleased m => .host (hostMask m 0x4)
  | .wasToggled m => .host (hostMask m 0x5)
  | .anyToggled => .host 0x00000006
  | .analog k => .host (hostLow (0#3 ++ k) false false 0x7)
  | .readType => .host 0x00000008
  | .enterConfig => .wire c.enterConfig
  | .queryType => .wire c.queryType
  | .setMode => .wire c.setMode
  | .enableVibration => .wire c.enableVibration
  | .enablePressure => .wire c.enablePressure
  | .exitConfig => .wire c.exitConfig
  | .read a b => .wire (readRequest c a b)
  | .readCont a b => .wire (readRequest c a b ++ contRequest c)

/-- The host-port word of an operation: what the host issued and `op` holds (R44). It is 0 for a wire
frame, which has none. -/
def hostWord (i : Instr) : HostWord :=
  match encode defaultCatalog i with
  | .host w => w
  | .wire _ => 0

/-- The request bytes of a wire frame. A host operation has none. -/
def frameBytes (c : Catalog) (i : Instr) : List Byte :=
  match encode c i with
  | .host _ => []
  | .wire bytes => bytes

/-! ## The host's numbering of the table's bits -/

/-- The first n bytes of a number, the least significant first: byte i is bits 8i+7 to 8i. -/
def littleBytes : Nat → Nat → List Byte
  | 0, _ => []
  | n + 1, w => BitVec.ofNat 8 w :: littleBytes n (w / 256)

/-- The code whose bits are w, bit 0 the least significant bit of the first word or byte. Up to 32 bits
it is a host-port word (R110). More bits are the bytes of a wire frame, byte 0 in bits 7:0 (R91). -/
def tableCode (nbits w : Nat) : Code :=
  if nbits ≤ 32 then .host (BitVec.ofNat 32 w)
  else .wire (littleBytes ((nbits + 7) / 8) w)

/-- The instruction the decoder reads from the table bits w, under the default catalog. -/
def decodeTableWord (nbits w : Nat) : Option Instr :=
  match decode defaultCatalog (tableCode nbits w) with
  | .ok i => some i
  | .error _ => none

end Sys2Proof
end

