-- ==== Sys2Proof/Machine/State.lean ====
section
/-! DEFINITION. Everything the spec gives the block (spec/10_state.md R30), as plain data, and the
machine right after reset (spec/70_reset_and_hazards.md R300). INVENTORY.md lists each element with
its rule. -/

namespace Sys2Proof.Machine

/-- The response buffer's contents: (index, byte) pairs, indices strictly rising, no pair equal to what
an unlisted index reads as (R36; Memory.wf in Machine/Ops.lean). -/
abbrev Memory := List Host.Cell

/-- The bus outputs (R32). -/
inductive Line where
  | clk | cmd | att
  deriving DecidableEq, Repr

/-- One action on a port of the block (R45). -/
inductive Event where
  /-- The host issues an operation. -/
  | hostIssue (w : HostWord)
  /-- An operation completes with a result word. -/
  | hostDone (r : HostWord)
  /-- The block drives an output. -/
  | pin (l : Line) (level : Bool)
  /-- The block samples DAT (GPIO). -/
  | sample (level : Bool)
  /-- The SPI bus is acquired (HWSPI). -/
  | spiBegin
  /-- The SPI bus is released (HWSPI). -/
  | spiEnd
  /-- One byte is exchanged with the SPI transport (HWSPI). -/
  | spiXfer (out : Byte) (reply : Byte)
  /-- A NOW_MS() sample. -/
  | clock (v : Nat)
  /-- SLEEP_US(n). -/
  | sleepUs (n : Nat)
  /-- SLEEP_MS(n). -/
  | sleepMs (n : Nat)
  deriving DecidableEq, Repr

/-- The closed set of refusal reasons (spec/60_exceptions.md R276). -/
inductive RefusalReason where
  | reservedEncoding
  | notInitialised
  | busyIssue
  | rbIndex
  | badParameters
  deriving DecidableEq, Repr

/-- INIT's results (R271). -/
inductive Status where
  | ok | notFound | configRejected | pressureRejected
  deriving DecidableEq, Repr

/-- The step labels of INIT (R220). -/
inductive InitStep where
  | i1 | i2 | i3 | i4 | i5
  deriving DecidableEq, Repr

/-- The step labels of READ_CYCLE (R210). -/
inductive CycleStep where
  | p1 | p2 | p3 | p4 | p5 | p6 | p7
  deriving DecidableEq, Repr

/-- opPos (R46). -/
inductive OpPos where
  | idle
  | init (l : InitStep)
  | poll (l : CycleStep)
  | query
  deriving DecidableEq, Repr

/-- framePos: NONE, BEGIN, BYTE, END, SLEEP (R46). -/
inductive FramePos where
  | noFrame | beginning | bytes | ending | sleeping
  deriving DecidableEq, Repr

/-- The sequencer position and the loop temporaries (R46). `status`, `frame` and `acquiring` are the
model's own (log entry 9): the pseudocode's locals `status` and `seq`/`req`, and where inside BEGIN_FRAME
the block waits. `asleep` is the model's own too (log entry 21). -/
structure Pos where
  opPos     : OpPos
  probe     : Nat
  attempt   : Nat
  /-- The label inside a read cycle that runs in INIT, or none between read cycles. -/
  cyclePos  : Option CycleStep
  retry     : Nat
  /-- The index in the command list under way (a replay's, or an attempt's), or none. -/
  replayPos : Option Nat
  framePos  : FramePos
  byteIdx   : Nat
  bitIdx    : Fin 8
  elapsed   : Nat
  scaledB   : Byte
  shiftIn   : Byte
  doCont    : Bool
  /-- The model's own: the status INIT will return (R220's local `status`). -/
  status    : Status
  /-- The model's own: the wire frame the sequencer is about to send or is waiting to begin. -/
  frame     : Option Instr
  /-- The model's own: inside BEGIN_FRAME, the quiet time has passed and SPI_BEGIN has not granted. -/
  acquiring : Bool
  /-- The model's own: the block is in a sleep that the time port has not ended (R290). -/
  asleep    : Bool
  deriving DecidableEq, Repr

/-- The data, session and timing registers (R36 to R43) and session_valid (R44). -/
structure Regs where
  rb             : Memory
  buttons        : ButtonWord
  lastButtons    : ButtonWord
  enVibration    : Bool
  enPressures    : Bool
  controllerType : Byte
  readDelay      : Nat
  lastRead       : Nat
  lastRelease    : Nat
  sessionValid   : Bool
  deriving DecidableEq, Repr

/-- The host port (R44): busy, op and result. `request` and `program` are the environment's side of it:
a word the host puts on the port now, and the words it will issue one by one, each when the block is
idle (log entry 4). -/
structure HostPort where
  busy    : Bool
  op      : HostWord
  result  : HostWord
  request : Option HostWord
  program : List HostWord
  deriving DecidableEq, Repr

/-- The levels the block drives (R32). -/
structure Bus where
  clk : Bool
  cmd : Bool
  att : Bool
  deriving DecidableEq, Repr

/-- The environment's answers (R34, R35, R82): for each kind, the answers already laid down, first one
first, and how many free ones have been drawn after those ran out (log entry 3). `clockCount` is the
unbounded count of the clock at the last sample (R34). `sleepsLeft` is how many more sleeps the time port
ends before one that it never ends, or none if it ends every one (R290; log entry 21). -/
structure Env where
  datIn        : List Bool
  spiIn        : List Byte
  clockIn      : List Nat
  grantIn      : List Bool
  datDraws     : Nat
  spiDraws     : Nat
  clockDraws   : Nat
  grantDraws   : Nat
  clockCount   : Nat
  sleepsLeft   : Option Nat
  deriving DecidableEq, Repr

/-- The state of one instance of the block with its environment. -/
structure State where
  /-- The instance's parameters (R7). No step writes them. -/
  params  : Params
  regs    : Regs
  port    : HostPort
  pos     : Pos
  bus     : Bus
  /-- The refused mark, with the reason recorded (R47, R276, R281): none is mark 0. -/
  refused : Option RefusalReason
  /-- The event history, the newest event first (R45). -/
  history : List Event
  env     : Env
  deriving DecidableEq, Repr

/-- Why a run ends as a fault: never. "There are no hardware faults in the block ... because the block
has no trap mechanism" (spec/93_implementation_defined.md Part 1; spec/60_exceptions.md R275), so no
constructor is needed and none would be raised. -/
inductive Fault where
  deriving DecidableEq, Repr

/-- Why the machine has no further step. -/
inductive Refusal where
  /-- Raised by an arm of exec that has no meaning yet (there is none). Safe: the run stops. -/
  | notModelled (mnemonic : String)
  /-- Raised by step on a state whose refused mark is set: such a state "has no further step" (R47).
  Safe: no claim about the run follows (R276). -/
  | marked (reason : RefusalReason)
  deriving DecidableEq, Repr

/-- The registers after reset (R300). buttons and last_buttons are unspecified there. The model names
0 (log entry 5). -/
def Regs.reset : Regs where
  rb             := []
  buttons        := 0
  lastButtons    := 0
  enVibration    := false
  enPressures    := false
  controllerType := 0x00
  readDelay      := defaultParams.delayInit
  lastRead       := 0
  lastRelease    := 0
  sessionValid   := false

/-- The host port after reset: idle (R300). op and result are unspecified. The model names 0 (log entry
5). No operation is waiting (R301). -/
def HostPort.reset : HostPort where
  busy    := false
  op      := 0
  result  := 0
  request := none
  program := []

/-- The sequencer after reset: IDLE (R300). Every other component is "unspecified and unread until
written". The model names these (log entry 5). -/
def Pos.reset : Pos where
  opPos     := .idle
  probe     := 0
  attempt   := 0
  cyclePos  := none
  retry     := 0
  replayPos := none
  framePos  := .noFrame
  byteIdx   := 0
  bitIdx    := 0
  elapsed   := 0
  scaledB   := 0
  shiftIn   := 0
  doCont    := false
  status    := .ok
  frame     := none
  acquiring := false
  asleep    := false

/-- CLK, CMD and ATT after reset: 1, 1, 1 (R300). -/
def Bus.reset : Bus where
  clk := true
  cmd := true
  att := true

/-- An environment with nothing laid down: every answer is a free value (log entries 3 and 21). -/
def Env.reset : Env where
  datIn      := []
  spiIn      := []
  clockIn    := []
  grantIn    := []
  datDraws   := 0
  spiDraws   := 0
  clockDraws := 0
  grantDraws := 0
  clockCount := 0
  sleepsLeft := Config.sleepsLeft

/-- The machine right after power-on reset (R300, R301). -/
def State.reset : State where
  params  := defaultParams
  regs    := Regs.reset
  port    := HostPort.reset
  pos     := Pos.reset
  bus     := Bus.reset
  refused := none
  history := []
  env     := Env.reset

end Sys2Proof.Machine
end

