-- ==== Sys2Proof/Machine/Ops.lean ====
section
/-! DEFINITION. The named operations over the response buffer, the ports and the host port: the
primitives of spec/00_scope.md R10, and how an operation is issued, refused and completed
(spec/10_state.md R44, spec/60_exceptions.md R270, R276). The block has no trap and no exception entry
(R275): a refusal and a completion are its only two ways out of an operation. -/

namespace Sys2Proof.Machine

/-! ## The response buffer's store (R36, R70) -/

/-- What an RB byte that no read frame has written reads as: its reset value 0x00 (R36, R77). -/
def unwritten : Byte := 0x00

/-- The byte at an index. -/
def Memory.read : Memory → Nat → Byte
  | [], _ => unwritten
  | (j, v) :: rest, i => if j = i then v else Memory.read rest i

/-- The store with one byte written, in canonical form. -/
def Memory.write : Memory → Nat → Byte → Memory
  | [], i, v => if v = unwritten then [] else [(i, v)]
  | (j, x) :: rest, i, v =>
    if i < j then (if v = unwritten then (j, x) :: rest else (i, v) :: (j, x) :: rest)
    else if i = j then (if v = unwritten then rest else (i, v) :: rest)
    else (j, x) :: Memory.write rest i v

/-- The canonical form: indices strictly rising and no entry equal to what an unlisted index reads as. -/
abbrev Memory.wf (m : Memory) : Prop :=
  m.Pairwise (fun c d => c.1 < d.1) ∧ ∀ c ∈ m, c.2 ≠ unwritten

/-- RB[i] (R10). -/
def State.rbRead (s : State) (i : Nat) : Byte := s.regs.rb.read i

/-- RB[i] <- v (R10). -/
def State.rbWrite (i : Nat) (v : Byte) (s : State) : State :=
  { s with regs.rb := s.regs.rb.write i v }

/-- The mode byte, RB[1] (R79, R103). -/
def State.modeByte (s : State) : Byte := s.rbRead 1

/-! ## Events, pins and sleeps (R10, R32, R33, R45) -/

/-- emit: append an event to the history (R10, R45). -/
def State.emit (e : Event) (s : State) : State := { s with history := e :: s.history }

/-- Set one output's level. -/
def Bus.drive (b : Bus) (l : Line) (level : Bool) : Bus :=
  match l with
  | .clk => { b with clk := level }
  | .cmd => { b with cmd := level }
  | .att => { b with att := level }

/-- PIN(name) <- b (R10). -/
def State.pin (l : Line) (level : Bool) (s : State) : State :=
  { s with bus := s.bus.drive l level, history := .pin l level :: s.history }

/-- A sleep: recorded when it begins, and it promises nothing of later clock samples (R10, R34). The block
goes on if the time port ends it. Otherwise it is asleep from here on (R290; log entry 21). -/
def State.sleep (e : Event) (s : State) : State :=
  { s with env.sleepsLeft := s.env.sleepsLeft.map (· - 1),
           pos.asleep := s.env.sleepsLeft == some 0,
           history := e :: s.history }

/-- SLEEP_US(n). -/
def State.sleepUs (n : Nat) (s : State) : State := s.sleep (.sleepUs n)

/-- SLEEP_MS(n). -/
def State.sleepMs (n : Nat) (s : State) : State := s.sleep (.sleepMs n)

/-- What follows a sleep: nothing until the time port has ended it (R290). -/
def State.awake (next : State → State) (s : State) : State := if s.pos.asleep then s else next s

/-! ## Draws from the environment (R34, R35, R82; log entry 3) -/

/-- SAMPLE(DAT): the level, and the state after the sample (R10, R35). -/
def State.sampleDat (s : State) : Bool × State :=
  match s.env.datIn with
  | b :: rest => (b, { s with env.datIn := rest, history := .sample b :: s.history })
  | [] =>
    let b := Config.freeDat s.env.datDraws
    (b, { s with env.datDraws := s.env.datDraws + 1, history := .sample b :: s.history })

/-- SPI_XFER(o): the byte received, and the state after the exchange (R10, R35). -/
def State.spiExchange (o : Byte) (s : State) : Byte × State :=
  match s.env.spiIn with
  | r :: rest => (r, { s with env.spiIn := rest, history := .spiXfer o r :: s.history })
  | [] =>
    let r := Config.freeSpi s.env.spiDraws
    (r, { s with env.spiDraws := s.env.spiDraws + 1, history := .spiXfer o r :: s.history })

/-- The unbounded clock count after it has advanced by `n` (R34). -/
def State.clockAt (n : Nat) (s : State) : Nat := s.env.clockCount + n

/-- The CLOCK_BITS-bit value of an unbounded count (R34). -/
def clockValue (p : Params) (count : Nat) : Nat := count % 2 ^ p.clockBits

/-- NOW_MS(): the value sampled, and the state after the sample. The unbounded count never goes back,
and nothing else is promised of it (R34). -/
def State.nowMs (s : State) : Nat × State :=
  match s.env.clockIn with
  | n :: rest =>
    let v := clockValue s.params (s.clockAt n)
    (v, { s with env.clockIn := rest, env.clockCount := s.clockAt n,
                 history := .clock v :: s.history })
  | [] =>
    let n := Config.freeAdvance s.env.clockDraws
    let v := clockValue s.params (s.clockAt n)
    (v, { s with env.clockDraws := s.env.clockDraws + 1, env.clockCount := s.clockAt n,
                 history := .clock v :: s.history })

/-- One moment of SPI_BEGIN(): whether the bus is granted now, and the state after it. SpiBegin is
recorded when the grant comes. Until then the block waits (R82). -/
def State.spiGrant (s : State) : Bool × State :=
  match s.env.grantIn with
  | true :: rest => (true, { s with env.grantIn := rest, history := .spiBegin :: s.history })
  | false :: rest => (false, { s with env.grantIn := rest })
  | [] =>
    if Config.freeGrant s.env.grantDraws then
      (true, { s with env.grantDraws := s.env.grantDraws + 1, history := .spiBegin :: s.history })
    else (false, { s with env.grantDraws := s.env.grantDraws + 1 })

/-- `(a - b) mod 2^CLOCK_BITS`: how every difference of clock samples is computed (R34). -/
def elapsedSince (p : Params) (now before : Nat) : Nat :=
  (now + (2 ^ p.clockBits - before % 2 ^ p.clockBits)) % 2 ^ p.clockBits

/-! ## Issue, refusal, completion (R44, R270, R276, R281) -/

/-- `refuse <Reason>`: mark the state refused and record the reason, nothing else (R10, R276, R281). -/
def State.refuse (r : RefusalReason) (s : State) : State := { s with refused := some r }

/-- "Issuing sets op, sets busy = 1 and starts the sequencer" at the operation's first step (R44, R46). -/
def State.issue (w : HostWord) (first : OpPos) (s : State) : State :=
  { s with port.busy := true, port.op := w, pos.opPos := first,
           history := .hostIssue w :: s.history }

/-- Completion: write the result word, record HostDone, set busy = 0, return to IDLE, "in one step"
(R270). -/
def State.complete (r : HostWord) (s : State) : State :=
  { s with port.busy := false, port.result := r, pos.opPos := .idle,
           history := .hostDone r :: s.history }

/-- Why a decoded host operation is not admitted, or none if it is: in the order of R281, after
BAD_PARAMETERS, which no instance that has a meaning can give (R276). RESERVED_ENCODING is decided before
this, by the decoder, and RB_INDEX after it, by ANALOG. -/
def State.refusal (needsSession : Bool) (s : State) : Option RefusalReason :=
  if !s.params.ok then some .badParameters
  else if s.port.busy then some .busyIssue
  else if needsSession && !s.regs.sessionValid then some .notInitialised
  else none

/-- Run an operation that R277 and R278 allow, or refuse it. -/
def State.admission (needsSession : Bool) (run : State → State) (s : State) : State :=
  match s.refusal needsSession with
  | some r => s.refuse r
  | none => run s

end Sys2Proof.Machine
end

