-- ==== Sys2Proof/Machine/Operands.lean ====
section
/-! DEFINITION. Operands: the actuator bytes of the read command (spec/30_encoding.md R102,
spec/42_protocol_fsm.md R200), the operands of the running operation as `op` holds them, result words
(R113) and the tables of R7. -/

namespace Sys2Proof.Machine

/-- SCALE, the mapping of B to request byte 4, "computed on naturals" (R200). -/
def scale (b : Byte) : Byte :=
  if b = 0x00 then 0x00 else BitVec.ofNat 8 (b.toNat * 191 / 255 + 64)

/-- A' = zext_8(A) (R102). -/
def actuatorA (a : Bool) : Byte := if a then 0x01 else 0x00

/-- The button word `RB[4] ++ RB[3]`, low byte RB[3] (R74, R105). -/
def State.buttonWord (s : State) : ButtonWord := s.rbRead 4 ++ s.rbRead 3

/-! ## Operands of the running operation, read from `op` (R44, R110) -/

/-- INIT's operand P, enablePressures. -/
def State.opP (s : State) : Bool := fieldP s.port.op
/-- INIT's operand V, enableVibration. -/
def State.opV (s : State) : Bool := fieldV s.port.op

/-- The operand a of the read cycle under way: POLL's A. The read cycles inside INIT use 0 (R218, R221). -/
def State.cycleA (s : State) : Bool :=
  match s.pos.opPos with
  | .poll _ => fieldP s.port.op
  | .init _ => false
  | .idle => false
  | .query => false

/-- The operand b of the read cycle under way: POLL's B. The read cycles inside INIT use 0. -/
def State.cycleB (s : State) : Byte :=
  match s.pos.opPos with
  | .poll _ => fieldB s.port.op
  | .init _ => 0x00
  | .idle => 0x00
  | .query => 0x00

/-! ## Result words (R113) -/

/-- A boolean result: 1 is true, bit 0. -/
def boolResult (b : Bool) : HostWord := if b then 1 else 0

/-- A byte result, bits 7:0: zext_32. -/
def byteResult (v : Byte) : HostWord := v.setWidth 32

/-- INIT's status code, bits 1:0 (R271). -/
def Status.code : Status → HostWord
  | .ok => 0
  | .notFound => 1
  | .configRejected => 2
  | .pressureRejected => 3

/-- READ_TYPE's type code, bits 2:0 (R113, R252). -/
def typeCode : PeripheralType → HostWord
  | .unknown => 0
  | .standard => 1
  | .guitarHero => 2
  | .wireless => 3
  | .other => 4

/-! ## Tables -/

/-- Whether a mode byte meets a TYPE_MAP row's condition (R252). -/
def meetsMode : ModeTest → Byte → Bool
  | .anyMode, _ => true
  | .modeIs b, m => m == b
  | .modeIsNot b, m => m != b

/-- TYPE_MAP: the first row that the type code and the mode byte meet, else Unknown (R252). -/
def peripheralType : List TypeRule → Byte → Byte → PeripheralType
  | [], _, _ => .unknown
  | r :: rest, code, mode =>
    if code = r.code ∧ meetsMode r.mode mode = true then r.type else peripheralType rest code mode

end Sys2Proof.Machine
end

