-- ==== Sys2Proof/Machine/Flags.lean ====
section
/-! DEFINITION. The conditions the block computes. It has no flag register: "The analog mode condition
... is not stored: it is recomputed from RB[1] each time" (spec/10_state.md R48). The button
conditions are those of spec/43_decoder.md R242 to R246. -/

namespace Sys2Proof.Machine

/-- analog(RB): RB[1][7:4] = ANALOG_NIBBLE (R240). -/
def State.analog (s : State) : Bool := highNibble s.modeByte == s.params.analogNibble

/-- RB[1] is one of the four "peripheral present" mode bytes (R222). -/
def State.present (s : State) : Bool := s.params.validModes.contains s.modeByte

/-- Some control of M is pressed in a button word: `((~word) & M) != 0` (R242). -/
def pressedIn (word m : ButtonWord) : Bool := (~~~word) &&& m != 0

/-- Some control of M differs: `((last ^ now) & M) != 0` (R243). -/
def toggledIn (last now m : ButtonWord) : Bool := (last ^^^ now) &&& m != 0

/-- IS_PRESSED's condition (R242). -/
def State.isPressed (m : ButtonWord) (s : State) : Bool := pressedIn s.regs.buttons m

/-- WAS_TOGGLED's condition (R243). -/
def State.wasToggled (m : ButtonWord) (s : State) : Bool :=
  toggledIn s.regs.lastButtons s.regs.buttons m

/-- WAS_PRESSED's condition: WAS_TOGGLED(M) and IS_PRESSED(M) (R244). -/
def State.wasPressed (m : ButtonWord) (s : State) : Bool := s.wasToggled m && s.isPressed m

/-- WAS_RELEASED's condition: WAS_TOGGLED(M) and ((~last_buttons) & M) != 0 (R245). -/
def State.wasReleased (m : ButtonWord) (s : State) : Bool :=
  s.wasToggled m && pressedIn s.regs.lastButtons m

/-- ANY_TOGGLED's condition: (last_buttons ^ buttons) != 0 (R246). -/
def State.anyToggled (s : State) : Bool := s.regs.lastButtons ^^^ s.regs.buttons != 0

/-- `min(read_delay + 1, DELAY_CAP)`: how read_delay grows (R215, R226). -/
def State.grownDelay (s : State) : Nat := min (s.regs.readDelay + 1) s.params.delayCap

end Sys2Proof.Machine
end

