-- ==== Sys2Proof/Machine/Query.lean ====
section
/-! DEFINITION. The decoder operations (spec/43_decoder.md): each "completes in one step, with no bus
activity and no clock sample", and writes nothing but the result word (R37, R241). -/

namespace Sys2Proof.Machine

/-- A decoder operation that is admitted: issued and completed in one step (R241, R270). -/
def answer (w : HostWord) (r : HostWord) (s : State) : State := (s.issue w .query).complete r

/-- A decoder operation: admission (R241), then its result computed from the state it found. -/
def query (w : HostWord) (result : State → HostWord) (s : State) : State :=
  s.admission true (fun t => answer w (result t) t)

/-- IS_PRESSED (R242). -/
def execIsPressed (m : ButtonWord) (s : State) : Host.Outcome State Fault Refusal :=
  .next (query (hostWord (.isPressed m)) (fun t => boolResult (t.isPressed m)) s)

/-- WAS_PRESSED (R244). -/
def execWasPressed (m : ButtonWord) (s : State) : Host.Outcome State Fault Refusal :=
  .next (query (hostWord (.wasPressed m)) (fun t => boolResult (t.wasPressed m)) s)

/-- WAS_RELEASED (R245). -/
def execWasReleased (m : ButtonWord) (s : State) : Host.Outcome State Fault Refusal :=
  .next (query (hostWord (.wasReleased m)) (fun t => boolResult (t.wasReleased m)) s)

/-- WAS_TOGGLED (R243). -/
def execWasToggled (m : ButtonWord) (s : State) : Host.Outcome State Fault Refusal :=
  .next (query (hostWord (.wasToggled m)) (fun t => boolResult (t.wasToggled m)) s)

/-- ANY_TOGGLED (R246). -/
def execAnyToggled (s : State) : Host.Outcome State Fault Refusal :=
  .next (query (hostWord .anyToggled) (fun t => boolResult t.anyToggled) s)

/-- ANALOG: RB[K] zero extended, or RB_INDEX where RB has no byte K, checked after the other
admission conditions (R251, R279, R281). -/
def execAnalog (k : BitVec 5) (s : State) : Host.Outcome State Fault Refusal :=
  .next (s.admission true (fun t =>
    if t.params.rbLen ≤ k.toNat then t.refuse .rbIndex
    else answer (hostWord (.analog k)) (byteResult (t.rbRead k.toNat)) t))

/-- READ_TYPE: TYPE_MAP of controller_type and the current mode byte (R252). -/
def execReadType (s : State) : Host.Outcome State Fault Refusal :=
  .next (query (hostWord .readType)
    (fun t => typeCode (peripheralType t.params.typeMap t.regs.controllerType t.modeByte)) s)

end Sys2Proof.Machine
end

