-- ==== Sys2Proof/Machine/Session.lean ====
section
/-! DEFINITION. The two operations that run the sequencer, INIT and POLL (spec/42_protocol_fsm.md R218,
R220): admission and the operation's first step. What follows is Machine/Sequencer.lean's, one step of
the machine for each step label and each frame, until completion (R44, R46). -/

namespace Sys2Proof.Machine

/-- INIT is issued at I1: read_delay <- DELAY_INIT "at INIT entry", no probe read done yet (R221). -/
def beginInit (w : HostWord) (s : State) : State :=
  let issued := s.issue w (.init .i1)
  { issued with regs.readDelay := s.params.delayInit, pos.probe := 0, pos.attempt := 0,
                pos.cyclePos := none, pos.replayPos := none, pos.frame := none,
                pos.framePos := .noFrame, pos.acquiring := false }

/-- POLL is issued at P1 of its read cycle (R218, R210). -/
def beginPoll (w : HostWord) (s : State) : State :=
  let issued := s.issue w (.poll .p1)
  { issued with pos.cyclePos := none, pos.replayPos := none, pos.frame := none,
                pos.framePos := .noFrame, pos.acquiring := false }

/-- INIT: admitted at any time the host port is idle (R220, R277, R304). -/
def execInit (p v : Bool) (s : State) : Host.Outcome State Fault Refusal :=
  .next (s.admission false (beginInit (hostWord (.init p v))))

/-- POLL: refused before the first INIT has returned (R218, R277). -/
def execPoll (a : Bool) (b : Byte) (s : State) : Host.Outcome State Fault Refusal :=
  .next (s.admission true (beginPoll (hostWord (.poll a b))))

end Sys2Proof.Machine
end

