-- ==== Sys2Proof/Machine/Transport.lean ====
section
/-! DEFINITION. The Bit Transport and the Frame Transport (spec/40_transport.md): XFER in both
options, BEGIN_FRAME, END_FRAME and the frame built of them. One frame is one step of the machine
(spec/00_scope.md R13); inside it every pin, sample, byte and sleep is recorded as an event and the
position components of R46 move as the pseudocode's loops do. -/

namespace Sys2Proof.Machine

/-! ## One byte (R130, R132) -/

/-- `r[j] <- b`. -/
def setBit (r : Byte) (j : Fin 8) (b : Bool) : Byte :=
  if b then r ||| (1#8 <<< j.val) else r &&& ~~~(1#8 <<< j.val)

/-- The second half of bit period j = bitIdx: DAT is sampled into bit j, and the clock rises. -/
def bitRise (s : State) : State :=
  let drawn := s.sampleDat
  let got := { drawn.2 with pos.shiftIn := setBit s.pos.shiftIn s.pos.bitIdx drawn.1 }
  (got.pin .clk true).sleepUs s.params.tClkUs

/-- On to the next bit, or to 0 after bit 7 (R46; DESIGN CHOICE, log entry 25). -/
def nextBit (s : State) : State :=
  { s with pos.bitIdx := s.pos.bitIdx + 1 }

/-- Bit period j = bitIdx of a GPIO byte exchange (R130's loop body). bitIdx is j in both its sleeps (R46). -/
def bitPeriod (o : Byte) (s : State) : State :=
  let j := s.pos.bitIdx
  ((((s.pin .cmd (o.getLsbD j.val)).pin .clk false).sleepUs s.params.tClkUs).awake bitRise).awake nextBit

/-- XFER, GPIO option: the reply byte, and the state after it (R130). -/
def xferGpio (o : Byte) (s : State) : Byte × State :=
  let start := { s with pos.shiftIn := 0x00, pos.bitIdx := 0 }
  let shifted := (State.awake (bitPeriod o))^[8] start
  let done := shifted.awake fun t => (t.pin .cmd true).sleepUs t.params.tByteUs
  (done.pos.shiftIn, done)

/-- XFER, HWSPI option (R132). -/
def xferHwspi (o : Byte) (s : State) : Byte × State :=
  let drawn := s.spiExchange o
  (drawn.1, drawn.2.sleepUs s.params.tByteUs)

/-- XFER: exchange one byte (R130, R132). -/
def xfer (o : Byte) (s : State) : Byte × State :=
  match s.params.transport with
  | .gpio => xferGpio o s
  | .hwspi => xferHwspi o s

/-! ## What a frame does with a reply byte -/

/-- The reply bytes of a configuration frame are discarded (R137). -/
def discardReply (_ : Nat) (_ : Byte) (s : State) : State := s

/-- A read frame stores reply byte i in RB[i] as soon as its exchange ends (R205). For an instance whose SHORT_LEN
is not 9, i below SHORT_LEN is a DESIGN CHOICE (log entry 15): R73 writes the indices as 0..8. -/
def storeReply (i : Nat) (r : Byte) (s : State) : State := s.rbWrite i r

/-- The type frame stores the reply byte at TYPE_INDEX, and no other (R108, R161). -/
def storeTypeCode (i : Nat) (r : Byte) (s : State) : State :=
  if i = s.params.typeIndex then { s with regs.controllerType := r } else s

/-- Exchange request bytes in order, byteIdx the index of each in the frame until its last sleep has ended (R46),
and hand each reply byte to `use` (R73). A command longer than RB_LEN takes byteIdx past R46's range (DESIGN
CHOICE, log entry 25). -/
def exchangeBytes (use : Nat → Byte → State → State) : List Byte → State → State
  | [], s => s
  | o :: rest, s =>
    let got := xfer o s
    got.2.awake fun t =>
      let used := use s.pos.byteIdx got.1 t
      exchangeBytes use rest { used with pos.byteIdx := s.pos.byteIdx + 1 }

/-! ## The frame (R135, R136) -/

/-- The step waits inside BEGIN_FRAME with this frame still to send. -/
def State.holdFrame (i : Instr) (s : State) : State :=
  { s with pos.frame := some i, pos.framePos := .beginning }

/-- One turn of BEGIN_FRAME's busy-wait: whether the quiet time has passed, and the state after the clock
sample. Once it has passed, a block that waits in SPI_BEGIN samples no more (R135, D38). -/
def quietTime (s : State) : Bool × State :=
  if s.pos.acquiring then (true, s)
  else
    let t := s.nowMs
    (decide (s.params.tPacketMs ≤ elapsedSince s.params t.1 s.regs.lastRelease), t.2)

/-- SPI_BEGIN in the HWSPI option, nothing in the GPIO option (R135). -/
def acquireBus (s : State) : Bool × State :=
  match s.params.transport with
  | .gpio => (true, s)
  | .hwspi =>
    let g := s.spiGrant
    (g.1, { g.2 with pos.acquiring := !g.1 })

/-- The rest of BEGIN_FRAME: assert attention, then T_ATT_US (R135). -/
def openFrame (s : State) : State :=
  ((s.pin .att false).sleepUs s.params.tAttUs).awake fun t =>
    { t with pos.framePos := .bytes, pos.byteIdx := 0 }

/-- SPI_END in the HWSPI option, nothing in the GPIO option (R136). -/
def releaseBus (s : State) : State :=
  match s.params.transport with
  | .gpio => s
  | .hwspi => s.emit .spiEnd

/-- END_FRAME: deassert attention, release the SPI bus, record the release timestamp (R136). No byte is under
way any more: byteIdx is 0, also in the sleep that may follow (DESIGN CHOICE, log entry 25). -/
def endFrame (s : State) : State :=
  let ending := { s with pos.framePos := .ending, pos.byteIdx := 0 }
  let t := (releaseBus (ending.pin .att true)).nowMs
  { t.2 with regs.lastRelease := t.1 }

/-- The frame is over. -/
def leaveFrame (s : State) : State :=
  { s with pos.frame := none, pos.framePos := .noFrame, pos.acquiring := false }

/-- The frame from the fall of attention to what follows its END_FRAME, each part begun only when the
sleeps before it have ended (R135, R136, R290). -/
def frameBody (exchange after : State → State) (s : State) : State :=
  ((((openFrame s).awake exchange).awake endFrame).awake after).awake leaveFrame

/-- One frame from BEGIN_FRAME to what follows its END_FRAME. If the quiet time has not passed, or the
SPI bus is not granted, the step ends there and the frame waits. If a sleep does not end, the step ends in
that sleep (R135, R82, R290). -/
def runFrame (i : Instr) (exchange after : State → State) (s : State) : State :=
  let quiet := quietTime (s.holdFrame i)
  if quiet.1 then
    let acquired := acquireBus quiet.2
    if acquired.1 then frameBody exchange after acquired.2 else acquired.2
  else quiet.2

/-- The inter-command delay after a configuration frame: SLEEP_MS(read_delay) (R137). -/
def interCommandDelay (s : State) : State :=
  State.sleepMs s.regs.readDelay { s with pos.framePos := .sleeping }

/-- SEND_CMD: the frame of one configuration command, its reply discarded (R137). -/
def sendCmd (i : Instr) (s : State) : State :=
  runFrame i (exchangeBytes discardReply (frameBytes s.params.catalog i)) interCommandDelay s

/-- TYPE_FRAME: no inter-command sleep follows (R161). -/
def typeFrame (i : Instr) (s : State) : State :=
  runFrame i (exchangeBytes storeTypeCode (frameBytes s.params.catalog i)) id s

/-- The continuation, decided on this frame's RB[1] after byte 8 (R93, R205). Its reply byte j goes to
RB[SHORT_LEN + j]: RB[9 + j] where SHORT_LEN is 9 (R73), and a DESIGN CHOICE for another SHORT_LEN (log
entry 15). -/
def continueRead (s : State) : State :=
  let decided := { s with pos.doCont := s.modeByte == s.params.fullMode }
  if decided.pos.doCont then exchangeBytes storeReply (contRequest s.params.catalog) decided
  else decided

/-- READ_FRAME(a', b'): no sleep follows (R205). -/
def readFrame (i : Instr) (a b : Byte) (s : State) : State :=
  runFrame i
    (fun t => (exchangeBytes storeReply (readRequest s.params.catalog a b) t).awake continueRead) id s

end Sys2Proof.Machine
end

