-- ==== Sys2Proof/Machine/Wire.lean ====
section
/-! DEFINITION. The wire command frames (spec/41_wire_commands.md): each is one frame of the Frame
Transport, sent by the sequencer at its position (spec/42_protocol_fsm.md). A frame that cannot begin
yet leaves the block waiting in BEGIN_FRAME, and the next step tries again (spec/60_exceptions.md
R290). -/

namespace Sys2Proof.Machine

/-- A wire frame of an instance whose parameters meet R8. Any other instance is refused (R276). -/
def wireFrame (run : State → State) (s : State) : State :=
  if s.params.ok then run s else s.refuse .badParameters

/-- ENTER_CONFIG: SEND_CMD(CMD_ENTER_CONFIG) (R160). -/
def execEnterConfig (s : State) : Host.Outcome State Fault Refusal :=
  .next (wireFrame (sendCmd .enterConfig) s)

/-- QUERY_TYPE: TYPE_FRAME(), the only writer of controller_type (R161, R41). -/
def execQueryType (s : State) : Host.Outcome State Fault Refusal :=
  .next (wireFrame (typeFrame .queryType) s)

/-- SET_MODE: SEND_CMD(CMD_SET_MODE) (R162). -/
def execSetMode (s : State) : Host.Outcome State Fault Refusal :=
  .next (wireFrame (sendCmd .setMode) s)

/-- ENABLE_VIBRATION: SEND_CMD(CMD_ENABLE_VIBRATION) (R163). -/
def execEnableVibration (s : State) : Host.Outcome State Fault Refusal :=
  .next (wireFrame (sendCmd .enableVibration) s)

/-- ENABLE_PRESSURE: SEND_CMD(CMD_ENABLE_PRESSURE) (R164). -/
def execEnablePressure (s : State) : Host.Outcome State Fault Refusal :=
  .next (wireFrame (sendCmd .enablePressure) s)

/-- EXIT_CONFIG: SEND_CMD(CMD_EXIT_CONFIG) (R165). -/
def execExitConfig (s : State) : Host.Outcome State Fault Refusal :=
  .next (wireFrame (sendCmd .exitConfig) s)

/-- READ: READ_FRAME(A', B'). Whether the continuation follows is decided inside the frame, on its
reply byte 1 (R166, R205, R93). -/
def execRead (a b : Byte) (s : State) : Host.Outcome State Fault Refusal :=
  .next (wireFrame (readFrame (.read a b) a b) s)

/-- READ+CONT: the same READ_FRAME, "the only sender of this frame". The 21 bytes are exchanged when
the reply byte 1 is FULL_MODE, as R93 decides (R166, log entry 8). -/
def execReadCont (a b : Byte) (s : State) : Host.Outcome State Fault Refusal :=
  .next (wireFrame (readFrame (.readCont a b) a b) s)

end Sys2Proof.Machine
end

