-- ==== Sys2Proof/Machine/Dispatch.lean ====
section
/-! DEFINITION. exec: the meaning of every instruction, one arm per row of spec/opcode_table.json. -/

namespace Sys2Proof.Machine

def exec (i : Instr) (s : State) : Host.Outcome State Fault Refusal :=
  match i with
  | .init p v => Sys2Proof.Machine.execInit p v s
  | .poll a b => Sys2Proof.Machine.execPoll a b s
  | .isPressed m => Sys2Proof.Machine.execIsPressed m s
  | .wasPressed m => Sys2Proof.Machine.execWasPressed m s
  | .wasReleased m => Sys2Proof.Machine.execWasReleased m s
  | .wasToggled m => Sys2Proof.Machine.execWasToggled m s
  | .anyToggled => Sys2Proof.Machine.execAnyToggled s
  | .analog k => Sys2Proof.Machine.execAnalog k s
  | .readType => Sys2Proof.Machine.execReadType s
  | .enterConfig => Sys2Proof.Machine.execEnterConfig s
  | .queryType => Sys2Proof.Machine.execQueryType s
  | .setMode => Sys2Proof.Machine.execSetMode s
  | .enableVibration => Sys2Proof.Machine.execEnableVibration s
  | .enablePressure => Sys2Proof.Machine.execEnablePressure s
  | .exitConfig => Sys2Proof.Machine.execExitConfig s
  | .read a b => Sys2Proof.Machine.execRead a b s
  | .readCont a b => Sys2Proof.Machine.execReadCont a b s

end Sys2Proof.Machine
end

