-- ==== Sys2Proof/Machine/Sequencer.lean ====
section
/-! DEFINITION. The sequencer's programs (spec/42_protocol_fsm.md): READ_CYCLE with its steps P1 to P7
(R210), REPLAY (R190) and the configuration sequence I1 to I5 (R220), as what one step does at each
position (spec/10_state.md R46). A frame is loaded by one step and run by the next ones; when it is
over `afterFrame` says where the sequencer goes. -/

namespace Sys2Proof.Machine

/-! ## Positions -/

/-- The label of the read cycle under way: opPos in a POLL, cyclePos in an INIT (R46). -/
def State.cycle (s : State) : Option CycleStep :=
  match s.pos.opPos with
  | .poll l => some l
  | .init _ => s.pos.cyclePos
  | .idle => none
  | .query => none

/-- opPos after a move to a label of the read cycle under way: a POLL's own label (R46). -/
def OpPos.inCycle (l : CycleStep) : OpPos → OpPos
  | .poll _ => .poll l
  | .init i => .init i
  | .idle => .idle
  | .query => .query

/-- cyclePos after such a move: the label of a read cycle inside an INIT (R46). -/
def OpPos.cyclePosIn (l : CycleStep) (c : Option CycleStep) : OpPos → Option CycleStep
  | .init _ => some l
  | .poll _ => c
  | .idle => c
  | .query => c

/-- Go to a label of the read cycle under way. -/
def State.goCycle (l : CycleStep) (s : State) : State :=
  { s with pos.opPos := s.pos.opPos.inCycle l, pos.cyclePos := s.pos.opPos.cyclePosIn l s.pos.cyclePos }

/-- Go to a label of INIT, outside any read cycle. -/
def State.goInit (l : InitStep) (s : State) : State :=
  { s with pos.opPos := .init l, pos.cyclePos := none }

/-- Begin a read cycle inside INIT. -/
def State.enterCycle (s : State) : State := { s with pos.cyclePos := some .p1 }

/-- Begin a list of command frames. -/
def State.startList (s : State) : State := { s with pos.replayPos := some 0 }

/-- Leave a list of command frames. -/
def State.leaveList (s : State) : State := { s with pos.replayPos := none }

/-- Load the frame that the next step begins. -/
def State.loadFrame (i : Instr) (s : State) : State := { s with pos.frame := some i }

/-! ## Command lists -/

/-- REPLAY's commands: the enable commands "when they are 1" in the stored flags (R190, R40). -/
def replayCommands (enVibration enPressures : Bool) : List Instr :=
  [.enterConfig, .setMode] ++ (if enVibration then [.enableVibration] else []) ++
    (if enPressures then [.enablePressure] else []) ++ [.exitConfig]

/-- The commands of one configuration attempt, from INIT's operands (R223). -/
def attemptCommands (v p : Bool) : List Instr :=
  [.enterConfig, .queryType, .setMode] ++ (if v then [.enableVibration] else []) ++
    (if p then [.enablePressure] else []) ++ [.exitConfig]

/-- The list under way: a replay's inside a read cycle, an attempt's at I3 outside one. -/
def State.commands (s : State) : List Instr :=
  match s.cycle with
  | some _ => replayCommands s.regs.enVibration s.regs.enPressures
  | none => attemptCommands s.opV s.opP

/-! ## READ_CYCLE (R210) -/

/-- P1: one clock sample, elapsed, and the stall check (R211). -/
def stepP1 (s : State) : State :=
  let t := s.nowMs
  let elapsed := elapsedSince s.params t.1 s.regs.lastRead
  let timed := { t.2 with pos.elapsed := elapsed }
  if s.params.stallMs < elapsed then timed.startList else timed.goCycle .p2

/-- P2: pacing, on P1's elapsed time (R212). -/
def stepP2 (s : State) : State :=
  let paced := if s.pos.elapsed < s.regs.readDelay then s.sleepMs (s.regs.readDelay - s.pos.elapsed) else s
  paced.awake (State.goCycle .p3)

/-- P3: the actuator bytes, computed once, and the first attempt (R213). With READ_ATTEMPTS = 0 there is no
attempt, P5 follows, and `retry` keeps its value, by the model's choice (log entry 20). -/
def stepP3 (s : State) : State :=
  let scaled := { s with pos.scaledB := scale s.cycleB }
  if s.params.readAttempts = 0 then scaled.goCycle .p5
  else State.goCycle .p4 { scaled with pos.retry := 1 }

/-- P4 outside a replay: the read frame of one attempt (R213). -/
def stepP4 (s : State) : State := s.loadFrame (.read (actuatorA s.cycleA) s.pos.scaledB)

/-- P5: delay growth if the mode byte is still not analog (R215). -/
def stepP5 (s : State) : State :=
  let grown := if s.analog then s else { s with regs.readDelay := s.grownDelay }
  grown.goCycle .p6

/-- P6, first half: `last_buttons <- buttons; buttons <- RB[4] ++ RB[3]`, atomically (R216). -/
def roll (s : State) : State :=
  { s with regs.lastButtons := s.regs.buttons, regs.buttons := s.buttonWord }

/-- P6: the roll, then the read timestamp from a new clock sample, in every read cycle (R216). -/
def stepP6 (s : State) : State :=
  let t := (roll s).nowMs
  State.goCycle .p7 { t.2 with regs.lastRead := t.1 }

/-- What follows a read cycle inside INIT, its result ignored: the next probe or I2 (R221), or I4 (R223). -/
def afterCycle (l : InitStep) (s : State) : State :=
  match l with
  | .i1 =>
    let counted := { s with pos.probe := s.pos.probe + 1 }
    if counted.pos.probe < s.params.probeReads then counted.enterCycle else counted.goInit .i2
  | .i3 => s.goInit .i4
  | .i2 => s.goInit .i2
  | .i4 => s.goInit .i4
  | .i5 => s.goInit .i5

/-- P7: the read cycle returns whether the mode byte is analog: POLL's result (R217, R218). -/
def stepP7 (s : State) : State :=
  match s.pos.opPos with
  | .poll _ => s.complete (boolResult s.analog)
  | .init l => afterCycle l s
  | .idle => s
  | .query => s

/-- After the last frame of a replay: at P1 the pacing step follows (R211); after a failed attempt
SLEEP_MS(read_delay), then the next attempt or P5 (R214). -/
def afterReplay (s : State) : State :=
  match s.cycle with
  | some .p1 => s.leaveList.goCycle .p2
  | some .p4 =>
    (s.leaveList.sleepMs s.regs.readDelay).awake fun slept =>
      if s.pos.retry < s.params.readAttempts then { slept with pos.retry := s.pos.retry + 1 }
      else slept.goCycle .p5
  | some .p2 => s.leaveList
  | some .p3 => s.leaveList
  | some .p5 => s.leaveList
  | some .p6 => s.leaveList
  | some .p7 => s.leaveList
  | none => s.leaveList.enterCycle

/-- One step at a label of the read cycle, outside a command list. -/
def stepCycle (l : CycleStep) (s : State) : State :=
  match l with
  | .p1 => stepP1 s
  | .p2 => stepP2 s
  | .p3 => stepP3 s
  | .p4 => stepP4 s
  | .p5 => stepP5 s
  | .p6 => stepP6 s
  | .p7 => stepP7 s

/-! ## INIT (R220) -/

/-- I1: the first probe read, or I2 if there is none to make (R221). -/
def stepI1 (s : State) : State :=
  if s.pos.probe < s.params.probeReads then s.enterCycle else s.goInit .i2

/-- I5's status, and I5. -/
def State.goStatus (r : Status) (s : State) : State := { s.goInit .i5 with pos.status := r }

/-- I2: presence; NotFound without any attempt (R222). -/
def stepI2 (s : State) : State :=
  if s.present then
    (if s.params.configAttempts = 0 then s.goStatus .configRejected
     else { s.goInit .i3 with pos.attempt := 1 })
  else s.goStatus .notFound

/-- I3, the start of an attempt: the flags from the operands, then the command list (R223). -/
def stepI3 (s : State) : State :=
  State.startList { s with regs.enVibration := s.opV, regs.enPressures := s.opP }

/-- I4's tests, in order, on the whole mode byte: the status that ends INIT, or none for a failed attempt
(R224, R225). -/
def attemptResult (p : Params) (wantPressures : Bool) (mode : Byte) : Option Status :=
  if wantPressures && mode == p.fullMode then some .ok
  else if wantPressures && mode == p.pressureReject then some .pressureRejected
  else if !wantPressures && mode == p.basicAnalog then some .ok
  else none

/-- I4: the attempt's outcome; a failed attempt grows read_delay, and the last one is ConfigRejected
(R224, R225, R226). -/
def stepI4 (s : State) : State :=
  match attemptResult s.params s.opP s.modeByte with
  | some r => s.goStatus r
  | none =>
    let grown := { s with regs.readDelay := s.grownDelay }
    if s.pos.attempt < s.params.configAttempts then
      { grown.goInit .i3 with pos.attempt := s.pos.attempt + 1 }
    else grown.goStatus .configRejected

/-- I5: session_valid <- 1 whatever the status, and the status is the result (R227). -/
def stepI5 (s : State) : State :=
  State.complete s.pos.status.code { s with regs.sessionValid := true }

/-- One step at a label of INIT, outside a read cycle and outside a command list. -/
def stepInit (l : InitStep) (s : State) : State :=
  match l with
  | .i1 => stepI1 s
  | .i2 => stepI2 s
  | .i3 => stepI3 s
  | .i4 => stepI4 s
  | .i5 => stepI5 s

/-! ## One step of the sequencer -/

/-- The sequencer between frames: the next command of the list under way, or the step at its label. -/
def sequencer (s : State) : State :=
  match s.pos.replayPos with
  | some k =>
    (match s.commands[k]? with
     | some i => s.loadFrame i
     | none => afterReplay s)
  | none =>
    (match s.cycle, s.pos.opPos with
     | some l, _ => stepCycle l s
     | none, .init l => stepInit l s
     | none, .poll _ => s
     | none, .idle => s
     | none, .query => s)

/-- The sequencer after a command frame of a list: the next command, or the list is done. -/
def afterCommand (k : Nat) (s : State) : State :=
  if k + 1 < s.commands.length then { s with pos.replayPos := some (k + 1) } else afterReplay s

/-- The sequencer after the read frame of an attempt: the check of RB[1] (R213), or a replay (R214). -/
def afterRead (s : State) : State := if s.analog then s.goCycle .p5 else s.startList

/-- The sequencer after a step of a frame: nothing while the frame still waits to begin or is in a sleep. -/
def afterFrame (s : State) : State :=
  match s.pos.frame, s.pos.replayPos, s.cycle with
  | some _, _, _ => s
  | none, some k, _ => afterCommand k s
  | none, none, some .p4 => afterRead s
  | none, none, _ => s

end Sys2Proof.Machine
end

