-- ==== Sys2Proof/Machine/Fetch.lean ====
section
/-! DEFINITION. Which instruction a state runs next. The block fetches no code (spec/20_memory.md R70,
spec/70_reset_and_hazards.md R301): a host operation comes from the host port and a wire frame from
the sequencer's own position (spec/10_state.md R44, R46). -/

namespace Sys2Proof.Machine

/-- What the next step does. -/
inductive Fetched where
  /-- The refused mark is set: there is no further step (R47). -/
  | halted (r : RefusalReason)
  /-- The word or the instance is refused before any instruction runs (R276). -/
  | refuse (r : RefusalReason)
  /-- A host operation is issued: its instruction, and the state with its word taken off the port. -/
  | host (i : Instr) (s : State)
  /-- A wire frame is begun, or tried again. -/
  | frame (i : Instr)
  /-- The sequencer takes a step between frames. -/
  | control
  /-- The block is in a sleep that the time port has not ended: nothing happens until it does (R290). -/
  | asleep
  /-- The block is IDLE and the host issues nothing (R301). -/
  | idle
  deriving DecidableEq, Repr

/-- A host word at the port: BUSY_ISSUE is checked first, then RESERVED_ENCODING (R281). -/
def fetchHost (w : HostWord) (taken : State) (s : State) : Fetched :=
  if s.port.busy then .refuse .busyIssue
  else
    match decodeHost w with
    | .ok i => .host i taken
    | .error _ => .refuse .reservedEncoding

/-- The state with the word on the port taken. -/
def State.takeRequest (s : State) : State := { s with port.request := none }

/-- The state with the first word of the host's program taken. -/
def State.takeProgram (s : State) : State := { s with port.program := s.port.program.tail }

/-- The next thing the block does: a word on the port now, else nothing if a sleep has not ended, else the
frame or the sequencer of the running operation, else the next word of the host's program, which a host that
keeps R310 issues when the block is idle. -/
def fetch (s : State) : Fetched :=
  match s.refused with
  | some r => .halted r
  | none =>
    if !s.params.ok then .refuse .badParameters
    else
      match s.port.request with
      | some w => fetchHost w s.takeRequest s
      | none =>
        if s.pos.asleep then .asleep
        else
          match s.pos.frame with
          | some i => .frame i
          | none =>
            if s.port.busy then .control
            else
              match s.port.program with
              | w :: _ => fetchHost w s.takeProgram s
              | [] => .idle

/-- Lay an instruction where the next step finds it: a host word on the port, a wire frame at the
sequencer, awake, with the port empty. -/
def loadCode (c : Code) (s : State) : State :=
  match c with
  | .host w => { s with port.request := some w }
  | .wire bytes =>
    match decodeWire s.params.catalog bytes with
    | .ok i =>
      { s with port.request := none, pos.frame := some i, pos.acquiring := false, pos.asleep := false }
    | .error _ => s

end Sys2Proof.Machine
end

