-- ==== Sys2Proof/Machine/Step.lean ====
section
/-! DEFINITION. One step of the machine: a host operation issued, one wire frame, or one step of the
sequencer between frames (spec/00_scope.md R13). -/

namespace Sys2Proof.Machine

/-- What a step of a frame adds around exec: when the frame is over, the sequencer goes on (R46). -/
def thenSequence : Host.Outcome State Fault Refusal → Host.Outcome State Fault Refusal
  | .next s => .next (afterFrame s)
  | .fault r => .fault r
  | .refused r => .refused r

/-- One step. A refusal sets the mark, and a marked state has no further step (R47, R276). -/
def step (s : State) : Host.Outcome State Fault Refusal :=
  match fetch s with
  | .halted r => .refused (.marked r)
  | .refuse r => .next (s.refuse r)
  | .host i t => exec i t
  | .frame i => thenSequence (exec i s)
  | .control => .next (sequencer s)
  | .asleep => .next s
  | .idle => .next s

/-- s with an instruction laid where step finds its next one (log entry 4). -/
def State.withFetchWord (s : State) (nbits w : Nat) : State := loadCode (tableCode nbits w) s

end Sys2Proof.Machine
end

