-- ==== Sys2Proof/Machine/Trace.lean ====
section
/-! DEFINITION. The event history read from outside (spec/10_state.md R45, spec/30_encoding.md R116):
the events of one byte exchange and of one frame as spec/40_transport.md lists them, the folding of
pin-level events into byte exchanges and frames (spec/00_scope.md R13), and the durations of
spec/70_reset_and_hazards.md R313. The machine does not use this file: it is what a reader of a
history holds the history against. -/

namespace Sys2Proof.Machine

/-! ## What a byte exchange and a frame look like, in time order -/

/-- Bit period j of a GPIO byte exchange with request byte o and reply byte r (R130). -/
def gpioBitEvents (p : Params) (o r : Byte) (j : Nat) : List Event :=
  [.pin .cmd (o.getLsbD j), .pin .clk false, .sleepUs p.tClkUs, .sample (r.getLsbD j),
   .pin .clk true, .sleepUs p.tClkUs]

/-- One byte exchange: request byte first, reply byte second (R130, R132). -/
def byteEvents (p : Params) (b : Byte × Byte) : List Event :=
  match p.transport with
  | .gpio => (List.range 8).flatMap (gpioBitEvents p b.1 b.2) ++ [.pin .cmd true, .sleepUs p.tByteUs]
  | .hwspi => [.spiXfer b.1 b.2, .sleepUs p.tByteUs]

/-- BEGIN_FRAME after its busy-wait (R135). -/
def openEvents (p : Params) : List Event :=
  (match p.transport with
   | .gpio => []
   | .hwspi => [.spiBegin]) ++ [.pin .att false, .sleepUs p.tAttUs]

/-- END_FRAME with its clock sample v (R136). -/
def closeEvents (p : Params) (v : Nat) : List Event :=
  [.pin .att true] ++
  (match p.transport with
   | .gpio => []
   | .hwspi => [.spiEnd]) ++ [.clock v]

/-- One frame after its busy-wait: the byte exchanges between attention's two edges (R90, R138). -/
def frameEvents (p : Params) (exchanged : List (Byte × Byte)) (v : Nat) : List Event :=
  openEvents p ++ exchanged.flatMap (byteEvents p) ++ closeEvents p v

/-! ## Folding (R13, R45, R116) -/

/-- One entry of a frame-level trace. -/
inductive TraceItem where
  | issue (w : HostWord)
  | done (r : HostWord)
  | frame (out reply : List Byte)
  | clock (v : Nat)
  | sleepMs (n : Nat)
  deriving DecidableEq, Repr

/-- What the folding carries from event to event: the level of CMD, the bits of the byte under way and
the bytes of the frame under way, each the latest first. -/
structure FoldState where
  cmd     : Bool
  outBits : List Bool
  inBits  : List Bool
  out     : List Byte
  reply   : List Byte
  deriving DecidableEq, Repr

/-- Nothing under way, CMD at its idle level. -/
def FoldState.idle : FoldState := ⟨true, [], [], [], []⟩

/-- The byte whose bits, bit 7 first, are given: on the wire bit 0 comes first, so the latest bit is
bit 7 (R72). -/
def byteOfBits (latestFirst : List Bool) : Byte :=
  BitVec.ofNat 8 (latestFirst.foldl (fun n b => 2 * n + b.toNat) 0)

/-- The folding's state after one event. The bit driven on CMD counts at the falling clock edge, and the
byte is whole at the eighth sample. -/
def FoldState.next (f : FoldState) : Event → FoldState
  | .pin .cmd b => { f with cmd := b }
  | .pin .clk false => { f with outBits := f.cmd :: f.outBits }
  | .pin .clk true => f
  | .pin .att false => { f with outBits := [], inBits := [], out := [], reply := [] }
  | .pin .att true => { f with outBits := [], inBits := [], out := [], reply := [] }
  | .sample b =>
    if f.inBits.length = 7 then
      { f with outBits := [], inBits := [], out := byteOfBits f.outBits :: f.out,
               reply := byteOfBits (b :: f.inBits) :: f.reply }
    else { f with inBits := b :: f.inBits }
  | .spiXfer o r => { f with out := o :: f.out, reply := r :: f.reply }
  | .hostIssue _ => f
  | .hostDone _ => f
  | .spiBegin => f
  | .spiEnd => f
  | .clock _ => f
  | .sleepUs _ => f
  | .sleepMs _ => f

/-- The trace entry that one event ends, if it ends one. -/
def FoldState.item (f : FoldState) : Event → List TraceItem
  | .hostIssue w => [.issue w]
  | .hostDone r => [.done r]
  | .pin .att true => [.frame f.out.reverse f.reply.reverse]
  | .clock v => [.clock v]
  | .sleepMs n => [.sleepMs n]
  | .pin .att false => []
  | .pin .clk _ => []
  | .pin .cmd _ => []
  | .sample _ => []
  | .spiBegin => []
  | .spiEnd => []
  | .spiXfer _ _ => []
  | .sleepUs _ => []

/-- The frame-level trace of events in time order. -/
def foldTrace : FoldState → List Event → List TraceItem
  | _, [] => []
  | f, e :: rest => f.item e ++ foldTrace (f.next e) rest

/-- The frame-level trace of a state's history (R45: the history is kept latest first). -/
def State.trace (s : State) : List TraceItem := foldTrace .idle s.history.reverse

/-- What the folding carries after a whole history. -/
def State.folded (s : State) : FoldState := s.history.reverse.foldl FoldState.next .idle

/-- The command of a traced frame, by its request bytes (R97, R116). -/
def TraceItem.command (c : Catalog) : TraceItem → Option Instr
  | .frame out _ => (decodeWire c out).toOption
  | .issue _ => none
  | .done _ => none
  | .clock _ => none
  | .sleepMs _ => none

/-! ## Durations: lower bounds from the recorded sleeps (R313) -/

/-- The microseconds of SLEEP_US in a list of events. -/
def sleptMicros : List Event → Nat
  | [] => 0
  | .sleepUs n :: rest => n + sleptMicros rest
  | .hostIssue _ :: rest => sleptMicros rest
  | .hostDone _ :: rest => sleptMicros rest
  | .pin _ _ :: rest => sleptMicros rest
  | .sample _ :: rest => sleptMicros rest
  | .spiBegin :: rest => sleptMicros rest
  | .spiEnd :: rest => sleptMicros rest
  | .spiXfer _ _ :: rest => sleptMicros rest
  | .clock _ :: rest => sleptMicros rest
  | .sleepMs _ :: rest => sleptMicros rest

/-- A byte exchange's lower bound in microseconds: 16 x T_CLK_US + T_BYTE_US, or 8 / SPI_BITRATE
seconds + T_BYTE_US (R313). The quotient is rounded down to microseconds (log entry 21), and at SPI_BITRATE
0, for which R313 gives no duration, it counts 0 (log entry 24). -/
def byteMicros (p : Params) : Nat :=
  match p.transport with
  | .gpio => 16 * p.tClkUs + p.tByteUs
  | .hwspi => 8 * 1000000 / p.spiBitrate + p.tByteUs

/-- The lower bound of a frame of n bytes (R313). -/
def frameMicros (p : Params) (n : Nat) : Nat := p.tAttUs + n * byteMicros p

end Sys2Proof.Machine
end

