-- ==== Sys2Proof/Machine/Asm.lean ====
section
/-! DEFINITION. The written forms of spec/30_encoding.md: the host-program syntax (R114), its
pseudo-operations (R115), the control names with their guitar aliases (R106, R107) and the trace syntax of
a wire frame (R116). The machine does not use this file: it is how a program is written down and a
recorded history is read. -/

namespace Sys2Proof.Machine

/-! ## Names -/

/-- The control names of R106 and R107, the colour names in brackets there and the guitar aliases
among them. -/
def controlNames : List (String × Control) :=
  [ ("SELECT", .select), ("L3", .l3), ("R3", .r3), ("START", .start),
    ("PAD_UP", .padUp), ("PAD_RIGHT", .padRight), ("PAD_DOWN", .padDown), ("PAD_LEFT", .padLeft),
    ("L2", .l2), ("R2", .r2), ("L1", .l1), ("R1", .r1),
    ("TRIANGLE", .triangle), ("CIRCLE", .circle), ("CROSS", .cross), ("SQUARE", .square),
    ("RX", .rx), ("RY", .ry), ("LX", .lx), ("LY", .ly) ] ++
  [ ("GREEN", .triangle), ("RED", .circle), ("BLUE", .cross), ("PINK", .square) ] ++
  [ ("UP_STRUM", .padUp), ("DOWN_STRUM", .padDown), ("STAR_POWER", .l2), ("GREEN_FRET", .r2),
    ("YELLOW_FRET", .triangle), ("RED_FRET", .circle), ("BLUE_FRET", .cross),
    ("ORANGE_FRET", .square), ("WHAMMY_BAR", .ly) ]

/-- The control that a written name stands for. -/
def controlNamed (name : List Char) : Option Control :=
  (controlNames.find? (fun c => c.1.toList == name)).map (·.2)

/-- A control's one-bit mask in the button word (R106). -/
def controlMask (p : Params) (c : Control) : Option ButtonWord :=
  (p.buttonBits.lookup c).map (fun b => 1#16 <<< b.val)

/-- A control's RB index (R107). -/
def controlIndex (p : Params) (c : Control) : Option Nat := p.axisOffsets.lookup c

/-! ## Values: decimal or `0x` hexadecimal (R114) -/

/-- One digit in a base. -/
def digitValue (base : Nat) (c : Char) : Option Nat :=
  let n := c.toNat
  let v := if 48 ≤ n ∧ n ≤ 57 then some (n - 48)
    else if 65 ≤ n ∧ n ≤ 70 then some (n - 55)
    else if 97 ≤ n ∧ n ≤ 102 then some (n - 87)
    else none
  v.bind (fun d => if d < base then some d else none)

/-- Digits, the most significant first, after `acc`. -/
def digitsValue (base : Nat) : Nat → List Char → Option Nat
  | acc, [] => some acc
  | acc, c :: rest => (digitValue base c).bind (fun d => digitsValue base (base * acc + d) rest)

/-- A written number. -/
def numberValue : List Char → Option Nat
  | [] => none
  | ['0', 'x'] => none
  | '0' :: 'x' :: rest => digitsValue 16 0 rest
  | digits => digitsValue 10 0 digits

/-- A value that a field of n bits holds. -/
def fieldValue (n : Nat) (text : List Char) : Option (BitVec n) :=
  (numberValue text).bind (fun v => if v < 2 ^ n then some (BitVec.ofNat n v) else none)

/-- A one-bit operand. -/
def bitValue (text : List Char) : Option Bool := (fieldValue 1 text).map (fun v => v.getLsbD 0)

/-! ## Lines -/

/-- A text cut at a separator. -/
def cut (sep : Char) : List Char → List (List Char)
  | [] => [[]]
  | c :: rest =>
    match cut sep rest with
    | [] => [[c]]
    | first :: more => if c = sep then [] :: first :: more else (c :: first) :: more

/-- A text without the spaces at its two ends. -/
def trimmed (text : List Char) : List Char :=
  ((text.dropWhile (· == ' ')).reverse.dropWhile (· == ' ')).reverse

/-- The value of `NAME=value`, if that is the operand's name. -/
def operand (name : Char) (text : List Char) : Option (List Char) :=
  match trimmed text with
  | c :: '=' :: value => if c = name then some value else none
  | _ => none

/-- The mask of one or more control names joined with `|` (R114). -/
def namedMask (p : Params) (text : List Char) : Option ButtonWord :=
  ((cut '|' text).map trimmed).foldr
    (fun name acc => ((controlNamed name).bind (controlMask p)).bind
      (fun m => acc.map (fun rest => m ||| rest))) (some 0)

/-- M: a number or control names (R114). The pseudo-operations leave `M=` out before a name (R115). -/
def maskOperand (p : Params) (text : List Char) : Option ButtonWord :=
  match operand 'M' text with
  | some value => (fieldValue 16 value).orElse (fun _ => namedMask p value)
  | none => ((controlNamed (trimmed text)).bind (controlMask p))

/-- The K of a named control (R107). -/
def namedIndex (p : Params) (text : List Char) : Option (BitVec 5) :=
  ((controlNamed text).bind (controlIndex p)).bind
    (fun k => if k < 32 then some (BitVec.ofNat 5 k) else none)

/-- K: a number or a control name (R114). The pseudo-operation leaves `K=` out before a name (R115). -/
def indexOperand (p : Params) (text : List Char) : Option (BitVec 5) :=
  match operand 'K' text with
  | some value => (fieldValue 5 value).orElse (fun _ => namedIndex p value)
  | none => namedIndex p (trimmed text)

/-- A mnemonic's operands, the text after it cut at the commas. -/
def parseOperands (p : Params) (mnemonic : List Char) (operands : List (List Char)) : Option Instr :=
  match operands with
  | [] =>
    if mnemonic = "INIT".toList then some (.init false false)
    else if mnemonic = "POLL".toList then some (.poll false 0)
    else if mnemonic = "ANY_TOGGLED".toList then some .anyToggled
    else if mnemonic = "READ_TYPE".toList then some .readType
    else none
  | [x] =>
    if mnemonic = "IS_PRESSED".toList then (maskOperand p x).map .isPressed
    else if mnemonic = "WAS_PRESSED".toList then (maskOperand p x).map .wasPressed
    else if mnemonic = "WAS_RELEASED".toList then (maskOperand p x).map .wasReleased
    else if mnemonic = "WAS_TOGGLED".toList then (maskOperand p x).map .wasToggled
    else if mnemonic = "ANALOG".toList then (indexOperand p x).map .analog
    else none
  | [x, y] =>
    if mnemonic = "INIT".toList then
      ((operand 'P' x).bind bitValue).bind (fun a =>
        ((operand 'V' y).bind bitValue).map (fun b => .init a b))
    else if mnemonic = "POLL".toList then
      ((operand 'A' x).bind bitValue).bind (fun a =>
        ((operand 'B' y).bind (fieldValue 8)).map (fun b => .poll a b))
    else none
  | _ => none

/-- One line of a host program: the operation it stands for (R114, R115). -/
def parseLine (p : Params) (line : String) : Option Instr :=
  let text := trimmed line.toList
  let mnemonic := text.takeWhile (· != ' ')
  let rest := trimmed (text.dropWhile (· != ' '))
  parseOperands p mnemonic (if rest = [] then [] else cut ',' rest)

/-- A host program: the words of its lines, or none if a line has no meaning. -/
def assemble (p : Params) (lines : List String) : Option (List HostWord) :=
  lines.mapM (fun line => (parseLine p line).map hostWord)

/-! ## The trace of a wire frame (R116) -/

/-- One hexadecimal digit, capital letters as R96 and R116 write them. -/
def hexDigit (n : Nat) : Char := "0123456789ABCDEF".toList.getD n '?'

/-- A byte in two hexadecimal digits. -/
def hexByte (b : Byte) : List Char := [hexDigit (b.toNat / 16), hexDigit (b.toNat % 16)]

/-- Bytes in hexadecimal, byte 0 first, in square brackets. -/
def hexBytes (bytes : List Byte) : List Char :=
  '[' :: List.intercalate [' '] (bytes.map hexByte) ++ [']']

/-- `<COMMAND> out=[bytes] in=[bytes]`, or none for an entry that is no frame of the catalog (R99,
R116). -/
def TraceItem.render (c : Catalog) (t : TraceItem) : Option (List Char) :=
  (t.command c).bind (fun i =>
    match t with
    | .frame out reply => some (i.mnemonic.toList ++ " out=".toList ++ hexBytes out ++
        " in=".toList ++ hexBytes reply)
    | .issue _ => none
    | .done _ => none
    | .clock _ => none
    | .sleepMs _ => none)

end Sys2Proof.Machine
end

