-- ==== Sys2Proof/WellFormed.lean ====
section
/-! DEFINITION. Which instructions the block can meet. The types of Syntax.lean leave one thing to
check: the actuator bytes of a read frame (spec/30_encoding.md R102, spec/42_protocol_fsm.md R201).
An ANALOG index of 21 to 31 is NOT ill formed: it "matches its row and is refused with reason
RB_INDEX" when it is issued (R112). -/

namespace Sys2Proof

/-- `A' = zext_8(A), so 0x00 or 0x01` (R102). -/
def actuatorAOk (a : Byte) : Bool := a == 0x00 || a == 0x01

/-- `B' = SCALE(B)`: 0, or 64 to 255 (R102, R201). -/
def actuatorBOk (b : Byte) : Bool := b == 0x00 || decide (64 ≤ b.toNat)

/-- A frame or operation that the block sends or admits a meaning for (R99, R102). -/
def Instr.wf : Instr → Bool
  | .init _ _ => true
  | .poll _ _ => true
  | .isPressed _ => true
  | .wasPressed _ => true
  | .wasReleased _ => true
  | .wasToggled _ => true
  | .anyToggled => true
  | .analog _ => true
  | .readType => true
  | .enterConfig => true
  | .queryType => true
  | .setMode => true
  | .enableVibration => true
  | .enablePressure => true
  | .exitConfig => true
  | .read a b => actuatorAOk a && actuatorBOk b
  | .readCont a b => actuatorAOk a && actuatorBOk b

end Sys2Proof
end

