-- ==== Sys2Proof/Safety.lean ====
section
/-! DEFINITION. What a well-behaved block is, in the terms the claims use: the invariant that every step
keeps, the law of the bus lines, and when a frame may begin. -/

namespace Sys2Proof.Machine

/-! ## Host words -/

/-- The bits of a host word that the operation with this code uses: its OPC field and its operands (R110,
R111). -/
def operationFields (opc : BitVec 4) : HostWord :=
  if opc = 0x0 then 0x0000003F
  else if opc = 0x1 then 0x0000FF1F
  else if opc = 0x2 ∨ opc = 0x3 ∨ opc = 0x4 ∨ opc = 0x5 then 0xFFFF000F
  else if opc = 0x7 then 0x00001F0F
  else 0x0000000F

/-! ## When a frame begins -/

/-- A frame begun at this state does not wait: the quiet time has passed and the bus is granted (R135,
R82). -/
abbrev State.ready (s : State) : Prop :=
  (quietTime s).1 = true ∧ (acquireBus (quietTime s).2).1 = true

/-- The block is awake and the time port ends every sleep: the fairness that R290 asks of it. -/
abbrev State.sleepsEnd (s : State) : Prop := s.pos.asleep = false ∧ s.env.sleepsLeft = none

/-- The same state with a time port that ends every sleep. -/
def State.freed (s : State) : State := { s with env.sleepsLeft := none }

/-- A host operation issued at this state is admitted (R277, R278): its instance is valid, the port is
idle and, if it needs one, there is a session. -/
abbrev State.admits (needsSession : Bool) (s : State) : Prop :=
  s.params.ok = true ∧ s.port.busy = false ∧ (needsSession = true → s.regs.sessionValid = true)

/-- The sequencer takes the next step, between frames: an operation runs, nothing stops it, the block is
awake and the host puts no word on the port (R44, R46). -/
abbrev State.atControl (s : State) : Prop :=
  s.refused = none ∧ s.params.ok = true ∧ s.port.request = none ∧ s.pos.frame = none ∧
  s.port.busy = true ∧ s.pos.asleep = false

/-- The sequencer is at label l of a read cycle, outside a command list (R210). -/
abbrev State.atCycle (l : CycleStep) (s : State) : Prop :=
  s.atControl ∧ s.cycle = some l ∧ s.pos.replayPos = none

/-- The sequencer is at label l of INIT, outside a read cycle and a command list (R220). -/
abbrev State.atInit (l : InitStep) (s : State) : Prop :=
  s.atControl ∧ s.pos.opPos = .init l ∧ s.pos.cyclePos = none ∧ s.pos.replayPos = none

/-- The next step runs this wire frame: nothing stops it, the block is awake and the host puts no word on
the port. -/
abbrev State.atFrame (i : Instr) (s : State) : Prop :=
  s.refused = none ∧ s.params.ok = true ∧ s.port.request = none ∧ s.pos.frame = some i ∧
  s.pos.asleep = false

/-- The block is in a sleep that the time port has not ended, and the host puts no word on the port
(R290). -/
abbrev State.atSleep (s : State) : Prop :=
  s.refused = none ∧ s.params.ok = true ∧ s.port.request = none ∧ s.pos.asleep = true

/-- No frame of this instance ever waits: no quiet time is asked for and there is no SPI bus to be
granted. -/
abbrev State.neverWaits (s : State) : Prop := s.params.tPacketMs = 0 ∧ s.params.transport = .gpio

/-! ## The registers -/

/-- The response buffer is in canonical form and holds only indices that exist (R36, R71). -/
abbrev State.rbOk (s : State) : Prop :=
  s.regs.rb.wf ∧ ∀ c ∈ s.regs.rb, c.1 < s.params.rbLen

/-- read_delay is in DELAY_INIT..DELAY_CAP and the timestamps are CLOCK_BITS wide (R42, R43). -/
abbrev State.timingOk (s : State) : Prop :=
  s.params.delayInit ≤ s.regs.readDelay ∧ s.regs.readDelay ≤ s.params.delayCap ∧
  s.regs.lastRead < 2 ^ s.params.clockBits ∧ s.regs.lastRelease < 2 ^ s.params.clockBits

/-- The lines are at their idle levels, as they are between frames (R32, R131). -/
abbrev State.linesIdle (s : State) : Prop := s.bus = Bus.reset

/-! ## What a frame does (used by the claims about the wire frames) -/

/-- What a frame leaves besides the registers: the port, the parameters and the mark untouched, the lines
idle, no frame under way, and the position but for the frame's own temporaries. -/
structure FrameLeaves (s t : State) : Prop where
  params  : t.params = s.params
  port    : t.port = s.port
  refused : t.refused = s.refused
  bus     : t.bus = Bus.reset
  pos     : ∃ byi bi sh dc, t.pos =
    { s.pos with framePos := .noFrame, byteIdx := byi, bitIdx := bi, shiftIn := sh, doCont := dc,
                 frame := none, acquiring := false }

/-- Whether an event is a sleep (R33). -/
def Event.isSleep : Event → Bool
  | .sleepUs _ => true
  | .sleepMs _ => true
  | .hostIssue _ => false
  | .hostDone _ => false
  | .pin _ _ => false
  | .sample _ => false
  | .spiBegin => false
  | .spiEnd => false
  | .spiXfer _ _ => false
  | .clock _ => false

/-- How many sleeps a list of events holds. -/
def sleepCount (es : List Event) : Nat := es.countP Event.isSleep

/-- A frame i stopped in a sleep, from s to t (R290): after the sleeps that the time port ends came one that
it does not end, the newest event. The frame is still under way, the port, the parameters and the mark are
untouched, of the position only the frame's own temporaries moved, and RB is written only by a read frame,
controller_type only by the type query. -/
structure FrameStopped (i : Instr) (s t : State) : Prop where
  params  : t.params = s.params
  port    : t.port = s.port
  refused : t.refused = s.refused
  asleep  : t.pos.asleep = true
  pos     : ∃ fp byi bi sh dc a, t.pos =
    { s.pos with framePos := fp, byteIdx := byi, bitIdx := bi, shiftIn := sh, doCont := dc,
                 frame := some i, acquiring := a, asleep := true }
  regs    : ∃ m c v, t.regs = { s.regs with rb := m, controllerType := c, lastRelease := v } ∧
    ((∀ a b, i ≠ .read a b ∧ i ≠ .readCont a b) → m = s.regs.rb) ∧
    (i ≠ .queryType → c = s.regs.controllerType)
  last    : ∃ e es, t.history = e :: es ∧ e.isSleep = true
  count   : ∃ n, s.env.sleepsLeft = some n ∧ sleepCount t.history = sleepCount s.history + (n + 1)

/-- The clock sample of the busy-wait's last turn, as this step records it: none if the turn was an
earlier step's. -/
def quietEvents (s : State) : List Event := if s.pos.acquiring then [] else [.clock s.nowMs.1]

/-- A configuration frame with these request bytes ran whole from s to t (R137): a reply byte for each
request byte, all discarded, the release timestamp, then SLEEP_MS(read_delay), and no other register
written. -/
def CommandFrame (out : List Byte) (s t : State) : Prop :=
  ∃ rs v, rs.length = out.length ∧ v < 2 ^ s.params.clockBits ∧ FrameLeaves s t ∧
    t.regs = { s.regs with lastRelease := v } ∧
    t.history = [.sleepMs s.regs.readDelay] ++ (frameEvents s.params (out.zip rs) v).reverse ++
      quietEvents s ++ s.history

/-- A type frame ran whole from s to t (R161): the reply byte at TYPE_INDEX is controller_type, if the
frame is that long, and no sleep follows. -/
def TypeQueryFrame (out : List Byte) (s t : State) : Prop :=
  ∃ rs v, rs.length = out.length ∧ v < 2 ^ s.params.clockBits ∧ FrameLeaves s t ∧
    t.regs = { s.regs with
      controllerType := rs.getD s.params.typeIndex s.regs.controllerType, lastRelease := v } ∧
    t.history = (frameEvents s.params (out.zip rs) v).reverse ++ quietEvents s ++ s.history

/-- A read frame with actuator bytes a and b ran whole from s to t (R205): the continuation was
exchanged exactly if the reply byte 1 is FULL_MODE, reply byte i is in RB[i], the other RB bytes keep
their values, and no sleep follows. -/
def ReadFrame (a b : Byte) (s t : State) : Prop :=
  ∃ rs cont v,
    (cont = true ↔ rs.getD 1 0 = s.params.fullMode) ∧
    rs.length = s.params.catalog.shortLen + (if cont then s.params.catalog.contLen else 0) ∧
    v < 2 ^ s.params.clockBits ∧ FrameLeaves s t ∧ t.rbOk ∧
    (∀ i, t.rbRead i = if i < rs.length then rs.getD i 0 else s.rbRead i) ∧
    t.regs = { s.regs with rb := t.regs.rb, lastRelease := v } ∧
    t.history = (frameEvents s.params
      ((readRequest s.params.catalog a b ++
        (if cont then contRequest s.params.catalog else [])).zip rs) v).reverse ++
      quietEvents s ++ s.history

/-- A decoder operation completed in one step: its word in `op`, its result word, the two host events,
busy 0 and IDLE, and nothing else written (R37, R241, R270). -/
def State.answered (w r : HostWord) (s : State) : State :=
  { s with port := { s.port with busy := false, op := w, result := r },
           pos := { s.pos with opPos := .idle },
           history := .hostDone r :: .hostIssue w :: s.history }

/-- A decoder operation i gives this result word: admitted, it completes in one step and nothing but the
host port's words and the history changes. Without a session it is refused, and then only the refused
mark is written (R37, R241, R277). -/
def DecoderAnswers (i : Instr) (result : State → HostWord) : Prop :=
  ∀ s : State,
    (s.admits true → exec i s = .next (s.answered (hostWord i) (result s))) ∧
    (s.admits false → s.regs.sessionValid = false →
      exec i s = .next { s with refused := some .notInitialised })

/-- The frames in a history: how often attention was asserted (R138, R219). -/
def frameCount (history : List Event) : Nat := history.count (.pin .att false)

/-! ## The sequencer position (R46: "Position values other than these are not reachable") -/

/-- The position inside a read cycle at label l: attempts counted and the scaled byte one that SCALE
gives at P4, a command list only at P1 and P4. -/
def State.cycleOk (l : CycleStep) (s : State) : Prop :=
  match l with
  | .p1 => ∀ k ∈ s.pos.replayPos, k < s.commands.length
  | .p4 => 1 ≤ s.pos.retry ∧ s.pos.retry ≤ s.params.readAttempts ∧
      actuatorBOk s.pos.scaledB = true ∧ ∀ k ∈ s.pos.replayPos, k < s.commands.length
  | .p2 => s.pos.replayPos = none
  | .p3 => s.pos.replayPos = none
  | .p5 => s.pos.replayPos = none
  | .p6 => s.pos.replayPos = none
  | .p7 => s.pos.replayPos = none

/-- The attempt number while an attempt is made (R223). -/
abbrev State.attemptOk (s : State) : Prop :=
  1 ≤ s.pos.attempt ∧ s.pos.attempt ≤ s.params.configAttempts

/-- The status INIT is about to return, against the mode byte it was decided on (R222, R224, R225, R226,
R271). -/
def State.statusOk (s : State) : Prop :=
  match s.pos.status with
  | .ok => (s.opP = true ∧ s.modeByte = s.params.fullMode) ∨
      (s.opP = false ∧ s.modeByte = s.params.basicAnalog)
  | .notFound => s.modeByte ∉ s.params.validModes
  | .pressureRejected => s.opP = true ∧ s.modeByte = s.params.pressureReject
  | .configRejected => s.params.configAttempts = 0 ∨
      attemptResult s.params s.opP s.modeByte = none

/-- The position inside INIT. -/
def State.initOk (l : InitStep) (s : State) : Prop :=
  match l, s.pos.cyclePos with
  | .i1, none => s.pos.replayPos = none
  | .i1, some c => s.pos.probe < s.params.probeReads ∧ s.cycleOk c
  | .i3, none => s.attemptOk ∧ ∀ k ∈ s.pos.replayPos, k < s.commands.length
  | .i3, some c => s.attemptOk ∧ s.cycleOk c
  | .i4, none => s.attemptOk ∧ s.pos.replayPos = none
  | .i2, none => s.pos.replayPos = none
  | .i5, none => s.pos.replayPos = none ∧ s.pos.frame = none ∧ s.statusOk
  | .i2, some _ => False
  | .i4, some _ => False
  | .i5, some _ => False

/-- The host port and the sequencer position agree: busy exactly while an operation runs, `op` its word,
a POLL only in a session, and the position one that R46 allows. An idle block has no list, no frame and no
sleep under way. -/
def State.positionOk (s : State) : Prop :=
  match s.pos.opPos with
  | .idle => s.port.busy = false ∧ s.pos.replayPos = none ∧ s.pos.frame = none ∧ s.pos.asleep = false
  | .query => False
  | .init l => s.port.busy = true ∧ (∃ p v, s.port.op = hostWord (.init p v)) ∧ s.initOk l
  | .poll l => s.port.busy = true ∧ (∃ a b, s.port.op = hostWord (.poll a b)) ∧
      s.regs.sessionValid = true ∧ s.cycleOk l

/-- A frame that is loaded or waits is a wire frame that the block sends (R99, R102), and only the HWSPI
option waits for a bus (R82). -/
abbrev State.frameOk (s : State) : Prop :=
  (∀ i ∈ s.pos.frame, i.isWire = true ∧ i.wf = true) ∧ (s.pos.acquiring = true → s.params.transport = .hwspi)

/-! ## The law of the bus lines (R130, R131, R135, R136, R138, R312) -/

/-- The lines as a history leaves them: the levels of CLK, CMD and ATT, whether the SPI bus is held, and
how many bits of the byte under way have been sampled. -/
structure Lines where
  clk  : Bool
  cmd  : Bool
  att  : Bool
  held : Bool
  bits : Nat
  deriving DecidableEq, Repr

/-- The idle lines: CLK, CMD and ATT high, no bus held, no byte under way (R32). -/
def Lines.idle : Lines := ⟨true, true, true, false, 0⟩

/-- The lines after one event, or none if the law forbids the event there. Frames do not nest, bytes are
exchanged only while ATT is 0 (R138), CLK and CMD move only inside a GPIO byte exchange, CMD only
while CLK is high, DAT is sampled only while CLK is low and eight bits make a byte (R130, R131, R312),
ATT is asserted only while the SPI bus is held and released only after ATT (R135, R136), and the host,
the clock and the millisecond sleeps act only between frames. -/
def Lines.next (t : Transport) (l : Lines) : Event → Option Lines
  | .pin .att false =>
    if l.att ∧ l.clk ∧ l.cmd ∧ l.bits = 0 ∧ l.held = decide (t = .hwspi) then
      some { l with att := false } else none
  | .pin .att true =>
    if ¬ l.att ∧ l.clk ∧ l.cmd ∧ l.bits = 0 then some { l with att := true } else none
  | .pin .clk b =>
    if t = .gpio ∧ ¬ l.att ∧ l.clk = !b then some { l with clk := b } else none
  | .pin .cmd b =>
    if t = .gpio ∧ ¬ l.att ∧ l.clk then some { l with cmd := b } else none
  | .sample _ =>
    if t = .gpio ∧ ¬ l.att ∧ ¬ l.clk then some { l with bits := (l.bits + 1) % 8 } else none
  | .spiBegin =>
    if t = .hwspi ∧ l.att ∧ ¬ l.held then some { l with held := true } else none
  | .spiEnd =>
    if t = .hwspi ∧ l.att ∧ l.held then some { l with held := false } else none
  | .spiXfer _ _ => if t = .hwspi ∧ ¬ l.att then some l else none
  | .sleepUs _ => if ¬ l.att then some l else none
  | .clock _ => if l.att then some l else none
  | .sleepMs _ => if l.att ∧ ¬ l.held then some l else none
  | .hostIssue _ => if l.att ∧ ¬ l.held then some l else none
  | .hostDone _ => if l.att ∧ ¬ l.held then some l else none

/-- The lines after events in time order, or none if one of them breaks the law. -/
def Lines.run (t : Transport) : Lines → List Event → Option Lines
  | l, [] => some l
  | l, e :: rest =>
    match l.next t e with
    | some l' => Lines.run t l' rest
    | none => none

/-- The levels that lines are at. -/
def Lines.bus (l : Lines) : Bus := ⟨l.clk, l.cmd, l.att⟩

/-- The whole history keeps the law and leaves the lines at the levels they are at, idle unless the block is
in a sleep. -/
abbrev State.historyOk (s : State) : Prop :=
  ∃ l, Lines.run s.params.transport .idle s.history.reverse = some l ∧ s.bus = l.bus ∧
    (s.pos.asleep = false → l = .idle)

/-! ## The invariant -/

/-- What every step keeps, from every state that has it. -/
structure State.Inv (s : State) : Prop where
  params   : s.params.ok = true
  rb       : s.rbOk
  timing   : s.timingOk
  lines    : s.pos.asleep = false → s.linesIdle
  position : s.positionOk
  frame    : s.frameOk
  history  : s.historyOk

end Sys2Proof.Machine
end

