-- ==== Sys2Proof/Certificates/Slice0/Obligations.lean ====
section
/-! DEFINITION. The statements for the provers, from the numbered rules of spec/, family by family. -/

section
open Sys2Proof Sys2Proof.Machine

/-! ## Reset and the step -/

/-- R300, the table: every element that has a value after reset has that value. -/
def Obligations.ResetState : Prop :=
  (∀ i, i < 21 → State.reset.rbRead i = 0x00) ∧
  State.reset.regs.enVibration = false ∧ State.reset.regs.enPressures = false ∧
  State.reset.regs.controllerType = 0x00 ∧
  State.reset.regs.readDelay = State.reset.params.delayInit ∧ State.reset.params.delayInit = 1 ∧
  State.reset.regs.lastRead = 0 ∧ State.reset.regs.lastRelease = 0 ∧
  State.reset.regs.sessionValid = false ∧ State.reset.port.busy = false ∧
  State.reset.pos.opPos = .idle ∧
  State.reset.bus = ⟨true, true, true⟩ ∧
  State.reset.refused = none ∧ State.reset.history = []

/-- The invariant holds after reset, whatever the OPEN parameters are (R300, R8). Its clauses on replayPos,
frame, acquiring and asleep rest on the values that log entry 5 chooses for them. The other values of that
entry play no part in it. -/
def Obligations.ResetSatisfiesInvariant : Prop := State.reset.Inv

/-- Every step keeps the invariant, from every state that has it: legal parameters (R8), RB in canonical
form with no index that does not exist (R71), read_delay in its range (R42), the lines idle between frames
(in a sleep that has not ended, R290, they are where the history leaves them) and the law of the lines over
the whole history (R131, R138, R312), the port and a reachable sequencer position (R44, R46), and only frames
that the block sends (R99). -/
def Obligations.StepKeepsInvariant : Prop :=
  ∀ s t : State, s.Inv → step s = .next t → t.Inv

/-- A step runs the fetched instruction. A host word on the port, or the first word of the host's program
when the block is idle, runs as exec of the operation it decodes to. A frame at the sequencer runs as exec
of it, after which the sequencer goes on unless the frame still waits. With neither, a running operation
takes a sequencer step and an idle block does nothing (R44, R46, R301). A block in a sleep that has not
ended does nothing (R290). How a word comes to the port, and that a frame is one step, are the model's choices
(log entries 1 and 4). -/
def Obligations.StepRunsFetchedInstruction : Prop :=
  (∀ (s : State) w i, s.refused = none → s.params.ok = true → s.port.request = some w →
    s.port.busy = false → decodeHost w = .ok i →
    step s = exec i { s with port := { s.port with request := none } }) ∧
  (∀ (s : State) w ws i, s.refused = none → s.params.ok = true → s.port.request = none →
    s.pos.frame = none → s.pos.asleep = false → s.port.busy = false → s.port.program = w :: ws →
    decodeHost w = .ok i →
    step s = exec i { s with port := { s.port with program := ws } }) ∧
  (∀ (s u : State) i, s.atFrame i → exec i s = .next u →
    step s = .next (afterFrame u) ∧ (u.pos.frame ≠ none → afterFrame u = u)) ∧
  (∀ s : State, s.atControl → step s = .next (sequencer s)) ∧
  (∀ s : State, s.atSleep → step s = .next s) ∧
  (∀ s : State, s.refused = none → s.params.ok = true → s.port.request = none → s.pos.frame = none →
    s.pos.asleep = false → s.port.busy = false → s.port.program = [] → step s = .next s)

/-- A word laid by withFetchWord runs next, from any state that has no refused mark, legal parameters and
an idle port: a host word as its operation, and the bytes of a wire frame as that frame. Where a word is
laid is the model's choice (log entry 4). -/
def Obligations.LoadedWordRunsNext : Prop :=
  (∀ (s : State) (i : Instr), s.refused = none → s.params.ok = true → s.port.busy = false →
    i.isWire = false →
    step (s.withFetchWord 32 (hostWord i).toNat) =
      exec i { s with port := { s.port with request := none } }) ∧
  (∀ (s : State) (i : Instr) bytes, s.refused = none → s.params.ok = true →
    s.params.catalog = defaultCatalog → encode defaultCatalog i = .wire bytes →
    step (s.withFetchWord (8 * bytes.length) (bytes.foldr (fun b n => b.toNat + 256 * n) 0)) =
      thenSequence (exec i { s with port := { s.port with request := none },
                                    pos := { s.pos with frame := some i, acquiring := false,
                                                        asleep := false } }))

/-! ## Refusals -/

/-- R47: the mark is set by any refusal, a state with it has no further step, and so no step clears it. -/
def Obligations.RefusedStateHasNoStep : Prop :=
  (∀ (s : State) r, (s.refuse r).refused = some r) ∧
  (∀ (s : State) r, s.refused = some r → step s = .refused (.marked r)) ∧
  (∀ s t : State, step s = .next t → s.refused = none)

/-- R278: a word issued while an operation runs is refused with BUSY_ISSUE, whatever the word, a reserved one
too (R281). That the refusal is a next state in which only the mark is written, with no HostIssue, is the
model's choice (log entry 6). -/
def Obligations.BusyIssueRefused : Prop :=
  ∀ (s : State) w, s.refused = none → s.params.ok = true → s.port.request = some w →
    s.port.busy = true → step s = .next { s with refused := some .busyIssue }

/-- R112: exactly the words with OPC 0x9 to 0xF or a non-zero bit outside their operation's fields match no
row, and such a word on an idle port is refused with RESERVED_ENCODING. ANALOG with an index of 21 to 31
matches its row and, in a session, is refused with RB_INDEX. That a refusal writes only the mark is the
model's choice (log entry 6). -/
def Obligations.ReservedEncodingsRefused : Prop :=
  (∀ w : HostWord, decodeHost w = .error .reservedEncoding ↔
    (9 ≤ (w.extractLsb' 0 4).toNat ∨ w &&& ~~~ operationFields (w.extractLsb' 0 4) ≠ 0)) ∧
  (∀ (s : State) w, s.refused = none → s.params.ok = true → s.port.request = some w →
    s.port.busy = false → decodeHost w = .error .reservedEncoding →
    step s = .next { s with refused := some .reservedEncoding }) ∧
  (∀ (s : State) (k : BitVec 5), 21 ≤ k.toNat → s.params.rbLen = 21 →
    decodeHost (0#16 ++ (0#3 ++ k) ++ 0x07#8) = .ok (.analog k) ∧
    (s.admits true → exec (.analog k) s = .next { s with refused := some .rbIndex }))

/-- R276, R8: an instance whose parameters violate R8 is refused with BAD_PARAMETERS at its first step,
whatever that step would do. That it comes before every other reason (log entry 10), and that the refusal
writes only the mark (log entry 6), are the model's choices. -/
def Obligations.BadParametersRefused : Prop :=
  ∀ s : State, s.refused = none → s.params.ok = false →
    step s = .next { s with refused := some .badParameters } ∧
    ∀ i : Instr, exec i s = .next { s with refused := some .badParameters }

/-- R277: POLL and the decoder operations are refused while session_valid = 0, and INIT is admitted at any
time the port is idle. That a refusal writes only the mark is the model's choice (log entry 6). -/
def Obligations.NotInitialisedRefused : Prop :=
  ∀ s : State, s.admits false →
    (s.regs.sessionValid = false → ∀ i : Instr, i.needsSession = true →
      exec i s = .next { s with refused := some .notInitialised }) ∧
    (∀ p v, s.refused = none → ∃ t, exec (.init p v) s = .next t ∧ t.refused = none ∧ t.port.busy = true)

/-- The reason recorded for a host word, in the order of R281 (its first sentence): BUSY_ISSUE, then
RESERVED_ENCODING, then NOT_INITIALISED, then RB_INDEX, and none if the word is admitted. -/
def Obligations.AdmissionOrder : Prop :=
  ∀ (s : State) w, s.refused = none → s.params.ok = true → s.port.request = some w →
    ∃ t, step s = .next t ∧ t.refused =
      if s.port.busy = true then some .busyIssue
      else
        match decodeHost w with
        | .error _ => some .reservedEncoding
        | .ok i =>
          if i.needsSession = true ∧ s.regs.sessionValid = false then some .notInitialised
          else if ∃ k : BitVec 5, i = .analog k ∧ s.params.rbLen ≤ k.toNat then some .rbIndex
          else none

/-! ## The response decoder -/

/-- R242: bit 0 is `((~buttons) & M) != 0`. OPC is 0x2 and M is in bits 31:16. Without a session R241, R270
and R277 refuse it, and that only the mark is written then is the model's choice (log entry 6). -/
def Obligations.IsPressedReadsButtons : Prop :=
  ∀ m : ButtonWord, hostWord (.isPressed m) = m ++ 0x0002#16 ∧
    DecoderAnswers (.isPressed m) (fun s => if (~~~ s.regs.buttons) &&& m ≠ 0 then 1 else 0)

/-- R243: bit 0 is `((last_buttons ^ buttons) & M) != 0`. OPC is 0x5. That the refusal without a session
writes only the mark is the model's choice (log entry 6). -/
def Obligations.WasToggledComparesReads : Prop :=
  ∀ m : ButtonWord, hostWord (.wasToggled m) = m ++ 0x0005#16 ∧
    DecoderAnswers (.wasToggled m)
      (fun s => if (s.regs.lastButtons ^^^ s.regs.buttons) &&& m ≠ 0 then 1 else 0)

/-- R244: bit 0 is WAS_TOGGLED(M) and IS_PRESSED(M), the two for possibly different bits of M. OPC is
0x3. That the refusal without a session writes only the mark is the model's choice (log entry 6). -/
def Obligations.WasPressedNeedsToggleAndPress : Prop :=
  ∀ m : ButtonWord, hostWord (.wasPressed m) = m ++ 0x0003#16 ∧
    DecoderAnswers (.wasPressed m)
      (fun s => if (s.regs.lastButtons ^^^ s.regs.buttons) &&& m ≠ 0 ∧
        (~~~ s.regs.buttons) &&& m ≠ 0 then 1 else 0)

/-- R245: bit 0 is WAS_TOGGLED(M) and `((~last_buttons) & M) != 0`. OPC is 0x4. That the refusal without a
session writes only the mark is the model's choice (log entry 6). -/
def Obligations.WasReleasedNeedsToggleAndOldPress : Prop :=
  ∀ m : ButtonWord, hostWord (.wasReleased m) = m ++ 0x0004#16 ∧
    DecoderAnswers (.wasReleased m)
      (fun s => if (s.regs.lastButtons ^^^ s.regs.buttons) &&& m ≠ 0 ∧
        (~~~ s.regs.lastButtons) &&& m ≠ 0 then 1 else 0)

/-- R246: bit 0 is `(last_buttons ^ buttons) != 0`. OPC is 0x6 and every other bit is 0. That this is
WAS_TOGGLED with M = 0xFFFF is a clause the spec marks as derived from R243. That the refusal without a
session writes only the mark is the model's choice (log entry 6). -/
def Obligations.AnyToggledComparesReads : Prop :=
  hostWord .anyToggled = 0x00000006 ∧
  DecoderAnswers .anyToggled
    (fun s => if s.regs.lastButtons ^^^ s.regs.buttons ≠ 0 then 1 else 0) ∧
  ∀ s : State, s.anyToggled = s.wasToggled 0xFFFF

/-- R247, for a one-bit mask. The spec marks the rule as derived from R242 to R245. -/
def Obligations.OneBitMasks : Prop :=
  ∀ (s : State) (b : Fin 16),
    s.isPressed (1#16 <<< b.val) = !s.regs.buttons.getLsbD b.val ∧
    s.wasToggled (1#16 <<< b.val) =
      (s.regs.lastButtons.getLsbD b.val != s.regs.buttons.getLsbD b.val) ∧
    s.wasPressed (1#16 <<< b.val) =
      (s.regs.lastButtons.getLsbD b.val && !s.regs.buttons.getLsbD b.val) ∧
    s.wasReleased (1#16 <<< b.val) =
      (!s.regs.lastButtons.getLsbD b.val && s.regs.buttons.getLsbD b.val) ∧
    (s.wasPressed (1#16 <<< b.val) && s.wasReleased (1#16 <<< b.val)) = false ∧
    s.wasToggled (1#16 <<< b.val) =
      (s.wasPressed (1#16 <<< b.val) || s.wasReleased (1#16 <<< b.val))

/-- R248: every button query acts lane by lane and ORs the lanes that M selects, ANY_TOGGLED all 16. The spec
marks the rule as derived from R242 to R246. -/
def Obligations.ButtonLanesOr : Prop :=
  ∀ (s : State) (m : ButtonWord),
    s.isPressed m =
      (List.finRange 16).any (fun b => m.getLsbD b && !s.regs.buttons.getLsbD b) ∧
    s.wasToggled m =
      (List.finRange 16).any (fun b => m.getLsbD b &&
        (s.regs.lastButtons.getLsbD b != s.regs.buttons.getLsbD b)) ∧
    s.wasPressed m = (s.wasToggled m &&
      (List.finRange 16).any (fun b => m.getLsbD b && !s.regs.buttons.getLsbD b)) ∧
    s.wasReleased m = (s.wasToggled m &&
      (List.finRange 16).any (fun b => m.getLsbD b && !s.regs.lastButtons.getLsbD b)) ∧
    s.anyToggled =
      (List.finRange 16).any (fun b => s.regs.lastButtons.getLsbD b != s.regs.buttons.getLsbD b)

/-- R251: ANALOG gives RB[K] zero extended. An index that RB has not is refused with RB_INDEX (R279) once
the operation is otherwise admitted. OPC is 0x7 and K is in bits 12:8. That a refusal writes only the mark is
the model's choice (log entry 6). -/
def Obligations.AnalogReadsResponseBuffer : Prop :=
  ∀ (k : BitVec 5) (s : State),
    hostWord (.analog k) = 0#16 ++ (0#3 ++ k) ++ 0x07#8 ∧
    (s.admits true → k.toNat < s.params.rbLen →
      exec (.analog k) s = .next (s.answered (hostWord (.analog k)) (0#24 ++ s.rbRead k.toNat))) ∧
    (s.admits true → s.params.rbLen ≤ k.toNat →
      exec (.analog k) s = .next { s with refused := some .rbIndex }) ∧
    (s.admits false → s.regs.sessionValid = false →
      exec (.analog k) s = .next { s with refused := some .notInitialised })

/-- R252 with the default TYPE_MAP: the result from controller_type and the current mode byte. That the
refusal without a session writes only the mark is the model's choice (log entry 6). -/
def Obligations.ReadTypeResult : Prop :=
  hostWord .readType = 0x00000008 ∧
  ∀ s : State, s.params.typeMap = defaultTypeMap →
    (s.admits true → exec .readType s = .next (s.answered (hostWord .readType)
      (if s.regs.controllerType = 0x03 then 1
       else if s.regs.controllerType = 0x01 ∧ s.rbRead 1 ≠ 0x42 then 2
       else if s.regs.controllerType = 0x01 ∧ s.rbRead 1 = 0x42 then 4
       else if s.regs.controllerType = 0x0C then 3
       else 0))) ∧
    (s.admits false → s.regs.sessionValid = false →
      exec .readType s = .next { s with refused := some .notInitialised })

/-- R76: two decoder operations of the same kind with nothing between them give the same result. -/
def Obligations.QueriesAreIdempotent : Prop :=
  ∀ (i : Instr) (s t u : State), i.needsSession = true → (∀ a b, i ≠ .poll a b) → s.admits true →
    s.refused = none → exec i s = .next t → t.refused = none → exec i t = .next u →
    u.port.result = t.port.result ∧ u.regs = s.regs

/-! ## Wire frames -/

/-- R96: the default catalog's bytes, with the actuator bytes of the read command in place. -/
def Obligations.CatalogBytes : Prop :=
  encode defaultCatalog .enterConfig = .wire [0x01, 0x43, 0x00, 0x01, 0x00] ∧
  encode defaultCatalog .exitConfig =
    .wire [0x01, 0x43, 0x00, 0x00, 0x5A, 0x5A, 0x5A, 0x5A, 0x5A] ∧
  encode defaultCatalog .setMode =
    .wire [0x01, 0x44, 0x00, 0x01, 0x03, 0x00, 0x00, 0x00, 0x00] ∧
  encode defaultCatalog .enablePressure =
    .wire [0x01, 0x4F, 0x00, 0xFF, 0xFF, 0x03, 0x00, 0x00, 0x00] ∧
  encode defaultCatalog .enableVibration = .wire [0x01, 0x4D, 0x00, 0x00, 0x01] ∧
  encode defaultCatalog .queryType =
    .wire [0x01, 0x45, 0x00, 0x5A, 0x5A, 0x5A, 0x5A, 0x5A, 0x5A] ∧
  (∀ a b, encode defaultCatalog (.read a b) =
    .wire [0x01, 0x42, 0x00, a, b, 0x00, 0x00, 0x00, 0x00]) ∧
  (∀ a b, encode defaultCatalog (.readCont a b) =
    .wire ([0x01, 0x42, 0x00, a, b, 0x00, 0x00, 0x00, 0x00] ++ List.replicate 12 0x00))

/-- R137, R160, R162 to R165: a configuration command that does not wait, its sleeps ended by the time port,
runs its whole frame. One reply byte for each request byte is discarded, the release timestamp is recorded,
SLEEP_MS(read_delay) follows, and no other register is written. -/
def Obligations.CommandFramesRun : Prop :=
  ∀ (s : State) (i : Instr),
    i ∈ [Instr.enterConfig, .setMode, .enableVibration, .enablePressure, .exitConfig] →
    s.params.ok = true → s.ready → s.sleepsEnd → s.linesIdle →
    ∃ t, exec i s = .next t ∧ CommandFrame (frameBytes s.params.catalog i) s t

/-- R161: QUERY_TYPE that does not wait, its sleeps ended by the time port, runs its whole frame. The reply
byte at TYPE_INDEX is controller_type, the others are discarded, and no sleep follows. -/
def Obligations.TypeQueryStoresTypeCode : Prop :=
  ∀ s : State, s.params.ok = true → s.ready → s.sleepsEnd → s.linesIdle →
    ∃ t, exec .queryType s = .next t ∧ TypeQueryFrame (frameBytes s.params.catalog .queryType) s t

/-- R205: a read frame that does not wait, its sleeps ended by the time port. The continuation is exchanged
exactly if this frame's reply byte 1 is FULL_MODE, reply byte i is in RB[i], the other RB bytes keep their
values, and no sleep follows. That READ and READ+CONT both run this one frame is the model's reading (log
entry 8). -/
def Obligations.ReadFramesFillResponseBuffer : Prop :=
  ∀ (s : State) (i : Instr) (a b : Byte), i = .read a b ∨ i = .readCont a b →
    s.params.ok = true → s.ready → s.sleepsEnd → s.linesIdle → s.rbOk → 2 ≤ s.params.catalog.shortLen →
    ∃ t, exec i s = .next t ∧ ReadFrame a b s t

/-- The two waits of BEGIN_FRAME (R290's first two places). R306, R135: a frame whose quiet time has not passed
by this step's clock sample only waits. The sample is recorded, ATT is not asserted, no register changes, and
the frame is still to be sent. R82: in the HWSPI option a frame whose quiet time has passed and whose SPI bus
is not granted waits in SPI_BEGIN, attention still high. That one turn of the busy-wait is one step, and a
wait for the bus a step without an event, is the model's choice (log entry 12). -/
def Obligations.FrameWaitsForTheEnvironment : Prop :=
  (∀ (s : State) (i : Instr), i.isWire = true → s.params.ok = true → s.pos.acquiring = false →
    ((s.nowMs.1 : Int) - s.regs.lastRelease) % 2 ^ s.params.clockBits < s.params.tPacketMs →
    ∃ env, exec i s = .next { s with
      env := env, pos := { s.pos with frame := some i, framePos := .beginning },
      history := .clock s.nowMs.1 :: s.history }) ∧
  (∀ (s : State) (i : Instr), i.isWire = true → s.params.ok = true → s.params.transport = .hwspi →
    (quietTime s).1 = true → (quietTime s).2.spiGrant.1 = false →
    ∃ env, exec i s = .next { s with
      env := env, pos := { s.pos with frame := some i, framePos := .beginning, acquiring := true },
      history := quietEvents s ++ s.history })

/-- R290's third place, a sleep that the time port never ends. A frame that does not wait answers a state t, and
under a time port that ends every sleep a state u. If the block is awake at t, u is t but for that time port,
and the frame slept no more often than the time port ends sleeps. If not, the frame stopped at the first sleep
too many: FrameStopped, RB keeps its form, and the events so far are a part of u's. Asleep the block does
nothing, and it still refuses a host word with BUSY_ISSUE (BusyIssueRefused). The sleep after a failed attempt's
replay (R214) can be such a sleep too, and P2's is in PacingSleep. That a sleep is recorded where it begins, and
that a count in the state says which sleep never ends, are the model's choices (log entry 21). The first clause
compares two runs to which the environment gives the same answers (clock, bus grants, DAT levels, SPI bytes), the
laid-down ones and, by draw number, the free ones: that they are the same is the model's choice too (log entry 3),
and the spec promises it of no two runs. -/
def Obligations.UnendedSleepStopsTheBlock : Prop :=
  (∀ (s : State) (i : Instr), i.isWire = true → s.params.ok = true → s.ready → s.linesIdle →
    (s.pos.acquiring = true → s.params.transport = .hwspi) → s.pos.asleep = false →
    ∃ t u, exec i s = .next t ∧ exec i s.freed = .next u ∧
      (t.pos.asleep = false → u = t.freed ∧
        ∀ n, s.env.sleepsLeft = some n → sleepCount t.history ≤ sleepCount s.history + n) ∧
      (t.pos.asleep = true → FrameStopped i s t ∧ (s.rbOk → t.rbOk) ∧
        ∃ es, u.history = es ++ t.history)) ∧
  (∀ s : State, s.atSleep → step s = .next s) ∧
  (∀ (s u : State) (k : Nat) (i : Instr), s.atFrame i → exec i s = .next u → u.pos.frame = none →
    u.env.sleepsLeft = some 0 → u.pos.replayPos = some k → k + 1 = u.commands.length →
    u.cycle = some .p4 →
    step s = .next { u with
      pos := { u.pos with replayPos := none, asleep := true },
      history := .sleepMs u.regs.readDelay :: u.history })

/-- R130: one byte exchange in the GPIO option, from the line levels it is entered at (R131). The events
in order, the reply bits as sampled, the lines back at their levels, and no register written. Of the loop
temporaries shiftIn holds the reply, and what bitIdx holds is left open. The time
port ends the sleeps (a premise on the model's own fields, log entry 21). A sleep that it never ends is in
UnendedSleepStopsTheBlock. -/
def Obligations.GpioByteExchange : Prop :=
  ∀ (o : Byte) (s : State), s.params.transport = .gpio → s.sleepsEnd → s.bus.clk = true →
    s.bus.cmd = true →
    ∃ env r bi, xfer o s = (r, { s with
      env := env, pos := { s.pos with shiftIn := r, bitIdx := bi },
      history := ((List.range 8).flatMap (fun j =>
          [Event.pin .cmd (o.getLsbD j), .pin .clk false, .sleepUs s.params.tClkUs,
           .sample (r.getLsbD j), .pin .clk true, .sleepUs s.params.tClkUs]) ++
        [Event.pin .cmd true, .sleepUs s.params.tByteUs]).reverse ++ s.history })

/-- R132: one byte exchange in the HWSPI option, its sleep ended by the time port (a premise on the model's own
fields, log entry 21). A sleep that it never ends is in UnendedSleepStopsTheBlock. -/
def Obligations.HwspiByteExchange : Prop :=
  ∀ (o : Byte) (s : State), s.params.transport = .hwspi → s.sleepsEnd →
    ∃ env r, xfer o s = (r, { s with
      env := env, history := .sleepUs s.params.tByteUs :: .spiXfer o r :: s.history })

/-- R134: for the same answers of the peripheral, reply byte r bit by bit or whole, and a time port that ends
the sleeps, both options return r, and what goes over the wire folds to the same one byte exchange. -/
def Obligations.TransportsEquivalent : Prop :=
  ∀ (o r : Byte) (s t : State) bits bytes,
    s.params.transport = .gpio → s.sleepsEnd → s.bus.clk = true → s.bus.cmd = true →
    s.env.datIn = (List.range 8).map r.getLsbD ++ bits →
    t.params.transport = .hwspi → t.sleepsEnd → t.env.spiIn = r :: bytes →
    ∃ es fs : List Event,
      (xfer o s).1 = r ∧ (xfer o t).1 = r ∧
      (xfer o s).2.env.datIn = bits ∧ (xfer o t).2.env.spiIn = bytes ∧
      (xfer o s).2.history = es.reverse ++ s.history ∧
      (xfer o t).2.history = fs.reverse ++ t.history ∧
      es.foldl FoldState.next .idle = ⟨true, [], [], [o], [r]⟩ ∧
      fs.foldl FoldState.next .idle = ⟨true, [], [], [o], [r]⟩

/-- R13, R45: the events of one frame fold to one frame entry with the request and reply bytes, and the
release timestamp, in both options. -/
def Obligations.FrameEventsFold : Prop :=
  ∀ (p : Params) (pairs : List (Byte × Byte)) v,
    foldTrace .idle (frameEvents p pairs v) =
      [.frame (pairs.map Prod.fst) (pairs.map Prod.snd), .clock v] ∧
    (frameEvents p pairs v).foldl FoldState.next .idle = .idle

/-- R99, R102, R116: a step adds to the trace only whole frames of the catalog, one at most, and only the frame
that was to be sent (a READ with or without its continuation), with the actuator bytes that R102 allows and a
reply byte for every request byte. Unless the block is left in a sleep (R290), no frame is left half traced. -/
def Obligations.TraceGrowsByCatalogFrames : Prop :=
  ∀ s t : State, s.frameOk → (s.pos.asleep = false → s.linesIdle ∧ s.folded = .idle) → step s = .next t →
    (t.pos.asleep = false → t.folded = .idle) ∧ ∃ new, t.trace = s.trace ++ new ∧
      (∀ out reply, TraceItem.frame out reply ∈ new →
        reply.length = out.length ∧
        ∃ i j : Instr, s.pos.frame = some j ∧
          (i = j ∨ ∃ a b, (i = .read a b ∨ i = .readCont a b) ∧ (j = .read a b ∨ j = .readCont a b)) ∧
          i.isWire = true ∧ i.wf = true ∧ encode s.params.catalog i = .wire out) ∧
      (new.filter (fun x => match x with
        | .frame _ _ => true
        | _ => false)).length ≤ 1

/-- R313: the sleeps of a frame are T_ATT_US and, for each byte, 16 x T_CLK_US + T_BYTE_US (GPIO) or
T_BYTE_US (HWSPI). In the GPIO option that is R313's lower bound of the frame. In the HWSPI option the bound
has the transport's own 8 / SPI_BITRATE seconds for each byte on top. That these are rounded down to
microseconds, and 0 at SPI_BITRATE 0, is the model's (log entries 21 and 24). -/
def Obligations.FrameSleepDurations : Prop :=
  ∀ (p : Params) (pairs : List (Byte × Byte)) v,
    sleptMicros (frameEvents p pairs v) = p.tAttUs + pairs.length *
      (match p.transport with
       | .gpio => 16 * p.tClkUs + p.tByteUs
       | .hwspi => p.tByteUs) ∧
    (p.transport = .gpio → frameMicros p pairs.length = sleptMicros (frameEvents p pairs v)) ∧
    (p.transport = .hwspi → frameMicros p pairs.length =
      sleptMicros (frameEvents p pairs v) + pairs.length * (8 * 1000000 / p.spiBitrate))

/-! ## The read cycle -/

/-- R211: P1 takes one clock sample t0, computes elapsed = (t0 - last_read) mod 2^CLOCK_BITS, and starts a
replay exactly if elapsed > STALL_MS. Otherwise P2 follows. No register is written. -/
def Obligations.StallCheck : Prop :=
  ∀ s : State, s.atCycle .p1 →
    ∃ (env : Env) (t0 elapsed : Nat), t0 < 2 ^ s.params.clockBits ∧
      (elapsed : Int) = ((t0 : Int) - s.regs.lastRead) % 2 ^ s.params.clockBits ∧
      step s = .next { s with
        env := env, history := .clock t0 :: s.history,
        pos := { (if s.params.stallMs < elapsed then s.startList else s.goCycle .p2).pos with
                 elapsed := elapsed } }

/-- R212: P2 sleeps read_delay - elapsed, on P1's elapsed time, exactly if that is below read_delay, and P3
follows. If the time port never ends that sleep, the block is asleep at P2 (R290). How the state says so is
the model's choice (log entry 21). -/
def Obligations.PacingSleep : Prop :=
  ∀ s : State, s.atCycle .p2 →
    (s.regs.readDelay ≤ s.pos.elapsed → step s = .next { s with pos := (s.goCycle .p3).pos }) ∧
    (s.pos.elapsed < s.regs.readDelay → s.env.sleepsLeft ≠ some 0 →
      step s = .next { s with
        pos := (s.goCycle .p3).pos,
        env := { s.env with sleepsLeft := s.env.sleepsLeft.map (· - 1) },
        history := .sleepMs (s.regs.readDelay - s.pos.elapsed) :: s.history }) ∧
    (s.pos.elapsed < s.regs.readDelay → s.env.sleepsLeft = some 0 →
      step s = .next { s with
        pos := { s.pos with asleep := true },
        history := .sleepMs (s.regs.readDelay - s.pos.elapsed) :: s.history })

/-- R213, P3 and P4: the actuator byte is scaled once, the first attempt follows, and each attempt loads
the read frame with A' = zext_8(A) and that one scaled byte. POLL's operands are those of its word, and
INIT's read cycles use 0 and 0 (R102). -/
def Obligations.AttemptsUseOneScaledByte : Prop :=
  (∀ (s : State) a b, s.atCycle .p3 → s.pos.opPos = .poll .p3 → s.port.op = hostWord (.poll a b) →
    1 ≤ s.params.readAttempts →
    step s = .next { s with pos := { s.pos with opPos := .poll .p4, scaledB := scale b, retry := 1 } }) ∧
  (∀ (s : State) l, s.atCycle .p3 → s.pos.opPos = .init l → 1 ≤ s.params.readAttempts →
    step s = .next { s with pos := { s.pos with cyclePos := some .p4, scaledB := 0x00, retry := 1 } }) ∧
  (∀ (s : State) a b, s.atCycle .p4 → s.pos.opPos = .poll .p4 → s.port.op = hostWord (.poll a b) →
    step s = .next { s with pos := { s.pos with
      frame := some (.read (if a then 0x01 else 0x00) s.pos.scaledB) } }) ∧
  (∀ (s : State) l, s.atCycle .p4 → s.pos.opPos = .init l →
    step s = .next { s with pos := { s.pos with frame := some (.read 0x00 s.pos.scaledB) } })

/-- R213, R214: after an attempt's read frame, its sleeps ended by the time port, the attempts stop exactly if
RB[1][7:4] is ANALOG_NIBBLE. Otherwise a replay begins, after the last attempt too. -/
def Obligations.AttemptOutcome : Prop :=
  ∀ (s : State) (a b : Byte), s.atFrame (.read a b) → s.ready → s.sleepsEnd → s.linesIdle →
    s.cycle = some .p4 → s.pos.replayPos = none →
    ∃ u, exec (.read a b) s = .next u ∧
      step s = .next (if highNibble (u.rbRead 1) = u.params.analogNibble
        then u.goCycle .p5
        else { u with pos := { u.pos with replayPos := some 0 } })

/-- R190 and R223: the commands of a replay, from the stored flags, and those of a configuration attempt,
from INIT's operands. -/
def Obligations.CommandLists : Prop :=
  (∀ s : State, s.cycle ≠ none → s.commands =
    [Instr.enterConfig, .setMode] ++ (if s.regs.enVibration then [.enableVibration] else []) ++
      (if s.regs.enPressures then [.enablePressure] else []) ++ [.exitConfig]) ∧
  (∀ (s : State) p v, s.cycle = none → s.port.op = hostWord (.init p v) → s.commands =
    [Instr.enterConfig, .queryType, .setMode] ++ (if v then [.enableVibration] else []) ++
      (if p then [.enablePressure] else []) ++ [.exitConfig]) ∧
  (∀ s : State, 3 ≤ s.commands.length ∧ s.commands.length ≤ 6 ∧
    (s.cycle ≠ none → s.commands.length ≤ 5) ∧ ∀ i ∈ s.commands, i.isWire = true)

/-- R190, R211, R214, R223: the commands of a list are loaded and run one by one in order. After the last
frame of a replay P2 follows at P1, and at P4 SLEEP_MS(read_delay) and the next attempt, or P5 after
READ_ATTEMPTS. After the last frame of a configuration attempt its read cycle begins. The time port ends the
sleeps here (UnendedSleepStopsTheBlock says what happens where it does not). -/
def Obligations.CommandListsRunInOrder : Prop :=
  (∀ (s : State) k i, s.atControl → s.pos.replayPos = some k → s.commands[k]? = some i →
    step s = .next { s with pos := { s.pos with frame := some i } }) ∧
  (∀ (s : State) k i, s.atFrame i → s.ready → s.sleepsEnd → s.linesIdle → s.pos.replayPos = some k →
    s.commands[k]? = some i → ∃ u, exec i s = .next u ∧ u.pos.frame = none ∧
      (k + 1 < s.commands.length →
        step s = .next { u with pos := { u.pos with replayPos := some (k + 1) } }) ∧
      (k + 1 = s.commands.length → s.cycle = some .p1 →
        step s = .next { u with pos := { (u.goCycle .p2).pos with replayPos := none } }) ∧
      (k + 1 = s.commands.length → s.cycle = some .p4 → s.pos.retry < s.params.readAttempts →
        step s = .next { u with
          pos := { u.pos with replayPos := none, retry := s.pos.retry + 1 },
          history := .sleepMs s.regs.readDelay :: u.history }) ∧
      (k + 1 = s.commands.length → s.cycle = some .p4 → s.params.readAttempts ≤ s.pos.retry →
        step s = .next { u with
          pos := { (u.goCycle .p5).pos with replayPos := none },
          history := .sleepMs s.regs.readDelay :: u.history }) ∧
      (k + 1 = s.commands.length → s.cycle = none →
        step s = .next { u with pos := { u.pos with replayPos := none, cyclePos := some .p1 } }))

/-- R215's first sentence: P5 grows read_delay by one, capped at DELAY_CAP, exactly if the mode byte is not
analog. -/
def Obligations.DelayGrowth : Prop :=
  ∀ s : State, s.atCycle .p5 →
    step s = .next { s with
      pos := (s.goCycle .p6).pos,
      regs := { s.regs with
        readDelay := if highNibble (s.rbRead 1) = s.params.analogNibble then s.regs.readDelay
          else min (s.regs.readDelay + 1) s.params.delayCap } }

/-- R216: P6, in every read cycle, rolls the button words in one step and records last_read from a new
clock sample. -/
def Obligations.ButtonRoll : Prop :=
  ∀ s : State, s.atCycle .p6 →
    ∃ env v, v < 2 ^ s.params.clockBits ∧ step s = .next { s with
      env := env, history := .clock v :: s.history, pos := (s.goCycle .p7).pos,
      regs := { s.regs with lastButtons := s.regs.buttons, buttons := s.rbRead 4 ++ s.rbRead 3,
                            lastRead := v } }

/-- R217, R270: at P7 of a POLL the operation completes in one step. The result's bit 0 is 1 exactly if
the mode byte is analog, and busy is 0. -/
def Obligations.PollReturnsAnalog : Prop :=
  ∀ s : State, s.atCycle .p7 → s.pos.opPos = .poll .p7 →
    ∃ r : HostWord, (r = if highNibble (s.rbRead 1) = s.params.analogNibble then 1 else 0) ∧
      step s = .next { s with
        port := { s.port with busy := false, result := r },
        pos := { s.pos with opPos := .idle }, history := .hostDone r :: s.history }

/-- R218: an admitted POLL is issued, its word in `op`, and its read cycle begins at P1. Without a session
it is refused, and that only the mark is written then is the model's choice (log entry 6). No register of the
session changes. -/
def Obligations.PollIssue : Prop :=
  ∀ (s : State) a b, hostWord (.poll a b) = 0#16 ++ b ++ (0#3 ++ BitVec.ofBool a ++ 0x1#4) ∧
    (s.admits true → exec (.poll a b) s = .next { s with
      port := { s.port with busy := true, op := hostWord (.poll a b) },
      pos := { s.pos with opPos := .poll .p1, cyclePos := none, replayPos := none, frame := none,
                          framePos := .noFrame, acquiring := false },
      history := .hostIssue (hostWord (.poll a b)) :: s.history }) ∧
    (s.admits false → s.regs.sessionValid = false →
      exec (.poll a b) s = .next { s with refused := some .notInitialised })

/-! ## INIT -/

/-- R221, R304: an admitted INIT, a second one too, is issued at I1 with its word in `op`. It sets
read_delay to DELAY_INIT and no other register. -/
def Obligations.InitIssue : Prop :=
  ∀ (s : State) p v,
    hostWord (.init p v) = 0#26 ++ BitVec.ofBool v ++ BitVec.ofBool p ++ 0x0#4 ∧
    (s.admits false → exec (.init p v) s = .next { s with
      regs := { s.regs with readDelay := s.params.delayInit },
      port := { s.port with busy := true, op := hostWord (.init p v) },
      pos := { s.pos with opPos := .init .i1, probe := 0, attempt := 0, cyclePos := none,
                          replayPos := none, frame := none, framePos := .noFrame,
                          acquiring := false },
      history := .hostIssue (hostWord (.init p v)) :: s.history })

/-- R221: I1 runs PROBE_READS whole read cycles and ignores their results, then I2 follows. -/
def Obligations.ProbeReads : Prop :=
  (∀ s : State, s.atInit .i1 → step s = .next { s with
    pos := if s.pos.probe < s.params.probeReads then { s.pos with cyclePos := some .p1 }
      else { s.pos with opPos := .init .i2 } }) ∧
  (∀ s : State, s.atCycle .p7 → s.pos.opPos = .init .i1 → step s = .next { s with
    pos := if s.pos.probe + 1 < s.params.probeReads
      then { s.pos with probe := s.pos.probe + 1, cyclePos := some .p1 }
      else { s.pos with probe := s.pos.probe + 1, cyclePos := none, opPos := .init .i2 } })

/-- R222: at I2 a mode byte outside VALID_MODES ends INIT with NotFound and no attempt. Otherwise the first
attempt follows. No register is written. -/
def Obligations.PresenceCheck : Prop :=
  ∀ s : State, s.atInit .i2 → 1 ≤ s.params.configAttempts →
    step s = .next { s with
      pos := if s.rbRead 1 ∈ s.params.validModes then { s.pos with opPos := .init .i3, attempt := 1 }
        else { s.pos with opPos := .init .i5, status := .notFound } }

/-- R223: at I3 an attempt writes the flags from INIT's operands and begins its command list. After the
attempt's read cycle, its result ignored, I4 follows. -/
def Obligations.AttemptStart : Prop :=
  (∀ (s : State) p v, s.atInit .i3 → s.port.op = hostWord (.init p v) →
    step s = .next { s with
      regs := { s.regs with enVibration := v, enPressures := p },
      pos := { s.pos with replayPos := some 0 } }) ∧
  (∀ s : State, s.atCycle .p7 → s.pos.opPos = .init .i3 →
    step s = .next { s with pos := { s.pos with opPos := .init .i4, cyclePos := none } })

/-- R224, R225: the tests of I4 in their order, on the whole mode byte. A test that succeeds ends INIT and
read_delay is not grown. -/
def Obligations.AttemptResult : Prop :=
  ∀ (s : State) p v, s.atInit .i4 → s.port.op = hostWord (.init p v) →
    (p = true → s.rbRead 1 = s.params.fullMode →
      step s = .next { s with pos := { s.pos with opPos := .init .i5, status := .ok } }) ∧
    (p = true → s.rbRead 1 ≠ s.params.fullMode → s.rbRead 1 = s.params.pressureReject →
      step s = .next { s with pos := { s.pos with opPos := .init .i5, status := .pressureRejected } }) ∧
    (p = false → s.rbRead 1 = s.params.basicAnalog →
      step s = .next { s with pos := { s.pos with opPos := .init .i5, status := .ok } })

/-- R226: a failed attempt grows read_delay by one, capped, and the next attempt follows. The last one ends
INIT with ConfigRejected, its increment made too. -/
def Obligations.FailedAttemptGrowsDelay : Prop :=
  ∀ (s : State) p v, s.atInit .i4 → s.port.op = hostWord (.init p v) →
    (p = true → s.rbRead 1 ≠ s.params.fullMode ∧ s.rbRead 1 ≠ s.params.pressureReject) →
    (p = false → s.rbRead 1 ≠ s.params.basicAnalog) →
    step s = .next { s with
      regs := { s.regs with readDelay := min (s.regs.readDelay + 1) s.params.delayCap },
      pos := if s.pos.attempt < s.params.configAttempts
        then { s.pos with opPos := .init .i3, attempt := s.pos.attempt + 1 }
        else { s.pos with opPos := .init .i5, status := .configRejected } }

/-- R227, R270, R271: at I5 the session is valid whatever the status, and INIT completes with the status
code as its result. -/
def Obligations.InitReturnsStatus : Prop :=
  ∀ s : State, s.atInit .i5 →
    ∃ r : HostWord, (r = match s.pos.status with
        | .ok => 0
        | .notFound => 1
        | .configRejected => 2
        | .pressureRejected => 3) ∧
      step s = .next { s with
        regs := { s.regs with sessionValid := true },
        port := { s.port with busy := false, result := r },
        pos := { s.pos with opPos := .idle }, history := .hostDone r :: s.history }

/-! ## Whole operations -/

/-- R219: where no frame waits (GPIO, T_PACKET_MS = 0) and the time port ends the sleeps, an admitted POLL
runs to completion from every state of the invariant. It returns whether the mode byte is analog, rolls the
button words once, sends at least one frame and at most 5 + 6 x READ_ATTEMPTS, and leaves the flags, the type
code and the session as they were (R218). -/
def Obligations.PollCompletes : Prop :=
  ∀ (s : State) a b, s.Inv → s.admits true → s.refused = none → s.port.request = none →
    s.neverWaits → s.sleepsEnd → 1 ≤ s.params.readAttempts →
    ∃ t n u, exec (.poll a b) s = .next t ∧ core.run n t = .next u ∧
      u.port.busy = false ∧ u.pos.opPos = .idle ∧ u.refused = none ∧
      u.port.op = hostWord (.poll a b) ∧
      (u.port.result = if highNibble (u.rbRead 1) = u.params.analogNibble then 1 else 0) ∧
      u.regs.lastButtons = s.regs.buttons ∧ u.regs.buttons = u.rbRead 4 ++ u.rbRead 3 ∧
      u.regs.enVibration = s.regs.enVibration ∧ u.regs.enPressures = s.regs.enPressures ∧
      u.regs.controllerType = s.regs.controllerType ∧ u.regs.sessionValid = s.regs.sessionValid ∧
      u.params = s.params ∧ u.bus = s.bus ∧
      frameCount s.history + 1 ≤ frameCount u.history ∧
      frameCount u.history ≤ frameCount s.history + 5 + 6 * s.params.readAttempts

/-- R228, R271: where no frame waits and the time port ends the sleeps, an admitted INIT runs to completion
from every state of the invariant. The session is valid, the result is a status code that the final mode byte
bears out (for ConfigRejected: none of the tests of R224 and R225 holds of it), with the registers that R271
says it leaves, and the frames are at most PROBE_READS x (5 + 6 x READ_ATTEMPTS) + CONFIG_ATTEMPTS x (6 + 5 +
6 x READ_ATTEMPTS). After ConfigRejected read_delay is DELAY_CAP if the attempts suffice to reach it (R226).
-/
def Obligations.InitCompletes : Prop :=
  ∀ (s : State) p v, s.Inv → s.admits false → s.refused = none → s.port.request = none →
    s.neverWaits → s.sleepsEnd → 1 ≤ s.params.configAttempts →
    ∃ t n u, exec (.init p v) s = .next t ∧ core.run n t = .next u ∧
      u.port.busy = false ∧ u.pos.opPos = .idle ∧ u.refused = none ∧
      u.port.op = hostWord (.init p v) ∧ u.regs.sessionValid = true ∧
      u.params = s.params ∧ u.bus = s.bus ∧
      (u.port.result ≠ 1 → u.regs.enVibration = v ∧ u.regs.enPressures = p) ∧
      ((u.port.result = 0 ∧ u.rbRead 1 = if p then u.params.fullMode else u.params.basicAnalog) ∨
       (u.port.result = 1 ∧ u.rbRead 1 ∉ u.params.validModes ∧
        u.regs.enVibration = s.regs.enVibration ∧ u.regs.enPressures = s.regs.enPressures ∧
        u.regs.controllerType = s.regs.controllerType) ∨
       (u.port.result = 2 ∧
        (p = true → u.rbRead 1 ≠ u.params.fullMode ∧ u.rbRead 1 ≠ u.params.pressureReject) ∧
        (p = false → u.rbRead 1 ≠ u.params.basicAnalog) ∧
        (s.params.delayCap ≤ s.params.delayInit + s.params.configAttempts →
        u.regs.readDelay = s.params.delayCap)) ∨
       (u.port.result = 3 ∧ p = true ∧ u.rbRead 1 = u.params.pressureReject)) ∧
      frameCount u.history ≤ frameCount s.history +
        s.params.probeReads * (5 + 6 * s.params.readAttempts) +
        s.params.configAttempts * (11 + 6 * s.params.readAttempts)

/-! ## Whole-machine rules -/

/-- R36 to R44: each register changes only in the step the spec names as its writer, and to the value it
names. -/
def Obligations.RegistersWrittenOnlyByTheirOwners : Prop :=
  ∀ s t : State, s.frameOk → (s.pos.asleep = false → s.linesIdle) → step s = .next t →
    (t.regs.rb ≠ s.regs.rb →
      ∃ a b, s.pos.frame = some (.read a b) ∨ s.pos.frame = some (.readCont a b)) ∧
    (t.regs.buttons ≠ s.regs.buttons ∨ t.regs.lastButtons ≠ s.regs.lastButtons →
      s.cycle = some .p6 ∧ t.regs.lastButtons = s.regs.buttons ∧
        t.regs.buttons = s.rbRead 4 ++ s.rbRead 3) ∧
    (t.regs.enVibration ≠ s.regs.enVibration ∨ t.regs.enPressures ≠ s.regs.enPressures →
      s.pos.opPos = .init .i3 ∧ s.pos.cyclePos = none ∧
        t.regs.enVibration = s.opV ∧ t.regs.enPressures = s.opP) ∧
    (t.regs.controllerType ≠ s.regs.controllerType → s.pos.frame = some .queryType) ∧
    (t.regs.readDelay ≠ s.regs.readDelay →
      (t.regs.readDelay = s.params.delayInit ∧ s.port.busy = false ∧ t.pos.opPos = .init .i1) ∨
      (t.regs.readDelay = min (s.regs.readDelay + 1) s.params.delayCap ∧
        (s.cycle = some .p5 ∨ s.pos.opPos = .init .i4))) ∧
    (t.regs.lastRead ≠ s.regs.lastRead → s.cycle = some .p6) ∧
    (t.regs.lastRelease ≠ s.regs.lastRelease → s.pos.frame.isSome = true) ∧
    (t.regs.sessionValid ≠ s.regs.sessionValid →
      s.pos.opPos = .init .i5 ∧ t.regs.sessionValid = true)

/-- R31, R45, R80: no step writes a parameter, and the history is only extended. -/
def Obligations.HistoryOnlyGrows : Prop :=
  ∀ s t : State, step s = .next t → t.params = s.params ∧ ∃ new, t.history = new ++ s.history

/-- R34: the unbounded count of the clock never goes back over a step, a sample is that count modulo
2^CLOCK_BITS, and differences are taken modulo 2^CLOCK_BITS. That the state carries the unbounded count is
the model's choice (log entry 3). -/
def Obligations.ClockLaw : Prop :=
  (∀ s t : State, step s = .next t → s.env.clockCount ≤ t.env.clockCount) ∧
  (∀ s : State, s.nowMs.1 = s.nowMs.2.env.clockCount % 2 ^ s.params.clockBits ∧
    s.env.clockCount ≤ s.nowMs.2.env.clockCount ∧
    s.nowMs.2.history = .clock s.nowMs.1 :: s.history) ∧
  (∀ (p : Params) a b, (elapsedSince p a b : Int) = ((a : Int) - b) % 2 ^ p.clockBits)

/-- R200, R201: SCALE's values, that 1 to 255 map into 64 to 255 without overflow, that it is
non-decreasing and never lowers an intensity. The spec marks R201 as derived from R200. -/
def Obligations.ScaleProperties : Prop :=
  scale 0 = 0 ∧
  (∀ b : Byte, b ≠ 0 → (scale b).toNat = b.toNat * 191 / 255 + 64) ∧
  (∀ b : Byte, b ≠ 0 → 64 ≤ (scale b).toNat) ∧
  (∀ b c : Byte, b.toNat ≤ c.toNat → (scale b).toNat ≤ (scale c).toNat) ∧
  (∀ b : Byte, b.toNat ≤ (scale b).toNat)

/-! ## Encodings -/

/-- Decoding the encoding of any instruction, a host word (R110) or the default catalog's frame (R96),
gives the instruction back, with every operand at every value of its field. -/
def Obligations.DecodeEncodeRoundTrip : Prop :=
  ∀ i : Instr, decode defaultCatalog (encode defaultCatalog i) = .ok i

/-- Each code has one meaning: a code that decodes is the encoding of what it decodes to, in both spaces
(R99, R111). -/
def Obligations.EncodeDecodeRoundTrip : Prop :=
  ∀ (c : Code) (i : Instr), decode defaultCatalog c = .ok i → encode defaultCatalog i = c

/-- R111: the matches and masks of the table, the row that a word selects decides what it decodes to, and
no word selects two rows. -/
def Obligations.HostRowsDisjoint : Prop :=
  hostRows.map (fun r => (r.pattern, r.mask)) =
    [(0x00000000, 0xFFFFFFCF), (0x00000001, 0xFFFF00EF), (0x00000002, 0x0000FFFF),
     (0x00000003, 0x0000FFFF), (0x00000004, 0x0000FFFF), (0x00000005, 0x0000FFFF),
     (0x00000006, 0xFFFFFFFF), (0x00000007, 0xFFFFE0FF), (0x00000008, 0xFFFFFFFF)] ∧
  (∀ r ∈ hostRows, ∀ w : HostWord, w &&& r.mask = r.pattern → decodeHost w = .ok (r.build w)) ∧
  hostRows.Pairwise (fun r q => ∀ w : HostWord, ¬ (w &&& r.mask = r.pattern ∧ w &&& q.mask = q.pattern))

/-- Some words and lines of the spec's own examples decode and assemble to what they stand for (R96, R110,
R114, R115). -/
def Obligations.SpecWordsDecode : Prop :=
  decodeHost 0x00000030 = .ok (.init true true) ∧
  decodeHost 0x00008011 = .ok (.poll true 0x80) ∧
  decodeHost 0x00030002 = .ok (.isPressed 0x0003) ∧
  decodeHost 0x00000707 = .ok (.analog 7) ∧
  decodeHost 0x00000009 = .error .reservedEncoding ∧
  decodeWire defaultCatalog [0x01, 0x43, 0x00, 0x01, 0x00] = .ok .enterConfig ∧
  decodeWire defaultCatalog [0x01, 0x42, 0x00, 0x01, 0x9F, 0x00, 0x00, 0x00, 0x00] =
    .ok (.read 0x01 0x9F) ∧
  assemble defaultParams ["INIT P=0, V=1", "POLL A=1, B=0x80", "WAS_PRESSED M=SELECT", "ANALOG K=LX"] =
    some [0x00000020, 0x00008011, 0x00010003, 0x00000707] ∧
  assemble defaultParams ["INIT", "POLL", "IS_PRESSED SELECT", "ANALOG LX"] =
    some [0x00000000, 0x00000001, 0x00010002, 0x00000707]

end
end

