-- ==== Sys2Proof/Laws/State.lean ====
section
/-! SUPPORT. For every named update of the state, what each field of the result is: the lemmas that keep
later proofs from unfolding a record update. A draw from the environment changes the environment and
the history alone. -/

namespace Sys2Proof.Machine

@[simp] theorem State.emit_params (e : Event) (s : State) : (s.emit e).params = s.params := rfl
@[simp] theorem State.emit_regs (e : Event) (s : State) : (s.emit e).regs = s.regs := rfl
@[simp] theorem State.emit_port (e : Event) (s : State) : (s.emit e).port = s.port := rfl
@[simp] theorem State.emit_pos (e : Event) (s : State) : (s.emit e).pos = s.pos := rfl
@[simp] theorem State.emit_bus (e : Event) (s : State) : (s.emit e).bus = s.bus := rfl
@[simp] theorem State.emit_refused (e : Event) (s : State) : (s.emit e).refused = s.refused := rfl
@[simp] theorem State.emit_history (e : Event) (s : State) : (s.emit e).history = e :: s.history := rfl
@[simp] theorem State.emit_env (e : Event) (s : State) : (s.emit e).env = s.env := rfl

@[simp] theorem State.pin_params (l : Line) (b : Bool) (s : State) : (s.pin l b).params = s.params := rfl
@[simp] theorem State.pin_regs (l : Line) (b : Bool) (s : State) : (s.pin l b).regs = s.regs := rfl
@[simp] theorem State.pin_port (l : Line) (b : Bool) (s : State) : (s.pin l b).port = s.port := rfl
@[simp] theorem State.pin_pos (l : Line) (b : Bool) (s : State) : (s.pin l b).pos = s.pos := rfl
@[simp] theorem State.pin_bus (l : Line) (b : Bool) (s : State) : (s.pin l b).bus = s.bus.drive l b := rfl
@[simp] theorem State.pin_refused (l : Line) (b : Bool) (s : State) : (s.pin l b).refused = s.refused := rfl
@[simp] theorem State.pin_history (l : Line) (b : Bool) (s : State) : (s.pin l b).history = .pin l b :: s.history := rfl
@[simp] theorem State.pin_env (l : Line) (b : Bool) (s : State) : (s.pin l b).env = s.env := rfl

@[simp] theorem State.sleepUs_params (n : Nat) (s : State) : (s.sleepUs n).params = s.params := rfl
@[simp] theorem State.sleepUs_regs (n : Nat) (s : State) : (s.sleepUs n).regs = s.regs := rfl
@[simp] theorem State.sleepUs_port (n : Nat) (s : State) : (s.sleepUs n).port = s.port := rfl
@[simp] theorem State.sleepUs_pos (n : Nat) (s : State) :
    (s.sleepUs n).pos = { s.pos with asleep := s.env.sleepsLeft == some 0 } := rfl
@[simp] theorem State.sleepUs_bus (n : Nat) (s : State) : (s.sleepUs n).bus = s.bus := rfl
@[simp] theorem State.sleepUs_refused (n : Nat) (s : State) : (s.sleepUs n).refused = s.refused := rfl
@[simp] theorem State.sleepUs_history (n : Nat) (s : State) : (s.sleepUs n).history = .sleepUs n :: s.history := rfl
@[simp] theorem State.sleepUs_env (n : Nat) (s : State) :
    (s.sleepUs n).env = { s.env with sleepsLeft := s.env.sleepsLeft.map (· - 1) } := rfl

@[simp] theorem State.sleepMs_params (n : Nat) (s : State) : (s.sleepMs n).params = s.params := rfl
@[simp] theorem State.sleepMs_regs (n : Nat) (s : State) : (s.sleepMs n).regs = s.regs := rfl
@[simp] theorem State.sleepMs_port (n : Nat) (s : State) : (s.sleepMs n).port = s.port := rfl
@[simp] theorem State.sleepMs_pos (n : Nat) (s : State) :
    (s.sleepMs n).pos = { s.pos with asleep := s.env.sleepsLeft == some 0 } := rfl
@[simp] theorem State.sleepMs_bus (n : Nat) (s : State) : (s.sleepMs n).bus = s.bus := rfl
@[simp] theorem State.sleepMs_refused (n : Nat) (s : State) : (s.sleepMs n).refused = s.refused := rfl
@[simp] theorem State.sleepMs_history (n : Nat) (s : State) : (s.sleepMs n).history = .sleepMs n :: s.history := rfl
@[simp] theorem State.sleepMs_env (n : Nat) (s : State) :
    (s.sleepMs n).env = { s.env with sleepsLeft := s.env.sleepsLeft.map (· - 1) } := rfl

@[simp] theorem State.rbWrite_params (i : Nat) (v : Byte) (s : State) : (s.rbWrite i v).params = s.params := rfl
@[simp] theorem State.rbWrite_regs (i : Nat) (v : Byte) (s : State) : (s.rbWrite i v).regs = { s.regs with rb := s.regs.rb.write i v } := rfl
@[simp] theorem State.rbWrite_port (i : Nat) (v : Byte) (s : State) : (s.rbWrite i v).port = s.port := rfl
@[simp] theorem State.rbWrite_pos (i : Nat) (v : Byte) (s : State) : (s.rbWrite i v).pos = s.pos := rfl
@[simp] theorem State.rbWrite_bus (i : Nat) (v : Byte) (s : State) : (s.rbWrite i v).bus = s.bus := rfl
@[simp] theorem State.rbWrite_refused (i : Nat) (v : Byte) (s : State) : (s.rbWrite i v).refused = s.refused := rfl
@[simp] theorem State.rbWrite_history (i : Nat) (v : Byte) (s : State) : (s.rbWrite i v).history = s.history := rfl
@[simp] theorem State.rbWrite_env (i : Nat) (v : Byte) (s : State) : (s.rbWrite i v).env = s.env := rfl

@[simp] theorem State.refuse_params (r : RefusalReason) (s : State) : (s.refuse r).params = s.params := rfl
@[simp] theorem State.refuse_regs (r : RefusalReason) (s : State) : (s.refuse r).regs = s.regs := rfl
@[simp] theorem State.refuse_port (r : RefusalReason) (s : State) : (s.refuse r).port = s.port := rfl
@[simp] theorem State.refuse_pos (r : RefusalReason) (s : State) : (s.refuse r).pos = s.pos := rfl
@[simp] theorem State.refuse_bus (r : RefusalReason) (s : State) : (s.refuse r).bus = s.bus := rfl
@[simp] theorem State.refuse_refused (r : RefusalReason) (s : State) : (s.refuse r).refused = some r := rfl
@[simp] theorem State.refuse_history (r : RefusalReason) (s : State) : (s.refuse r).history = s.history := rfl
@[simp] theorem State.refuse_env (r : RefusalReason) (s : State) : (s.refuse r).env = s.env := rfl

@[simp] theorem State.issue_params (w : HostWord) (o : OpPos) (s : State) : (s.issue w o).params = s.params := rfl
@[simp] theorem State.issue_regs (w : HostWord) (o : OpPos) (s : State) : (s.issue w o).regs = s.regs := rfl
@[simp] theorem State.issue_port (w : HostWord) (o : OpPos) (s : State) : (s.issue w o).port = { s.port with busy := true, op := w } := rfl
@[simp] theorem State.issue_pos (w : HostWord) (o : OpPos) (s : State) : (s.issue w o).pos = { s.pos with opPos := o } := rfl
@[simp] theorem State.issue_bus (w : HostWord) (o : OpPos) (s : State) : (s.issue w o).bus = s.bus := rfl
@[simp] theorem State.issue_refused (w : HostWord) (o : OpPos) (s : State) : (s.issue w o).refused = s.refused := rfl
@[simp] theorem State.issue_history (w : HostWord) (o : OpPos) (s : State) : (s.issue w o).history = .hostIssue w :: s.history := rfl
@[simp] theorem State.issue_env (w : HostWord) (o : OpPos) (s : State) : (s.issue w o).env = s.env := rfl

@[simp] theorem State.complete_params (r : HostWord) (s : State) : (s.complete r).params = s.params := rfl
@[simp] theorem State.complete_regs (r : HostWord) (s : State) : (s.complete r).regs = s.regs := rfl
@[simp] theorem State.complete_port (r : HostWord) (s : State) : (s.complete r).port = { s.port with busy := false, result := r } := rfl
@[simp] theorem State.complete_pos (r : HostWord) (s : State) : (s.complete r).pos = { s.pos with opPos := .idle } := rfl
@[simp] theorem State.complete_bus (r : HostWord) (s : State) : (s.complete r).bus = s.bus := rfl
@[simp] theorem State.complete_refused (r : HostWord) (s : State) : (s.complete r).refused = s.refused := rfl
@[simp] theorem State.complete_history (r : HostWord) (s : State) : (s.complete r).history = .hostDone r :: s.history := rfl
@[simp] theorem State.complete_env (r : HostWord) (s : State) : (s.complete r).env = s.env := rfl

@[simp] theorem State.holdFrame_params (i : Instr) (s : State) : (s.holdFrame i).params = s.params := rfl
@[simp] theorem State.holdFrame_regs (i : Instr) (s : State) : (s.holdFrame i).regs = s.regs := rfl
@[simp] theorem State.holdFrame_port (i : Instr) (s : State) : (s.holdFrame i).port = s.port := rfl
@[simp] theorem State.holdFrame_pos (i : Instr) (s : State) : (s.holdFrame i).pos = { s.pos with frame := some i, framePos := .beginning } := rfl
@[simp] theorem State.holdFrame_bus (i : Instr) (s : State) : (s.holdFrame i).bus = s.bus := rfl
@[simp] theorem State.holdFrame_refused (i : Instr) (s : State) : (s.holdFrame i).refused = s.refused := rfl
@[simp] theorem State.holdFrame_history (i : Instr) (s : State) : (s.holdFrame i).history = s.history := rfl
@[simp] theorem State.holdFrame_env (i : Instr) (s : State) : (s.holdFrame i).env = s.env := rfl

@[simp] theorem State.goInit_params (l : InitStep) (s : State) : (s.goInit l).params = s.params := rfl
@[simp] theorem State.goInit_regs (l : InitStep) (s : State) : (s.goInit l).regs = s.regs := rfl
@[simp] theorem State.goInit_port (l : InitStep) (s : State) : (s.goInit l).port = s.port := rfl
@[simp] theorem State.goInit_pos (l : InitStep) (s : State) : (s.goInit l).pos = { s.pos with opPos := .init l, cyclePos := none } := rfl
@[simp] theorem State.goInit_bus (l : InitStep) (s : State) : (s.goInit l).bus = s.bus := rfl
@[simp] theorem State.goInit_refused (l : InitStep) (s : State) : (s.goInit l).refused = s.refused := rfl
@[simp] theorem State.goInit_history (l : InitStep) (s : State) : (s.goInit l).history = s.history := rfl
@[simp] theorem State.goInit_env (l : InitStep) (s : State) : (s.goInit l).env = s.env := rfl

@[simp] theorem State.goStatus_params (r : Status) (s : State) : (s.goStatus r).params = s.params := rfl
@[simp] theorem State.goStatus_regs (r : Status) (s : State) : (s.goStatus r).regs = s.regs := rfl
@[simp] theorem State.goStatus_port (r : Status) (s : State) : (s.goStatus r).port = s.port := rfl
@[simp] theorem State.goStatus_pos (r : Status) (s : State) : (s.goStatus r).pos = { s.pos with opPos := .init .i5, cyclePos := none, status := r } := rfl
@[simp] theorem State.goStatus_bus (r : Status) (s : State) : (s.goStatus r).bus = s.bus := rfl
@[simp] theorem State.goStatus_refused (r : Status) (s : State) : (s.goStatus r).refused = s.refused := rfl
@[simp] theorem State.goStatus_history (r : Status) (s : State) : (s.goStatus r).history = s.history := rfl
@[simp] theorem State.goStatus_env (r : Status) (s : State) : (s.goStatus r).env = s.env := rfl

@[simp] theorem State.enterCycle_params (s : State) : (s.enterCycle).params = s.params := rfl
@[simp] theorem State.enterCycle_regs (s : State) : (s.enterCycle).regs = s.regs := rfl
@[simp] theorem State.enterCycle_port (s : State) : (s.enterCycle).port = s.port := rfl
@[simp] theorem State.enterCycle_pos (s : State) : (s.enterCycle).pos = { s.pos with cyclePos := some .p1 } := rfl
@[simp] theorem State.enterCycle_bus (s : State) : (s.enterCycle).bus = s.bus := rfl
@[simp] theorem State.enterCycle_refused (s : State) : (s.enterCycle).refused = s.refused := rfl
@[simp] theorem State.enterCycle_history (s : State) : (s.enterCycle).history = s.history := rfl
@[simp] theorem State.enterCycle_env (s : State) : (s.enterCycle).env = s.env := rfl

@[simp] theorem State.startList_params (s : State) : (s.startList).params = s.params := rfl
@[simp] theorem State.startList_regs (s : State) : (s.startList).regs = s.regs := rfl
@[simp] theorem State.startList_port (s : State) : (s.startList).port = s.port := rfl
@[simp] theorem State.startList_pos (s : State) : (s.startList).pos = { s.pos with replayPos := some 0 } := rfl
@[simp] theorem State.startList_bus (s : State) : (s.startList).bus = s.bus := rfl
@[simp] theorem State.startList_refused (s : State) : (s.startList).refused = s.refused := rfl
@[simp] theorem State.startList_history (s : State) : (s.startList).history = s.history := rfl
@[simp] theorem State.startList_env (s : State) : (s.startList).env = s.env := rfl

@[simp] theorem State.leaveList_params (s : State) : (s.leaveList).params = s.params := rfl
@[simp] theorem State.leaveList_regs (s : State) : (s.leaveList).regs = s.regs := rfl
@[simp] theorem State.leaveList_port (s : State) : (s.leaveList).port = s.port := rfl
@[simp] theorem State.leaveList_pos (s : State) : (s.leaveList).pos = { s.pos with replayPos := none } := rfl
@[simp] theorem State.leaveList_bus (s : State) : (s.leaveList).bus = s.bus := rfl
@[simp] theorem State.leaveList_refused (s : State) : (s.leaveList).refused = s.refused := rfl
@[simp] theorem State.leaveList_history (s : State) : (s.leaveList).history = s.history := rfl
@[simp] theorem State.leaveList_env (s : State) : (s.leaveList).env = s.env := rfl

@[simp] theorem State.loadFrame_params (i : Instr) (s : State) : (s.loadFrame i).params = s.params := rfl
@[simp] theorem State.loadFrame_regs (i : Instr) (s : State) : (s.loadFrame i).regs = s.regs := rfl
@[simp] theorem State.loadFrame_port (i : Instr) (s : State) : (s.loadFrame i).port = s.port := rfl
@[simp] theorem State.loadFrame_pos (i : Instr) (s : State) : (s.loadFrame i).pos = { s.pos with frame := some i } := rfl
@[simp] theorem State.loadFrame_bus (i : Instr) (s : State) : (s.loadFrame i).bus = s.bus := rfl
@[simp] theorem State.loadFrame_refused (i : Instr) (s : State) : (s.loadFrame i).refused = s.refused := rfl
@[simp] theorem State.loadFrame_history (i : Instr) (s : State) : (s.loadFrame i).history = s.history := rfl
@[simp] theorem State.loadFrame_env (i : Instr) (s : State) : (s.loadFrame i).env = s.env := rfl

@[simp] theorem State.takeRequest_params (s : State) : (s.takeRequest).params = s.params := rfl
@[simp] theorem State.takeRequest_regs (s : State) : (s.takeRequest).regs = s.regs := rfl
@[simp] theorem State.takeRequest_port (s : State) : (s.takeRequest).port = { s.port with request := none } := rfl
@[simp] theorem State.takeRequest_pos (s : State) : (s.takeRequest).pos = s.pos := rfl
@[simp] theorem State.takeRequest_bus (s : State) : (s.takeRequest).bus = s.bus := rfl
@[simp] theorem State.takeRequest_refused (s : State) : (s.takeRequest).refused = s.refused := rfl
@[simp] theorem State.takeRequest_history (s : State) : (s.takeRequest).history = s.history := rfl
@[simp] theorem State.takeRequest_env (s : State) : (s.takeRequest).env = s.env := rfl

@[simp] theorem State.takeProgram_params (s : State) : (s.takeProgram).params = s.params := rfl
@[simp] theorem State.takeProgram_regs (s : State) : (s.takeProgram).regs = s.regs := rfl
@[simp] theorem State.takeProgram_port (s : State) : (s.takeProgram).port = { s.port with program := s.port.program.tail } := rfl
@[simp] theorem State.takeProgram_pos (s : State) : (s.takeProgram).pos = s.pos := rfl
@[simp] theorem State.takeProgram_bus (s : State) : (s.takeProgram).bus = s.bus := rfl
@[simp] theorem State.takeProgram_refused (s : State) : (s.takeProgram).refused = s.refused := rfl
@[simp] theorem State.takeProgram_history (s : State) : (s.takeProgram).history = s.history := rfl
@[simp] theorem State.takeProgram_env (s : State) : (s.takeProgram).env = s.env := rfl

/-! ## Sleeps (R290) -/

/-- After a sleep that has ended, what follows it runs. -/
theorem State.awake_of {s : State} (h : s.pos.asleep = false) (f : State → State) : s.awake f = f s := by
  simp [State.awake, h]

/-- In a sleep that has not ended nothing runs. -/
theorem State.awake_asleep {s : State} (h : s.pos.asleep = true) (f : State → State) : s.awake f = s := by
  simp [State.awake, h]

/-! ## The read cycle's position -/

@[simp] theorem State.goCycle_params (l : CycleStep) (s : State) : (s.goCycle l).params = s.params := rfl
@[simp] theorem State.goCycle_regs (l : CycleStep) (s : State) : (s.goCycle l).regs = s.regs := rfl
@[simp] theorem State.goCycle_port (l : CycleStep) (s : State) : (s.goCycle l).port = s.port := rfl
@[simp] theorem State.goCycle_bus (l : CycleStep) (s : State) : (s.goCycle l).bus = s.bus := rfl
@[simp] theorem State.goCycle_refused (l : CycleStep) (s : State) : (s.goCycle l).refused = s.refused := rfl
@[simp] theorem State.goCycle_history (l : CycleStep) (s : State) : (s.goCycle l).history = s.history := rfl
@[simp] theorem State.goCycle_env (l : CycleStep) (s : State) : (s.goCycle l).env = s.env := rfl
@[simp] theorem State.goCycle_pos (l : CycleStep) (s : State) : (s.goCycle l).pos =
    { s.pos with opPos := s.pos.opPos.inCycle l, cyclePos := s.pos.opPos.cyclePosIn l s.pos.cyclePos } := rfl
@[simp] theorem OpPos.inCycle_poll (l c : CycleStep) : (OpPos.poll c).inCycle l = .poll l := rfl
@[simp] theorem OpPos.inCycle_init (l : CycleStep) (i : InitStep) : (OpPos.init i).inCycle l = .init i := rfl
@[simp] theorem OpPos.cyclePosIn_poll (l c : CycleStep) (o : Option CycleStep) :
    (OpPos.poll c).cyclePosIn l o = o := rfl
@[simp] theorem OpPos.cyclePosIn_init (l : CycleStep) (o : Option CycleStep) (i : InitStep) :
    (OpPos.init i).cyclePosIn l o = some l := rfl

/-- In a POLL the label is opPos. -/
theorem State.goCycle_poll {s : State} {c : CycleStep} (h : s.pos.opPos = .poll c) (l : CycleStep) :
    s.goCycle l = { s with pos.opPos := .poll l } := by
  simp [State.goCycle, h, OpPos.inCycle, OpPos.cyclePosIn]

/-- In an INIT the label is cyclePos. -/
theorem State.goCycle_init {s : State} {i : InitStep} (h : s.pos.opPos = .init i) (l : CycleStep) :
    s.goCycle l = { s with pos.cyclePos := some l } := by
  simp [State.goCycle, h, OpPos.inCycle, OpPos.cyclePosIn]

/-! ## Draws -/

@[simp] theorem State.sampleDat_params (s : State) : (s.sampleDat).2.params = s.params := by
  unfold State.sampleDat; split <;> rfl
@[simp] theorem State.sampleDat_regs (s : State) : (s.sampleDat).2.regs = s.regs := by
  unfold State.sampleDat; split <;> rfl
@[simp] theorem State.sampleDat_port (s : State) : (s.sampleDat).2.port = s.port := by
  unfold State.sampleDat; split <;> rfl
@[simp] theorem State.sampleDat_pos (s : State) : (s.sampleDat).2.pos = s.pos := by
  unfold State.sampleDat; split <;> rfl
@[simp] theorem State.sampleDat_bus (s : State) : (s.sampleDat).2.bus = s.bus := by
  unfold State.sampleDat; split <;> rfl
@[simp] theorem State.sampleDat_refused (s : State) : (s.sampleDat).2.refused = s.refused := by
  unfold State.sampleDat; split <;> rfl

@[simp] theorem State.spiExchange_params (o : Byte) (s : State) : (s.spiExchange o).2.params = s.params := by
  unfold State.spiExchange; split <;> rfl
@[simp] theorem State.spiExchange_regs (o : Byte) (s : State) : (s.spiExchange o).2.regs = s.regs := by
  unfold State.spiExchange; split <;> rfl
@[simp] theorem State.spiExchange_port (o : Byte) (s : State) : (s.spiExchange o).2.port = s.port := by
  unfold State.spiExchange; split <;> rfl
@[simp] theorem State.spiExchange_pos (o : Byte) (s : State) : (s.spiExchange o).2.pos = s.pos := by
  unfold State.spiExchange; split <;> rfl
@[simp] theorem State.spiExchange_bus (o : Byte) (s : State) : (s.spiExchange o).2.bus = s.bus := by
  unfold State.spiExchange; split <;> rfl
@[simp] theorem State.spiExchange_refused (o : Byte) (s : State) : (s.spiExchange o).2.refused = s.refused := by
  unfold State.spiExchange; split <;> rfl

@[simp] theorem State.nowMs_params (s : State) : (s.nowMs).2.params = s.params := by
  unfold State.nowMs; split <;> rfl
@[simp] theorem State.nowMs_regs (s : State) : (s.nowMs).2.regs = s.regs := by
  unfold State.nowMs; split <;> rfl
@[simp] theorem State.nowMs_port (s : State) : (s.nowMs).2.port = s.port := by
  unfold State.nowMs; split <;> rfl
@[simp] theorem State.nowMs_pos (s : State) : (s.nowMs).2.pos = s.pos := by
  unfold State.nowMs; split <;> rfl
@[simp] theorem State.nowMs_bus (s : State) : (s.nowMs).2.bus = s.bus := by
  unfold State.nowMs; split <;> rfl
@[simp] theorem State.nowMs_refused (s : State) : (s.nowMs).2.refused = s.refused := by
  unfold State.nowMs; split <;> rfl

@[simp] theorem State.spiGrant_params (s : State) : (s.spiGrant).2.params = s.params := by
  unfold State.spiGrant; split <;> first | rfl | (split <;> rfl)
@[simp] theorem State.spiGrant_regs (s : State) : (s.spiGrant).2.regs = s.regs := by
  unfold State.spiGrant; split <;> first | rfl | (split <;> rfl)
@[simp] theorem State.spiGrant_port (s : State) : (s.spiGrant).2.port = s.port := by
  unfold State.spiGrant; split <;> first | rfl | (split <;> rfl)
@[simp] theorem State.spiGrant_pos (s : State) : (s.spiGrant).2.pos = s.pos := by
  unfold State.spiGrant; split <;> first | rfl | (split <;> rfl)
@[simp] theorem State.spiGrant_bus (s : State) : (s.spiGrant).2.bus = s.bus := by
  unfold State.spiGrant; split <;> first | rfl | (split <;> rfl)
@[simp] theorem State.spiGrant_refused (s : State) : (s.spiGrant).2.refused = s.refused := by
  unfold State.spiGrant; split <;> first | rfl | (split <;> rfl)

@[simp] theorem State.sampleDat_sleepsLeft (s : State) :
    s.sampleDat.2.env.sleepsLeft = s.env.sleepsLeft := by
  unfold State.sampleDat; split <;> rfl
@[simp] theorem State.spiExchange_sleepsLeft (o : Byte) (s : State) :
    (s.spiExchange o).2.env.sleepsLeft = s.env.sleepsLeft := by
  unfold State.spiExchange; split <;> rfl
@[simp] theorem State.nowMs_sleepsLeft (s : State) :
    s.nowMs.2.env.sleepsLeft = s.env.sleepsLeft := by
  unfold State.nowMs; split <;> rfl
@[simp] theorem State.spiGrant_sleepsLeft (s : State) :
    s.spiGrant.2.env.sleepsLeft = s.env.sleepsLeft := by
  unfold State.spiGrant; split <;> first | rfl | (split <;> rfl)

@[simp] theorem State.sampleDat_clockCount (s : State) :
    s.sampleDat.2.env.clockCount = s.env.clockCount := by
  unfold State.sampleDat; split <;> rfl
@[simp] theorem State.spiExchange_clockCount (o : Byte) (s : State) :
    (s.spiExchange o).2.env.clockCount = s.env.clockCount := by
  unfold State.spiExchange; split <;> rfl
@[simp] theorem State.spiGrant_clockCount (s : State) :
    s.spiGrant.2.env.clockCount = s.env.clockCount := by
  unfold State.spiGrant; split <;> first | rfl | (split <;> rfl)

/-- A DAT sample records the level it answers (R45). -/
@[simp] theorem State.sampleDat_history (s : State) :
    s.sampleDat.2.history = .sample s.sampleDat.1 :: s.history := by
  unfold State.sampleDat; split <;> rfl

/-- An SPI exchange records both bytes (R45). -/
@[simp] theorem State.spiExchange_history (o : Byte) (s : State) :
    (s.spiExchange o).2.history = .spiXfer o (s.spiExchange o).1 :: s.history := by
  unfold State.spiExchange; split <;> rfl

/-- A clock sample records the value it answers (R45). -/
@[simp] theorem State.nowMs_history (s : State) :
    s.nowMs.2.history = .clock s.nowMs.1 :: s.history := by
  unfold State.nowMs; split <;> rfl

/-- A grant is recorded, and nothing else of SPI_BEGIN is. -/
theorem State.spiGrant_history (s : State) :
    s.spiGrant.2.history = if s.spiGrant.1 then .spiBegin :: s.history else s.history := by
  unfold State.spiGrant; split <;> first | rfl | (split <;> rfl)

/-- A draw changes the environment and the history, so it is the state with those two replaced. -/
theorem State.eq_of_fields {s t : State} (hp : t.params = s.params) (hr : t.regs = s.regs)
    (ho : t.port = s.port) (hq : t.pos = s.pos) (hb : t.bus = s.bus) (hf : t.refused = s.refused) :
    t = { s with env := t.env, history := t.history } := by
  cases s; cases t; simp_all

theorem State.sampleDat_eq (s : State) :
    s.sampleDat.2 = { s with env := s.sampleDat.2.env, history := .sample s.sampleDat.1 :: s.history } := by
  simpa using State.eq_of_fields (s := s) (t := s.sampleDat.2) (by simp) (by simp) (by simp) (by simp)
    (by simp) (by simp)

theorem State.spiExchange_eq (o : Byte) (s : State) :
    (s.spiExchange o).2 = { s with env := (s.spiExchange o).2.env,
                                   history := .spiXfer o (s.spiExchange o).1 :: s.history } := by
  simpa using State.eq_of_fields (s := s) (t := (s.spiExchange o).2) (by simp) (by simp) (by simp)
    (by simp) (by simp) (by simp)

theorem State.nowMs_eq (s : State) :
    s.nowMs.2 = { s with env := s.nowMs.2.env, history := .clock s.nowMs.1 :: s.history } := by
  simpa using State.eq_of_fields (s := s) (t := s.nowMs.2) (by simp) (by simp) (by simp) (by simp)
    (by simp) (by simp)

/-- A clock sample is CLOCK_BITS wide (R34). -/
theorem State.nowMs_lt (s : State) : s.nowMs.1 < 2 ^ s.params.clockBits := by
  unfold State.nowMs clockValue; split <;> exact Nat.mod_lt _ (Nat.two_pow_pos _)

/-- The clock law: the unbounded count never goes back, and the value sampled is the count modulo
2^CLOCK_BITS (R34). -/
theorem State.nowMs_clock (s : State) :
    s.env.clockCount ≤ s.nowMs.2.env.clockCount ∧
    s.nowMs.1 = s.nowMs.2.env.clockCount % 2 ^ s.params.clockBits := by
  unfold State.nowMs State.clockAt clockValue; split <;> simp

/-- A clock sample does not read the position. -/
theorem State.nowMs_fst_holdFrame (i : Instr) (s : State) : (s.holdFrame i).nowMs.1 = s.nowMs.1 := by
  unfold State.nowMs State.holdFrame State.clockAt; dsimp only; split <;> rfl

end Sys2Proof.Machine
end

