-- ==== Sys2Proof/Laws/Memory.lean ====
section
/-! SUPPORT. The response buffer's store: read after write, the canonical form kept by every write, and
equal contents are equal data. -/

namespace Sys2Proof.Machine

/-- An index below every listed one reads as unwritten. -/
theorem Memory.read_of_lt {m : Memory} {i : Nat} (h : ∀ c ∈ m, i < c.1) : Memory.read m i = unwritten := by
  induction m with
  | nil => rfl
  | cons c rest ih =>
    have hc := h c (by simp)
    simp only [Memory.read]
    rw [if_neg (by omega)]
    exact ih fun d hd => h d (by simp [hd])

/-- A read of the index just written gives the byte written. -/
theorem Memory.read_write_same {m : Memory} (h : m.wf) (i : Nat) (v : Byte) :
    Memory.read (Memory.write m i v) i = v := by
  induction m with
  | nil =>
    by_cases hv : v = unwritten <;> simp [Memory.write, Memory.read, hv]
  | cons c rest ih =>
    obtain ⟨j, x⟩ := c
    have hs := List.pairwise_cons.1 h.1
    have hrest : Memory.wf rest := ⟨hs.2, fun d hd => h.2 d (by simp [hd])⟩
    simp only [Memory.write]
    split
    · next hij =>
      by_cases hv : v = unwritten
      · simp only [hv, if_true]
        apply Memory.read_of_lt
        intro d hd
        rcases List.mem_cons.1 hd with rfl | hd
        · exact hij
        · exact Nat.lt_trans hij (hs.1 d hd)
      · simp [hv, Memory.read]
    · split
      · next hij =>
        by_cases hv : v = unwritten
        · simp only [hv, if_true]
          exact Memory.read_of_lt fun d hd => hij ▸ hs.1 d hd
        · simp [hv, Memory.read]
      · next hlt hne =>
        simp only [Memory.read]
        rw [if_neg (by omega)]
        exact ih hrest

/-- A read of any other index gives what it gave before. -/
theorem Memory.read_write_other {m : Memory} (h : m.wf) {i k : Nat} (hk : k ≠ i) (v : Byte) :
    Memory.read (Memory.write m i v) k = Memory.read m k := by
  induction m with
  | nil =>
    by_cases hv : v = unwritten <;> simp [Memory.write, Memory.read, hv, Ne.symm hk]
  | cons c rest ih =>
    obtain ⟨j, x⟩ := c
    have hs := List.pairwise_cons.1 h.1
    have hrest : Memory.wf rest := ⟨hs.2, fun d hd => h.2 d (by simp [hd])⟩
    simp only [Memory.write]
    split
    · by_cases hv : v = unwritten <;> simp [hv, Memory.read, Ne.symm hk]
    · split
      · next hij =>
        subst hij
        by_cases hv : v = unwritten <;> simp [hv, Memory.read, Ne.symm hk]
      · simp only [Memory.read]
        split
        · rfl
        · exact ih hrest

/-- A written store lists only the index written, with a byte other than the unlisted one, and what was
listed before. -/
theorem Memory.mem_write {m : Memory} {i : Nat} {v : Byte} {c : Host.Cell}
    (h : c ∈ Memory.write m i v) : (c = (i, v) ∧ v ≠ unwritten) ∨ c ∈ m := by
  induction m with
  | nil =>
    by_cases hv : v = unwritten <;> simp_all [Memory.write]
  | cons d rest ih =>
    obtain ⟨j, x⟩ := d
    simp only [Memory.write] at h
    split at h
    · split at h <;> simp_all
    · split at h
      · split at h
        · simp [h]
        · next hv => rcases List.mem_cons.1 h with h | h <;> simp [h, hv]
      · rcases List.mem_cons.1 h with h | h
        · simp [h]
        · rcases ih h with h | h <;> simp [h]

/-- A write keeps the canonical form. -/
theorem Memory.wf_write {m : Memory} (h : m.wf) (i : Nat) (v : Byte) : (Memory.write m i v).wf := by
  refine ⟨?_, fun c hc => ?_⟩
  · induction m with
    | nil => by_cases hv : v = unwritten <;> simp [Memory.write, hv]
    | cons c rest ih =>
      obtain ⟨j, x⟩ := c
      have hs := List.pairwise_cons.1 h.1
      have hrest : Memory.wf rest := ⟨hs.2, fun d hd => h.2 d (by simp [hd])⟩
      simp only [Memory.write]
      split
      · next hij =>
        by_cases hv : v = unwritten
        · simpa [hv] using hs
        · simp only [hv, if_false]
          refine List.pairwise_cons.2 ⟨?_, h.1⟩
          intro d hd
          rcases List.mem_cons.1 hd with rfl | hd
          · exact hij
          · exact Nat.lt_trans hij (hs.1 d hd)
      · split
        · next hij =>
          by_cases hv : v = unwritten
          · simpa [hv] using hs.2
          · simp only [hv, if_false]
            exact List.pairwise_cons.2 ⟨fun d hd => hij ▸ hs.1 d hd, hs.2⟩
        · next hlt hne =>
          refine List.pairwise_cons.2 ⟨?_, ih hrest⟩
          intro d hd
          rcases Memory.mem_write hd with ⟨rfl, -⟩ | hd
          · show j < i
            omega
          · exact hs.1 d hd
  · rcases Memory.mem_write hc with ⟨rfl, hv⟩ | hc
    · exact hv
    · exact h.2 c hc

/-- Two canonical stores that read alike everywhere are equal. -/
theorem Memory.ext_read {m n : Memory} (hm : m.wf) (hn : n.wf)
    (h : ∀ i, Memory.read m i = Memory.read n i) : m = n := by
  induction m generalizing n with
  | nil =>
    cases n with
    | nil => rfl
    | cons d rest =>
      have := h d.1
      simp only [Memory.read, if_true] at this
      exact absurd this.symm (hn.2 d (by simp))
  | cons c rest ih =>
    obtain ⟨j, x⟩ := c
    have hs := List.pairwise_cons.1 hm.1
    have hrest : Memory.wf rest := ⟨hs.2, fun d hd => hm.2 d (by simp [hd])⟩
    cases n with
    | nil =>
      have := h j
      simp only [Memory.read, if_true] at this
      exact absurd this (hm.2 (j, x) (by simp))
    | cons d rest' =>
      obtain ⟨k, y⟩ := d
      have ht := List.pairwise_cons.1 hn.1
      have hrest' : Memory.wf rest' := ⟨ht.2, fun d hd => hn.2 d (by simp [hd])⟩
      have hx : x ≠ unwritten := hm.2 (j, x) (by simp)
      have hy : y ≠ unwritten := hn.2 (k, y) (by simp)
      have hjk : j = k := by
        rcases Nat.lt_trichotomy j k with hlt | heq | hgt
        · have h1 := h j
          have h2 : Memory.read ((k, y) :: rest') j = unwritten :=
            Memory.read_of_lt fun d hd => by
              rcases List.mem_cons.1 hd with rfl | hd
              · exact hlt
              · exact Nat.lt_trans hlt (ht.1 d hd)
          rw [h2] at h1
          simp only [Memory.read, if_true] at h1
          exact absurd h1 hx
        · exact heq
        · have h1 := h k
          have h2 : Memory.read ((j, x) :: rest) k = unwritten :=
            Memory.read_of_lt fun d hd => by
              rcases List.mem_cons.1 hd with rfl | hd
              · exact hgt
              · exact Nat.lt_trans hgt (hs.1 d hd)
          rw [h2] at h1
          simp only [Memory.read, if_true] at h1
          exact absurd h1.symm hy
      subst hjk
      have hxy : x = y := by
        have := h j
        simpa only [Memory.read, if_true] using this
      subst hxy
      congr 1
      refine ih hrest hrest' fun i => ?_
      by_cases hij : j = i
      · subst hij
        rw [Memory.read_of_lt hs.1, Memory.read_of_lt ht.1]
      · have := h i
        simpa only [Memory.read, if_neg hij] using this

/-- A write keeps every listed index inside the response buffer (R71). -/
theorem Memory.lt_write {m : Memory} {n i : Nat} (h : ∀ c ∈ m, c.1 < n) (hi : i < n) (v : Byte) :
    ∀ c ∈ Memory.write m i v, c.1 < n := by
  intro c hc
  rcases Memory.mem_write hc with ⟨rfl, -⟩ | hc
  · exact hi
  · exact h c hc

end Sys2Proof.Machine
end

