-- ==== Sys2Proof/Laws/Transport.lean ====
section
/-! SUPPORT. What each operation of the transport does, said once: one byte exchange, the exchange of a
list of bytes, and one frame, whole or waiting. Each law gives the resulting state as one record, so a
proof that cites it needs no unfolding of the transport. -/

namespace Sys2Proof.Machine

/-! ## A sleep -/

/-- A sleep that ends is its event and nothing else. -/
theorem State.sleep_free {s : State} (h : s.sleepsEnd) (e : Event) : s.sleep e = s.emit e := by
  obtain ⟨h1, h2⟩ := h
  cases s with
  | mk params regs port pos bus refused history env =>
    cases pos; cases env
    simp_all [State.sleep, State.emit]

/-- What follows a sleep that ends, on the state with the sleep's event. -/
theorem State.sleep_awake {s : State} (h : s.sleepsEnd) (e : Event) (f : State → State) :
    (s.sleep e).awake f = f (s.emit e) := by
  rw [State.sleep_free h]
  exact State.awake_of (s := s.emit e) h.1 f

/-- A sleep that the time port ends: what follows it goes on, one sleep nearer to the one that never ends. -/
theorem State.sleep_ends {s : State} (h : s.env.sleepsLeft ≠ some 0) (e : Event) (f : State → State) :
    (s.sleep e).awake f = f { s with
      env := { s.env with sleepsLeft := s.env.sleepsLeft.map (· - 1) },
      pos := { s.pos with asleep := false }, history := e :: s.history } := by
  have h0 : (s.env.sleepsLeft == some 0) = false := by simpa using h
  rw [State.awake_of (by simp [State.sleep, h0]), State.sleep, h0]

/-- A sleep that the time port never ends: nothing follows it (R290). -/
theorem State.sleep_stays {s : State} (h : s.env.sleepsLeft = some 0) (e : Event) (f : State → State) :
    (s.sleep e).awake f = { s with pos := { s.pos with asleep := true }, history := e :: s.history } := by
  have h0 : (s.env.sleepsLeft == some 0) = true := by simp [h]
  rw [State.awake_asleep (by simp [State.sleep, h0]), State.sleep, h0, h, Option.map_some, Nat.zero_sub, ← h]

/-! ## One byte -/

/-- `r[j] <- b` sets bit j and leaves the others. -/
theorem setBit_getLsbD (r : Byte) (j : Fin 8) (b : Bool) (i : Nat) :
    (setBit r j b).getLsbD i = if i = j.val then b else r.getLsbD i := by
  have hj := j.isLt
  unfold setBit
  by_cases hi : i < 8
  · by_cases h : i = j.val
    · subst h
      cases b <;> simp [hj]
    · cases b <;> simp [h, hi] <;> intros <;> omega
  · have h : ¬ i = j.val := by omega
    have h8 : 8 ≤ i := by omega
    simp [h, BitVec.getLsbD_of_ge, h8]

/-- The second half of a bit period: the level sampled into bit j, the clock up (R130). -/
theorem bitRise_eq {s : State} (hn : s.sleepsEnd) :
    ∃ env b, env.sleepsLeft = none ∧ bitRise s =
      { s with env := env, pos := { s.pos with shiftIn := setBit s.pos.shiftIn s.pos.bitIdx b },
               bus := { s.bus with clk := true },
               history := [.sleepUs s.params.tClkUs, .pin .clk true, .sample b] ++ s.history } := by
  refine ⟨s.sampleDat.2.env, s.sampleDat.1, by simpa using hn.2, ?_⟩
  unfold bitRise
  dsimp only
  rw [State.sleepUs, State.sleep_free, State.sampleDat_eq]
  · rfl
  · exact ⟨by simpa using hn.1, by simpa using hn.2⟩

/-- One bit period: the bit driven, the level sampled into bit j, the six events (R130). -/
theorem bitPeriod_eq (o : Byte) (s : State) (hn : s.sleepsEnd) :
    ∃ env b, env.sleepsLeft = none ∧ bitPeriod o s =
      { s with env := env,
               pos := { s.pos with shiftIn := setBit s.pos.shiftIn s.pos.bitIdx b,
                                   bitIdx := s.pos.bitIdx + 1 },
               bus := { s.bus with cmd := o.getLsbD s.pos.bitIdx.val, clk := true },
               history := [.sleepUs s.params.tClkUs, .pin .clk true, .sample b,
                 .sleepUs s.params.tClkUs, .pin .clk false,
                 .pin .cmd (o.getLsbD s.pos.bitIdx.val)] ++ s.history } := by
  have h : bitPeriod o s = (bitRise (((s.pin .cmd (o.getLsbD s.pos.bitIdx.val)).pin .clk false).emit
      (.sleepUs s.params.tClkUs))).awake nextBit :=
    congrArg (State.awake nextBit)
      (State.sleep_awake (s := (s.pin .cmd (o.getLsbD s.pos.bitIdx.val)).pin .clk false) hn _ _)
  obtain ⟨env, b, hl, hr⟩ := bitRise_eq (s := ((s.pin .cmd (o.getLsbD s.pos.bitIdx.val)).pin .clk
    false).emit (.sleepUs s.params.tClkUs)) hn
  exact ⟨env, b, hl, by rw [h, hr, State.awake_of (by exact hn.1)]; rfl⟩

/-- The bit events of a byte depend on the reply only through its bit j. -/
theorem gpioBitEvents_congr {p : Params} {o r r' : Byte} {j : Nat} (h : r.getLsbD j = r'.getLsbD j) :
    gpioBitEvents p o r j = gpioBitEvents p o r' j := by
  simp [gpioBitEvents, h]

/-- After n bit periods from the start of a byte: bits 0 to n-1 of shiftIn are the levels sampled. -/
theorem bitPeriods_eq (o : Byte) (s : State) (hf : s.sleepsEnd) (hs : s.pos.bitIdx = 0)
    (hb : s.bus.clk = true) (n : Nat) (hn : n ≤ 8) :
    ∃ env r c, env.sleepsLeft = none ∧ (State.awake (bitPeriod o))^[n] s =
      { s with env := env, pos := { s.pos with shiftIn := r, bitIdx := Fin.ofNat 8 n },
               bus := { s.bus with cmd := c },
               history := ((List.range n).flatMap (gpioBitEvents s.params o r)).reverse ++ s.history } := by
  induction n with
  | zero =>
    refine ⟨s.env, s.pos.shiftIn, s.bus.cmd, hf.2, ?_⟩
    simp [← hs]
  | succ n ih =>
    obtain ⟨env, r, c, hl, h⟩ := ih (by omega)
    rw [Function.iterate_succ_apply', h, State.awake_of (by exact hf.1) (bitPeriod o)]
    obtain ⟨env', b, hl', h'⟩ := bitPeriod_eq o
      { s with env := env, pos := { s.pos with shiftIn := r, bitIdx := Fin.ofNat 8 n },
               bus := { s.bus with cmd := c },
               history := ((List.range n).flatMap (gpioBitEvents s.params o r)).reverse ++ s.history }
      ⟨hf.1, hl⟩
    have hval : (Fin.ofNat 8 n).val = n := Nat.mod_eq_of_lt (by omega)
    refine ⟨env', setBit r (Fin.ofNat 8 n) b, o.getLsbD n, hl', ?_⟩
    rw [h']
    have hidx : Fin.ofNat 8 n + 1 = Fin.ofNat 8 (n + 1) := by
      apply Fin.ext; simp [Fin.ofNat, Fin.val_add]
    have hold : (List.range n).flatMap (gpioBitEvents s.params o (setBit r (Fin.ofNat 8 n) b))
        = (List.range n).flatMap (gpioBitEvents s.params o r) := by
      apply List.flatMap_congr
      intro j hj
      have : j < n := List.mem_range.1 hj
      apply gpioBitEvents_congr
      rw [setBit_getLsbD, if_neg (by omega)]
    simp only [hidx, hval, hb]
    rw [List.range_succ, List.flatMap_append, hold]
    simp [gpioBitEvents, setBit_getLsbD, Nat.mod_eq_of_lt (show n < 8 by omega)]

/-- One byte exchange whose sleeps end, in either option: some reply byte, the events of the exchange, and nothing else
but the environment and the two bit temporaries (R130, R131, R132). -/
theorem xfer_eq (o : Byte) (s : State) (hn : s.sleepsEnd) (hclk : s.bus.clk = true)
    (hcmd : s.bus.cmd = true) :
    ∃ env sh bi, env.sleepsLeft = none ∧ (xfer o s).2 =
      { s with env := env, pos := { s.pos with shiftIn := sh, bitIdx := bi },
               history := (byteEvents s.params (o, (xfer o s).1)).reverse ++ s.history } := by
  cases ht : s.params.transport with
  | gpio =>
    obtain ⟨env, r, c, hl, h⟩ := bitPeriods_eq o { s with pos.shiftIn := 0x00, pos.bitIdx := 0 } hn rfl
      hclk 8 (by omega)
    refine ⟨env, r, Fin.ofNat 8 8, hl, ?_⟩
    have hx : xfer o s = xferGpio o s := by simp [xfer, ht]
    generalize hY : (State.awake (bitPeriod o))^[8] _ = Y at h
    have hYn : Y.sleepsEnd := by rw [h]; exact ⟨hn.1, hl⟩
    have hd : xferGpio o s = (Y.pos.shiftIn, (Y.pin .cmd true).emit (.sleepUs Y.params.tByteUs)) := by
      unfold xferGpio
      dsimp only
      rw [hY, State.awake_of hYn.1, State.sleepUs, State.sleep_free (s := Y.pin .cmd true) hYn]
      rfl
    rw [hx, hd, h]
    have hbus : ({ s.bus with cmd := true } : Bus) = s.bus := by
      rw [← hcmd]
    simp [byteEvents, ht, State.pin, State.emit, Bus.drive, hbus]
  | hwspi =>
    refine ⟨(s.spiExchange o).2.env, s.pos.shiftIn, s.pos.bitIdx, by simpa using hn.2, ?_⟩
    have hx : xfer o s = xferHwspi o s := by simp [xfer, ht]
    rw [hx]
    unfold xferHwspi
    dsimp only
    rw [State.sleepUs, State.sleep_free ⟨by simpa using hn.1, by simpa using hn.2⟩, State.spiExchange_eq]
    simp [byteEvents, ht, State.emit]

/-! ## A list of bytes -/

/-- What a frame does with its replies to the registers, byte i first. -/
def foldReplies (f : Params → Nat → Byte → Regs → Regs) (p : Params) : Nat → List Byte → Regs → Regs
  | _, [], g => g
  | i, r :: rest, g => foldReplies f p (i + 1) rest (f p i r g)

/-- The exchange of a list of request bytes whose replies touch only the registers. -/
theorem exchangeBytes_eq {use : Nat → Byte → State → State}
    {f : Params → Nat → Byte → Regs → Regs}
    (hu : ∀ i r t, use i r t = { t with regs := f t.params i r t.regs })
    (os : List Byte) (s : State) (hn : s.sleepsEnd) (hclk : s.bus.clk = true) (hcmd : s.bus.cmd = true) :
    ∃ rs env sh bi, rs.length = os.length ∧ env.sleepsLeft = none ∧ exchangeBytes use os s =
      { s with env := env, regs := foldReplies f s.params s.pos.byteIdx rs s.regs,
               pos := { s.pos with shiftIn := sh, bitIdx := bi,
                                   byteIdx := s.pos.byteIdx + os.length },
               history := ((os.zip rs).flatMap (byteEvents s.params)).reverse ++ s.history } := by
  induction os generalizing s with
  | nil => exact ⟨[], s.env, s.pos.shiftIn, s.pos.bitIdx, rfl, hn.2, rfl⟩
  | cons o os ih =>
    obtain ⟨env, sh, bi, hl, hx⟩ := xfer_eq o s hn hclk hcmd
    obtain ⟨rs, env', sh', bi', hlen, hl', h⟩ := ih
      { use s.pos.byteIdx (xfer o s).1 (xfer o s).2 with pos.byteIdx := s.pos.byteIdx + 1 }
      (by rw [hu, hx]; exact ⟨hn.1, hl⟩) (by rw [hu, hx]; exact hclk) (by rw [hu, hx]; exact hcmd)
    refine ⟨(xfer o s).1 :: rs, env', sh', bi', by simp [hlen], hl', ?_⟩
    have hstep : exchangeBytes use (o :: os) s = exchangeBytes use os
      { use s.pos.byteIdx (xfer o s).1 (xfer o s).2 with
        pos := { (use s.pos.byteIdx (xfer o s).1 (xfer o s).2).pos with byteIdx := s.pos.byteIdx + 1 } } := by
      have ha : (xfer o s).2.pos.asleep = false := by rw [hx]; exact hn.1
      simp only [exchangeBytes, State.awake_of ha]
    rw [hstep, h, hu, hx]
    simp [foldReplies, Nat.add_assoc, Nat.add_comm 1]

/-- Replies discarded: the registers stay (R137). -/
theorem discardReply_regs (i : Nat) (r : Byte) (t : State) :
    discardReply i r t = { t with regs := t.regs } := rfl

/-- Replies stored in RB (R205). -/
theorem storeReply_regs (i : Nat) (r : Byte) (t : State) :
    storeReply i r t = { t with regs := { t.regs with rb := t.regs.rb.write i r } } := rfl

/-- The type code stored in controller_type (R161). -/
theorem storeTypeCode_regs (i : Nat) (r : Byte) (t : State) :
    storeTypeCode i r t =
      { t with regs := if i = t.params.typeIndex then { t.regs with controllerType := r } else t.regs } := by
  unfold storeTypeCode; split <;> rfl

/-- The store after reply bytes are written from index i on. -/
def storeFrom : Nat → List Byte → Memory → Memory
  | _, [], m => m
  | i, r :: rest, m => storeFrom (i + 1) rest (m.write i r)

theorem foldReplies_discard (p : Params) (i : Nat) (rs : List Byte) (g : Regs) :
    foldReplies (fun _ _ _ g => g) p i rs g = g := by
  induction rs generalizing i with
  | nil => rfl
  | cons r rs ih => exact ih (i + 1)

theorem foldReplies_store (p : Params) (i : Nat) (rs : List Byte) (g : Regs) :
    foldReplies (fun _ i r g => { g with rb := g.rb.write i r }) p i rs g =
      { g with rb := storeFrom i rs g.rb } := by
  induction rs generalizing i g with
  | nil => rfl
  | cons r rs ih => simpa [foldReplies, storeFrom] using ih (i + 1) { g with rb := g.rb.write i r }

/-- Of a type frame's replies only the one at TYPE_INDEX is kept (R108). -/
theorem foldReplies_type (p : Params) (i : Nat) (rs : List Byte) (g : Regs) :
    foldReplies (fun p i r g => if i = p.typeIndex then { g with controllerType := r } else g) p i rs g =
      if i ≤ p.typeIndex then
        { g with controllerType := rs.getD (p.typeIndex - i) g.controllerType } else g := by
  induction rs generalizing i g with
  | nil => simp [foldReplies]
  | cons r rs ih =>
    simp only [foldReplies]
    rw [ih]
    by_cases h : i = p.typeIndex
    · have h1 : ¬ i + 1 ≤ p.typeIndex := by omega
      simp [h]
    · by_cases h2 : i ≤ p.typeIndex
      · have h1 : i + 1 ≤ p.typeIndex := by omega
        have h3 : p.typeIndex - i = p.typeIndex - (i + 1) + 1 := by omega
        simp [h, h1, h2, h3]
      · have h1 : ¬ i + 1 ≤ p.typeIndex := by omega
        simp [h, h1, h2]

/-- The stored bytes stay in canonical form. -/
theorem storeFrom_wf {m : Memory} (h : m.wf) (i : Nat) (rs : List Byte) : (storeFrom i rs m).wf := by
  induction rs generalizing i m with
  | nil => exact h
  | cons r rs ih => exact ih (Memory.wf_write h i r) (i + 1)

/-- Bytes stored below a bound keep every index below it. -/
theorem storeFrom_lt {m : Memory} {n : Nat} (h : ∀ c ∈ m, c.1 < n) (i : Nat) (rs : List Byte)
    (hi : i + rs.length ≤ n) : ∀ c ∈ storeFrom i rs m, c.1 < n := by
  induction rs generalizing i m with
  | nil => exact h
  | cons r rs ih =>
    simp only [List.length_cons] at hi
    exact ih (Memory.lt_write h (by omega) r) (i + 1) (by omega)

/-- Reading the store after reply bytes were written: the reply byte, or what was there. -/
theorem storeFrom_read {m : Memory} (h : m.wf) (i : Nat) (rs : List Byte) (k : Nat) :
    Memory.read (storeFrom i rs m) k =
      if i ≤ k ∧ k < i + rs.length then rs.getD (k - i) 0 else Memory.read m k := by
  induction rs generalizing i m with
  | nil =>
    have : ¬ (i ≤ k ∧ k < i + ([] : List Byte).length) := by simp
    rw [if_neg this]; rfl
  | cons r rs ih =>
    simp only [storeFrom]
    rw [ih (Memory.wf_write h i r)]
    simp only [List.length_cons]
    by_cases hk : k = i
    · subst hk
      rw [if_neg (by omega), if_pos (by omega), Memory.read_write_same h]
      simp
    · by_cases hin : i + 1 ≤ k ∧ k < i + 1 + rs.length
      · have h3 : k - i = k - (i + 1) + 1 := by omega
        rw [if_pos hin, if_pos (by omega), h3, List.getD_cons_succ]
      · rw [if_neg hin, if_neg (by omega), Memory.read_write_other h hk]

/-! ## One frame -/

/-- Whether the quiet time has passed does not depend on the frame that asks. -/
theorem quietTime_holdFrame (i : Instr) (s : State) :
    (quietTime (s.holdFrame i)).1 = (quietTime s).1 := by
  unfold quietTime
  have ha : (s.holdFrame i).pos.acquiring = s.pos.acquiring := rfl
  rw [ha]
  split
  · rfl
  · dsimp only
    rw [State.nowMs_fst_holdFrame]
    rfl

/-- One turn of the busy-wait: a clock sample, unless the block already waits in SPI_BEGIN (R135). -/
theorem quietTime_eq (s : State) :
    ∃ env, env.sleepsLeft = s.env.sleepsLeft ∧ s.env.clockCount ≤ env.clockCount ∧ (quietTime s).2 =
      { s with env := env,
               history := (if s.pos.acquiring then [] else [.clock s.nowMs.1]) ++ s.history } := by
  unfold quietTime
  split
  · exact ⟨s.env, rfl, le_rfl, rfl⟩
  · refine ⟨s.nowMs.2.env, by simp, (State.nowMs_clock s).1, ?_⟩
    dsimp only
    rw [State.nowMs_eq]
    rfl

/-- A draw from the environment depends on the environment alone. -/
theorem acquireBus_congr {s t : State} (hp : t.params = s.params) (he : t.env = s.env) :
    (acquireBus t).1 = (acquireBus s).1 := by
  unfold acquireBus
  rw [hp]
  split
  · rfl
  · dsimp only
    unfold State.spiGrant
    rw [he]
    split <;> first | rfl | (split <;> rfl)

theorem quietTime_holdFrame_env (i : Instr) (s : State) :
    (quietTime (s.holdFrame i)).2.env = (quietTime s).2.env := by
  unfold quietTime
  have ha : (s.holdFrame i).pos.acquiring = s.pos.acquiring := rfl
  rw [ha]
  split
  · rfl
  · dsimp only
    unfold State.nowMs State.holdFrame State.clockAt
    dsimp only
    split <;> rfl

/-- A frame is ready whatever frame it is. -/
theorem acquireBus_holdFrame (i : Instr) (s : State) :
    (acquireBus (quietTime (s.holdFrame i)).2).1 = (acquireBus (quietTime s).2).1 := by
  apply acquireBus_congr
  · obtain ⟨e, -, -, h⟩ := quietTime_eq s
    obtain ⟨e', -, -, h'⟩ := quietTime_eq (s.holdFrame i)
    rw [h, h']
    rfl
  · exact quietTime_holdFrame_env i s

/-- The bus is granted: SpiBegin is recorded in the HWSPI option, and nothing in the other (R135). -/
theorem acquireBus_granted {s : State} (h : (acquireBus s).1 = true) :
    ∃ env a, env.sleepsLeft = s.env.sleepsLeft ∧ s.env.clockCount ≤ env.clockCount ∧
      (s.params.transport = .hwspi → a = false) ∧
      (s.params.transport = .gpio → a = s.pos.acquiring) ∧ (acquireBus s).2 =
      { s with env := env, pos := { s.pos with acquiring := a },
               history := (match s.params.transport with
                           | .gpio => []
                           | .hwspi => [.spiBegin]) ++ s.history } := by
  cases ht : s.params.transport with
  | gpio =>
    refine ⟨s.env, s.pos.acquiring, rfl, le_rfl, by simp, fun _ => rfl, ?_⟩
    simp [acquireBus, ht]
  | hwspi =>
    have hx : acquireBus s = (s.spiGrant.1, { s.spiGrant.2 with pos.acquiring := !s.spiGrant.1 }) := by
      simp [acquireBus, ht]
    rw [hx] at h
    have hg : s.spiGrant.1 = true := h
    refine ⟨s.spiGrant.2.env, false, by simp, by simp, fun _ => rfl, by simp, ?_⟩
    rw [hx]
    have := State.eq_of_fields (s := s) (t := s.spiGrant.2) (by simp) (by simp) (by simp) (by simp)
      (by simp) (by simp)
    rw [this, State.spiGrant_history]
    simp [hg]

/-- END_FRAME (R136): attention up, the bus released, the timestamp recorded. -/
theorem endFrame_eq (s : State) :
    ∃ env v, env.sleepsLeft = s.env.sleepsLeft ∧ v < 2 ^ s.params.clockBits ∧ endFrame s =
      { s with env := env, regs := { s.regs with lastRelease := v },
               pos := { s.pos with framePos := .ending, byteIdx := 0 }, bus := { s.bus with att := true },
               history := (closeEvents s.params v).reverse ++ s.history } := by
  refine ⟨(endFrame s).env, (releaseBus (State.pin .att true
    { s with pos.framePos := .ending, pos.byteIdx := 0 })).nowMs.1, ?_, ?_, ?_⟩
  · unfold endFrame releaseBus; dsimp only; split <;> simp
  · refine lt_of_lt_of_eq (State.nowMs_lt _) ?_
    unfold releaseBus; split <;> rfl
  · unfold endFrame
    dsimp only
    rw [State.nowMs_eq]
    cases ht : s.params.transport <;>
      simp [releaseBus, ht, closeEvents, State.pin, State.emit, Bus.drive]

/-- The events of SPI_BEGIN at the moment the bus is granted. -/
def grantEvents (p : Params) : List Event :=
  match p.transport with
  | .gpio => []
  | .hwspi => [.spiBegin]

/-- The state at which attention is about to fall. -/
def begun (i : Instr) (s : State) : State := (acquireBus (quietTime (s.holdFrame i)).2).2

/-- A frame that does not wait runs its body from there (R135). -/
theorem runFrame_begun {i : Instr} {exchange after : State → State} {s : State} (h : s.ready) :
    runFrame i exchange after s = frameBody exchange after (begun i s) := by
  have hq : (quietTime (s.holdFrame i)).1 = true := by rw [quietTime_holdFrame]; exact h.1
  have ha : (acquireBus (quietTime (s.holdFrame i)).2).1 = true := by
    rw [acquireBus_holdFrame]; exact h.2
  unfold runFrame
  simp only [hq, ha, if_true]
  rfl

/-- Up to there only the waiting events and the frame's record have been written (R135). -/
theorem begun_eq {i : Instr} {s : State} (h : s.ready) :
    ∃ env a, env.sleepsLeft = s.env.sleepsLeft ∧ s.env.clockCount ≤ env.clockCount ∧
      (s.params.transport = .hwspi → a = false) ∧ (s.params.transport = .gpio → a = s.pos.acquiring) ∧
      begun i s =
        { s with env := env,
                 pos := { s.pos with frame := some i, framePos := .beginning, acquiring := a },
                 history := grantEvents s.params ++ quietEvents s ++ s.history } := by
  have hq : (quietTime (s.holdFrame i)).1 = true := by rw [quietTime_holdFrame]; exact h.1
  have ha : (acquireBus (quietTime (s.holdFrame i)).2).1 = true := by
    rw [acquireBus_holdFrame]; exact h.2
  obtain ⟨e, he, hec, hqe⟩ := quietTime_eq (s.holdFrame i)
  obtain ⟨env, a, hl, hlc, h1, h2, hae⟩ := acquireBus_granted ha
  rw [hqe] at hl hlc h1 h2
  refine ⟨env, a, hl.trans he, hec.trans hlc, h1, h2, ?_⟩
  unfold begun
  rw [hae, hqe, State.nowMs_fst_holdFrame]
  cases ht : s.params.transport <;> cases hac : s.pos.acquiring <;>
    simp [State.holdFrame, grantEvents, quietEvents, ht, hac]

/-- Attention falls, T_ATT_US is slept, and the frame goes on to its first byte (R135). -/
theorem openFrame_eq {s : State} (hn : s.sleepsEnd) :
    openFrame s = { s with bus := { s.bus with att := false },
                           pos := { s.pos with framePos := .bytes, byteIdx := 0 },
                           history := [.sleepUs s.params.tAttUs, .pin .att false] ++ s.history } := by
  rw [openFrame, State.sleepUs, State.sleep_awake (s := s.pin .att false) hn]
  rfl

/-- Such a frame whose sleeps end, up to its first byte: attention is down (R135). -/
theorem runFrame_ready {i : Instr} {exchange after : State → State} {s : State} (hn : s.sleepsEnd)
    (h : s.ready) :
    ∃ env a, env.sleepsLeft = none ∧ runFrame i exchange after s =
      (((exchange
      { s with env := env, bus := { s.bus with att := false },
               pos := { s.pos with frame := some i, framePos := .bytes, byteIdx := 0, acquiring := a },
               history := (openEvents s.params).reverse ++ quietEvents s ++ s.history }).awake
        endFrame).awake after).awake leaveFrame := by
  obtain ⟨env, a, hl, -, -, -, hb⟩ := begun_eq (i := i) h
  refine ⟨env, a, hl.trans hn.2, ?_⟩
  have hu : State.sleepsEnd { s with
      env := env, pos := { s.pos with frame := some i, framePos := .beginning, acquiring := a },
      history := grantEvents s.params ++ quietEvents s ++ s.history } := ⟨hn.1, hl.trans hn.2⟩
  rw [runFrame_begun h, hb, frameBody, openFrame_eq hu, State.awake_of (by exact hn.1) exchange]
  cases ht : s.params.transport <;> simp [openEvents, grantEvents, ht]

/-- A frame whose quiet time has not passed: one clock sample, and the frame waits (R135). -/
theorem runFrame_waits {i : Instr} {exchange after : State → State} {s : State}
    (h : (quietTime s).1 = false) :
    ∃ env, runFrame i exchange after s =
      { s with env := env, pos := { s.pos with frame := some i, framePos := .beginning },
               history := .clock s.nowMs.1 :: s.history } := by
  have hq : (quietTime (s.holdFrame i)).1 = false := by rw [quietTime_holdFrame]; exact h
  have hac : s.pos.acquiring = false := by
    cases hac : s.pos.acquiring with
    | false => rfl
    | true => simp [quietTime, hac] at h
  obtain ⟨e, -, -, hqe⟩ := quietTime_eq (s.holdFrame i)
  refine ⟨e, ?_⟩
  unfold runFrame
  simp only [hq]
  rw [hqe, State.nowMs_fst_holdFrame]
  simp [State.holdFrame, hac]

/-- A frame whose SPI bus is not granted: the frame waits in SPI_BEGIN (R82). -/
theorem runFrame_blocked {i : Instr} {exchange after : State → State} {s : State}
    (hq : (quietTime s).1 = true) (hg : (acquireBus (quietTime s).2).1 = false) :
    ∃ env, runFrame i exchange after s =
      { s with env := env,
               pos := { s.pos with frame := some i, framePos := .beginning, acquiring := true },
               history := quietEvents s ++ s.history } := by
  have hq' : (quietTime (s.holdFrame i)).1 = true := by rw [quietTime_holdFrame]; exact hq
  have hg' : (acquireBus (quietTime (s.holdFrame i)).2).1 = false := by
    rw [acquireBus_holdFrame]; exact hg
  obtain ⟨e, -, -, hqe⟩ := quietTime_eq (s.holdFrame i)
  have ht : (quietTime (s.holdFrame i)).2.params.transport = .hwspi := by
    cases ht : (quietTime (s.holdFrame i)).2.params.transport with
    | hwspi => rfl
    | gpio => simp [acquireBus, ht] at hg'
  unfold runFrame
  simp only [hq', if_true, hg']
  generalize hw : (quietTime (s.holdFrame i)).2 = w at *
  have hx : acquireBus w = (w.spiGrant.1, { w.spiGrant.2 with pos.acquiring := !w.spiGrant.1 }) := by
    simp [acquireBus, ht]
  rw [hx] at hg' ⊢
  have hgf : w.spiGrant.1 = false := hg'
  refine ⟨w.spiGrant.2.env, ?_⟩
  have := State.eq_of_fields (s := w) (t := w.spiGrant.2) (by simp) (by simp) (by simp) (by simp)
    (by simp) (by simp)
  rw [this, State.spiGrant_history]
  simp only [hgf]
  rw [hqe, State.nowMs_fst_holdFrame]
  cases hac : s.pos.acquiring <;> simp [State.holdFrame, quietEvents, hac]

end Sys2Proof.Machine
end

