-- ==== Sys2Proof/Laws/Frames.lean ====
section
/-! SUPPORT. The three kinds of frame, whole: a configuration frame, the type frame and the read frame,
each from a state where it does not wait and its sleeps end. -/

namespace Sys2Proof.Machine

/-- From the first byte on: the exchange and the end of a frame whose body changes only the registers, the
bit and byte temporaries, the environment and the history. P says which registers and which byte pairs
the body can leave. -/
theorem runFrame_body {i : Instr} {exchange after : State → State} {s : State}
    {P : Regs → List (Byte × Byte) → Prop} {tail : List Event}
    (hn : s.sleepsEnd) (h : s.ready) (hl : s.linesIdle)
    (he : ∀ u : State, u.params = s.params → u.regs = s.regs → u.pos.byteIdx = 0 → u.sleepsEnd →
      u.bus.clk = true → u.bus.cmd = true →
      ∃ env sh bi by_ dc g pairs, env.sleepsLeft = none ∧ P g pairs ∧ exchange u =
        { u with env := env, regs := g,
                 pos := { u.pos with shiftIn := sh, bitIdx := bi, byteIdx := by_, doCont := dc },
                 history := (pairs.flatMap (byteEvents s.params)).reverse ++ u.history })
    (ha : ∀ (u : State) (g : Regs) (pairs : List (Byte × Byte)) (v : Nat), P g pairs → u.sleepsEnd →
      u.regs = { g with lastRelease := v } →
      ∃ fp, after u = { u with pos := { u.pos with framePos := fp }, history := tail ++ u.history }) :
    ∃ v g pairs, v < 2 ^ s.params.clockBits ∧ P g pairs ∧
      FrameLeaves s (runFrame i exchange after s) ∧
      (runFrame i exchange after s).env.sleepsLeft = none ∧
      (runFrame i exchange after s).regs = { g with lastRelease := v } ∧
      (runFrame i exchange after s).history =
        tail ++ (frameEvents s.params pairs v).reverse ++ quietEvents s ++ s.history := by
  obtain ⟨env, a, hel, hr⟩ := runFrame_ready (i := i) (exchange := exchange) (after := after) hn h
  have hbus : s.bus = ⟨true, true, true⟩ := hl
  obtain ⟨env', sh, bi, by_, dc, g, pairs, hel', hP, hx⟩ := he
    { s with env := env, bus := { s.bus with att := false },
             pos := { s.pos with frame := some i, framePos := .bytes, byteIdx := 0, acquiring := a },
             history := (openEvents s.params).reverse ++ quietEvents s ++ s.history }
    rfl rfl rfl ⟨hn.1, hel⟩ (by simp [hbus]) (by simp [hbus])
  obtain ⟨env'', v, hel'', hv, hend⟩ := endFrame_eq
    { s with env := env', bus := { s.bus with att := false }, regs := g,
             pos := { s.pos with frame := some i, framePos := .bytes, byteIdx := by_, acquiring := a,
                                 shiftIn := sh, bitIdx := bi, doCont := dc },
             history := (pairs.flatMap (byteEvents s.params)).reverse ++
               ((openEvents s.params).reverse ++ quietEvents s ++ s.history) }
  refine ⟨v, g, pairs, hv, hP, ?_⟩
  rw [hr, hx, State.awake_of (by exact hn.1) endFrame, hend, State.awake_of (by exact hn.1) after]
  obtain ⟨fp, haft⟩ := ha
    { s with env := env'', bus := { s.bus with att := true }, regs := { g with lastRelease := v },
             pos := { s.pos with frame := some i, framePos := .ending, byteIdx := 0, acquiring := a,
                                 shiftIn := sh, bitIdx := bi, doCont := dc },
             history := (closeEvents s.params v).reverse ++
               ((pairs.flatMap (byteEvents s.params)).reverse ++
               ((openEvents s.params).reverse ++ quietEvents s ++ s.history)) } g pairs v hP
    ⟨hn.1, hel''.trans hel'⟩ rfl
  rw [haft, State.awake_of (by exact hn.1) leaveFrame]
  refine ⟨⟨rfl, rfl, rfl, ?_, _, bi, sh, dc, rfl⟩, hel''.trans hel', rfl, ?_⟩
  · simp [leaveFrame, hbus, Bus.reset]
  · simp [leaveFrame, frameEvents]

/-- SEND_CMD, whole (R137): its request bytes exchanged, the replies discarded, SLEEP_MS(read_delay). -/
theorem sendCmd_done {i : Instr} {s : State} (hn : s.sleepsEnd) (h : s.ready) (hl : s.linesIdle) :
    ∃ rs v, rs.length = (frameBytes s.params.catalog i).length ∧ v < 2 ^ s.params.clockBits ∧
      FrameLeaves s (sendCmd i s) ∧ (sendCmd i s).env.sleepsLeft = none ∧
      (sendCmd i s).regs = { s.regs with lastRelease := v } ∧
      (sendCmd i s).history = [.sleepMs s.regs.readDelay] ++
        (frameEvents s.params ((frameBytes s.params.catalog i).zip rs) v).reverse ++ quietEvents s ++
          s.history := by
  obtain ⟨v, g, pairs, hv, ⟨rfl, rs, hlen, rfl⟩, hf, he, hg, hh⟩ := runFrame_body (i := i)
    (exchange := exchangeBytes discardReply (frameBytes s.params.catalog i))
    (after := interCommandDelay) (tail := [.sleepMs s.regs.readDelay])
    (P := fun g pairs => g = s.regs ∧ ∃ rs, rs.length = (frameBytes s.params.catalog i).length ∧
      pairs = (frameBytes s.params.catalog i).zip rs) hn h hl
    (by
      intro u hp hr hi hu hc hd
      obtain ⟨rs, env, sh, bi, hlen, he, hx⟩ := exchangeBytes_eq (use := discardReply)
        (f := fun _ _ _ g => g) (fun _ _ _ => rfl) (frameBytes s.params.catalog i) u hu hc hd
      refine ⟨env, sh, bi, u.pos.byteIdx + (frameBytes s.params.catalog i).length, u.pos.doCont, s.regs, _,
        he, ⟨rfl, rs, hlen, rfl⟩, ?_⟩
      rw [hx, foldReplies_discard, hr, hp])
    (by
      rintro u g pairs v ⟨rfl, -⟩ hu hg
      refine ⟨.sleeping, ?_⟩
      rw [interCommandDelay, State.sleepMs, State.sleep_free (by exact hu)]
      simp [State.emit, hg])
  exact ⟨rs, v, hlen, hv, hf, he, hg, hh⟩

/-- TYPE_FRAME, whole (R161): the reply byte at TYPE_INDEX is stored, and no sleep follows. -/
theorem typeFrame_done {i : Instr} {s : State} (hn : s.sleepsEnd) (h : s.ready) (hl : s.linesIdle) :
    ∃ rs v, rs.length = (frameBytes s.params.catalog i).length ∧ v < 2 ^ s.params.clockBits ∧
      FrameLeaves s (typeFrame i s) ∧ (typeFrame i s).env.sleepsLeft = none ∧
      (typeFrame i s).regs = { s.regs with
        controllerType := rs.getD s.params.typeIndex s.regs.controllerType, lastRelease := v } ∧
      (typeFrame i s).history =
        (frameEvents s.params ((frameBytes s.params.catalog i).zip rs) v).reverse ++ quietEvents s ++
          s.history := by
  obtain ⟨v, g, pairs, hv, ⟨rs, hlen, rfl, rfl⟩, hf, he, hg, hh⟩ := runFrame_body (i := i)
    (exchange := exchangeBytes storeTypeCode (frameBytes s.params.catalog i))
    (after := id) (tail := [])
    (P := fun g pairs => ∃ rs, rs.length = (frameBytes s.params.catalog i).length ∧
      g = { s.regs with controllerType := rs.getD s.params.typeIndex s.regs.controllerType } ∧
      pairs = (frameBytes s.params.catalog i).zip rs) hn h hl
    (by
      intro u hp hr hi hu hc hd
      obtain ⟨rs, env, sh, bi, hlen, he, hx⟩ := exchangeBytes_eq (use := storeTypeCode)
        (f := fun p i r g => if i = p.typeIndex then { g with controllerType := r } else g)
        storeTypeCode_regs (frameBytes s.params.catalog i) u hu hc hd
      refine ⟨env, sh, bi, u.pos.byteIdx + (frameBytes s.params.catalog i).length, u.pos.doCont, _, _,
        he, ⟨rs, hlen, rfl, rfl⟩, ?_⟩
      rw [hx, foldReplies_type, hr, hp, hi]
      simp)
    (fun u _ _ _ _ _ _ => ⟨u.pos.framePos, rfl⟩)
  exact ⟨rs, v, hlen, hv, hf, he, hg, by simpa [typeFrame] using hh⟩

/-- The request bytes of a read frame: the read command, and the continuation if it is taken (R205). -/
def readBytes (p : Params) (a b : Byte) (cont : Bool) : List Byte :=
  readRequest p.catalog a b ++ if cont then contRequest p.catalog else []

/-- Bytes stored from index i in two pieces are stored in one. -/
theorem storeFrom_append (i : Nat) (xs ys : List Byte) (m : Memory) :
    storeFrom i (xs ++ ys) m = storeFrom (i + xs.length) ys (storeFrom i xs m) := by
  induction xs generalizing i m with
  | nil => rfl
  | cons x xs ih => simp [storeFrom, ih, Nat.add_assoc, Nat.add_comm 1]

/-- The continuation is taken when RB[1] is FULL_MODE (R93). -/
theorem continueRead_full {t : State} (h : (t.modeByte == t.params.fullMode) = true) :
    continueRead t = exchangeBytes storeReply (contRequest t.params.catalog) { t with pos.doCont := true } := by
  simp [continueRead, h]

/-- The continuation is not taken when RB[1] is any other byte (R93). -/
theorem continueRead_short {t : State} (h : (t.modeByte == t.params.fullMode) = false) :
    continueRead t = { t with pos.doCont := false } := by
  simp [continueRead, h]

/-- READ_FRAME, whole (R205): the reply bytes are stored from RB[0] on, and the continuation is exchanged
exactly when RB[1], after the short reply, is FULL_MODE. -/
theorem readFrame_done {i : Instr} {a b : Byte} {s : State} (hn : s.sleepsEnd) (h : s.ready)
    (hl : s.linesIdle) :
    ∃ rs cont v, rs.length = (readBytes s.params a b cont).length ∧ v < 2 ^ s.params.clockBits ∧
      cont = (Memory.read (storeFrom 0 (rs.take s.params.catalog.shortLen) s.regs.rb) 1 ==
        s.params.fullMode) ∧
      FrameLeaves s (readFrame i a b s) ∧ (readFrame i a b s).env.sleepsLeft = none ∧
      (readFrame i a b s).regs = { s.regs with rb := storeFrom 0 rs s.regs.rb, lastRelease := v } ∧
      (readFrame i a b s).history =
        (frameEvents s.params ((readBytes s.params a b cont).zip rs) v).reverse ++ quietEvents s ++
          s.history := by
  have hreq : (readRequest s.params.catalog a b).length = s.params.catalog.shortLen := by
    simp [readRequest]
  obtain ⟨v, g, pairs, hv, ⟨rs, cont, hlen, hcont, rfl, rfl⟩, hf, he, hg, hh⟩ := runFrame_body (i := i)
    (exchange := fun t =>
      (exchangeBytes storeReply (readRequest s.params.catalog a b) t).awake continueRead)
    (after := id) (tail := [])
    (P := fun g pairs => ∃ rs cont, rs.length = (readBytes s.params a b cont).length ∧
      cont = (Memory.read (storeFrom 0 (rs.take s.params.catalog.shortLen) s.regs.rb) 1 ==
        s.params.fullMode) ∧
      g = { s.regs with rb := storeFrom 0 rs s.regs.rb } ∧
      pairs = (readBytes s.params a b cont).zip rs) hn h hl
    (by
      intro u hp hr hi hu hc hd
      obtain ⟨rs, env, sh, bi, hlen, he, hx⟩ := exchangeBytes_eq (use := storeReply)
        (f := fun _ i r g => { g with rb := g.rb.write i r })
        storeReply_regs (readRequest s.params.catalog a b) u hu hc hd
      rw [foldReplies_store, hr, hp, hi] at hx
      have hmode : Memory.read (storeFrom 0 rs s.regs.rb) 1 =
          Memory.read (storeFrom 0 (rs.take s.params.catalog.shortLen) s.regs.rb) 1 := by
        rw [List.take_of_length_le (by omega)]
      dsimp only
      generalize exchangeBytes storeReply (readRequest s.params.catalog a b) u = w at hx ⊢
      have hwn : w.sleepsEnd := by rw [hx]; exact ⟨hu.1, he⟩
      rw [State.awake_of hwn.1]
      have hwp : w.params = s.params := by rw [hx]
      have hwm : w.modeByte = Memory.read (storeFrom 0 rs s.regs.rb) 1 := by rw [hx]; rfl
      cases hcase : (Memory.read (storeFrom 0 rs s.regs.rb) 1 == s.params.fullMode) with
      | false =>
        refine ⟨env, sh, bi, 0 + (readRequest s.params.catalog a b).length, false, _, _,
          he, ⟨rs, false, ?_, ?_, rfl, rfl⟩, ?_⟩
        · simp [readBytes, hlen]
        · rw [← hmode, hcase]
        · rw [continueRead_short (by rw [hwp, hwm, hcase]), hx]
          simp [readBytes, hp]
      | true =>
        obtain ⟨rs', env', sh', bi', hlen', he', hx'⟩ := exchangeBytes_eq (use := storeReply)
          (f := fun _ i r g => { g with rb := g.rb.write i r })
          storeReply_regs (contRequest w.params.catalog) { w with pos.doCont := true }
          hwn (by rw [hx]; exact hc) (by rw [hx]; exact hd)
        rw [hwp] at hlen'
        refine ⟨env', sh', bi', 0 + (readRequest s.params.catalog a b).length +
          (contRequest s.params.catalog).length, true, _, _, he', ⟨rs ++ rs', true, ?_, ?_, rfl, rfl⟩, ?_⟩
        · simp [readBytes, hlen, hlen']
        · rw [List.take_append_of_le_length (by omega), ← hmode, hcase]
        · rw [continueRead_full (by rw [hwp, hwm, hcase]), hx', foldReplies_store, storeFrom_append, hx]
          simp [readBytes, List.zip_append hlen.symm, hlen, hp])
    (fun u _ _ _ _ _ _ => ⟨u.pos.framePos, rfl⟩)
  exact ⟨rs, cont, v, hlen, hv, hcont, hf, he, hg, by simpa [readFrame] using hh⟩

end Sys2Proof.Machine
end

