-- ==== Sys2Proof/Laws/Lines.lean ====
section
/-! SUPPORT. The law of the bus lines over the events of a byte exchange and of a frame: a frame takes
idle lines to idle lines (R131, R138). -/

namespace Sys2Proof.Machine

theorem Lines.run_append (t : Transport) (l : Lines) (xs ys : List Event) :
    Lines.run t l (xs ++ ys) = (Lines.run t l xs).bind (fun k => Lines.run t k ys) := by
  induction xs generalizing l with
  | nil => rfl
  | cons e xs ih =>
    simp only [List.cons_append, Lines.run]
    cases l.next t e with
    | none => rfl
    | some k => exact ih k

/-- The lines while attention is down, between two byte exchanges. -/
def Lines.opened (t : Transport) : Lines := ⟨true, true, false, decide (t = .hwspi), 0⟩

/-- One bit period, with CMD at any level before it. -/
theorem Lines.run_bit (p : Params) (o r : Byte) (j k : Nat) (c : Bool) :
    Lines.run .gpio ⟨true, c, false, false, k⟩ (gpioBitEvents p o r j) =
      some ⟨true, o.getLsbD j, false, false, (k + 1) % 8⟩ := by
  simp [gpioBitEvents, Lines.run, Lines.next]

/-- A byte exchange leaves the lines as it found them. -/
theorem Lines.run_byte (p : Params) (b : Byte × Byte) :
    Lines.run p.transport (Lines.opened p.transport) (byteEvents p b) =
      some (Lines.opened p.transport) := by
  cases ht : p.transport with
  | hwspi => simp [byteEvents, ht, Lines.run, Lines.next, Lines.opened]
  | gpio =>
    have h8 : List.range 8 = [0, 1, 2, 3, 4, 5, 6, 7] := rfl
    simp [byteEvents, ht, Lines.opened, h8, Lines.run_append, Lines.run_bit, Lines.run, Lines.next]

/-- A frame takes idle lines to idle lines. -/
theorem Lines.run_frame (p : Params) (pairs : List (Byte × Byte)) (v : Nat) :
    Lines.run p.transport .idle (frameEvents p pairs v) = some .idle := by
  have hopen : Lines.run p.transport .idle (openEvents p) = some (Lines.opened p.transport) := by
    cases ht : p.transport <;>
      simp [openEvents, ht, Lines.run, Lines.next, Lines.idle, Lines.opened]
  have hbody : Lines.run p.transport (Lines.opened p.transport) (pairs.flatMap (byteEvents p)) =
      some (Lines.opened p.transport) := by
    induction pairs with
    | nil => rfl
    | cons b pairs ih => simp [Lines.run_append, Lines.run_byte, ih]
  have hclose : Lines.run p.transport (Lines.opened p.transport) (closeEvents p v) = some .idle := by
    cases ht : p.transport <;>
      simp [closeEvents, ht, Lines.run, Lines.next, Lines.idle, Lines.opened]
  simp [frameEvents, Lines.run_append, hopen, hbody, hclose]

/-- Events that may come between frames leave idle lines idle. -/
theorem Lines.run_between (t : Transport) (es : List Event)
    (h : ∀ e ∈ es, (∃ v, e = .clock v) ∨ (∃ n, e = .sleepMs n) ∨ (∃ w, e = .hostIssue w) ∨
      (∃ r, e = .hostDone r)) : Lines.run t .idle es = some .idle := by
  induction es with
  | nil => rfl
  | cons e es ih =>
    have he := h e (by simp)
    have hes := ih fun d hd => h d (by simp [hd])
    have hn : Lines.idle.next t e = some .idle := by
      rcases he with ⟨v, rfl⟩ | ⟨n, rfl⟩ | ⟨w, rfl⟩ | ⟨r, rfl⟩ <;> simp [Lines.next, Lines.idle]
    simp [Lines.run, hn, hes]

end Sys2Proof.Machine
end

