-- ==== Sys2Proof/Laws/Sleeps.lean ====
section
/-! SUPPORT. What a part of a frame can do whatever the time port does with its sleeps (R290), and how a run
whose time port leaves the block asleep compares with the same run under a time port that ends every
sleep: until it falls asleep it is the same run, and asleep it has a part of that run's history. -/

namespace Sys2Proof.Machine

/-! ## The levels that events drive -/

/-- The levels after one event. -/
def Bus.follow (b : Bus) : Event → Bus
  | .pin l level => b.drive l level
  | .hostIssue _ => b
  | .hostDone _ => b
  | .sample _ => b
  | .spiBegin => b
  | .spiEnd => b
  | .spiXfer _ _ => b
  | .clock _ => b
  | .sleepUs _ => b
  | .sleepMs _ => b

/-- The law of the lines keeps the levels that the events drive. -/
theorem Lines.next_bus {t : Transport} {l k : Lines} {e : Event} (h : l.next t e = some k) :
    k.bus = l.bus.follow e := by
  cases e with
  | pin p b =>
    cases p <;> cases b <;> simp only [Lines.next, Option.ite_none_right_eq_some, Option.some.injEq] at h <;>
      (obtain ⟨-, rfl⟩ := h; rfl)
  | hostIssue w => simp only [Lines.next, Option.ite_none_right_eq_some, Option.some.injEq] at h
                   obtain ⟨-, rfl⟩ := h; rfl
  | hostDone r => simp only [Lines.next, Option.ite_none_right_eq_some, Option.some.injEq] at h
                  obtain ⟨-, rfl⟩ := h; rfl
  | _ =>
    simp only [Lines.next, Option.ite_none_right_eq_some, Option.some.injEq] at h
    obtain ⟨-, rfl⟩ := h; rfl

theorem Lines.run_bus {t : Transport} {es : List Event} {l k : Lines} (h : Lines.run t l es = some k) :
    k.bus = es.foldl Bus.follow l.bus := by
  induction es generalizing l with
  | nil => simp only [Lines.run, Option.some.injEq] at h; subst h; rfl
  | cons e es ih =>
    simp only [Lines.run] at h
    cases hn : l.next t e with
    | none => simp [hn] at h
    | some l' =>
      simp only [hn] at h
      rw [ih h, Lines.next_bus hn]; rfl

/-- A part of a lawful history is lawful. -/
theorem Lines.run_front {t : Transport} {l k : Lines} {xs ys : List Event}
    (h : Lines.run t l (xs ++ ys) = some k) : ∃ j, Lines.run t l xs = some j := by
  rw [Lines.run_append] at h
  cases hx : Lines.run t l xs with
  | none => simp [hx] at h
  | some j => exact ⟨j, rfl⟩

/-! ## What a part of a frame can do -/

/-- What the time port did with the sleeps of the events es, between a and b. -/
def SleepsRan (a b : State) (es : List Event) : Prop :=
  (b.pos.asleep = false → b.env.sleepsLeft = a.env.sleepsLeft.map (· - sleepCount es) ∧
    ∀ n, a.env.sleepsLeft = some n → sleepCount es ≤ n) ∧
  (b.pos.asleep = true → a.env.sleepsLeft = some (sleepCount es - 1) ∧ 1 ≤ sleepCount es ∧
    ∃ e rest, es = rest ++ [e] ∧ e.isSleep = true)

/-- From a to b a part of a frame ran, whole or up to a sleep that does not end. -/
structure Part (a b : State) : Prop where
  params  : b.params = a.params
  port    : b.port = a.port
  refused : b.refused = a.refused
  pos     : ∃ fp byi bi sh dc, b.pos = { a.pos with
    framePos := fp, byteIdx := byi, bitIdx := bi, shiftIn := sh, doCont := dc, asleep := b.pos.asleep }
  regs    : ∃ m c v, b.regs = { a.regs with rb := m, controllerType := c, lastRelease := v } ∧
    (v = a.regs.lastRelease ∨ v < 2 ^ a.params.clockBits)
  clock   : a.env.clockCount ≤ b.env.clockCount
  events  : ∃ es, b.history = es.reverse ++ a.history ∧ b.bus = es.foldl Bus.follow a.bus ∧
    SleepsRan a b es

theorem sleepCount_append (xs ys : List Event) : sleepCount (xs ++ ys) = sleepCount xs + sleepCount ys :=
  List.countP_append

theorem Part.trans {a b c : State} (hb : b.pos.asleep = false) (h : Part a b) (k : Part b c) :
    Part a c where
  params := k.params.trans h.params
  port := k.port.trans h.port
  refused := k.refused.trans h.refused
  pos := by
    obtain ⟨_, _, _, _, _, h⟩ := h.pos
    obtain ⟨fp, byi, bi, sh, dc, k⟩ := k.pos
    refine ⟨fp, byi, bi, sh, dc, ?_⟩
    rw [k, h]
  regs := by
    obtain ⟨m, c, v, h1, hv⟩ := h.regs
    obtain ⟨m', c', v', k1, kv⟩ := k.regs
    refine ⟨m', c', v', by rw [k1, h1], ?_⟩
    rcases kv with kv | kv
    · rw [kv, h1]; exact hv
    · exact .inr (by rw [← h.params]; exact kv)
  clock := h.clock.trans k.clock
  events := by
    obtain ⟨xs, h1, h2, h3, -⟩ := h.events
    obtain ⟨ys, k1, k2, k3, k4⟩ := k.events
    obtain ⟨h3, h4⟩ := h3 hb
    refine ⟨xs ++ ys, by rw [k1, h1]; simp, by rw [k2, h2, List.foldl_append], ?_, ?_⟩
    · intro hc
      obtain ⟨k3, k4⟩ := k3 hc
      rw [h3] at k3 k4
      cases hl : a.env.sleepsLeft with
      | none => simp [k3, hl]
      | some n =>
        have := h4 n hl
        have := k4 (n - sleepCount xs) (by simp [hl])
        rw [sleepCount_append]
        refine ⟨by rw [k3, hl]; simp only [Option.map_some]; congr 1; omega, fun m hm => ?_⟩
        injection hm with hm
        omega
    · intro hc
      obtain ⟨k3, k4, e, rest, k5, k6⟩ := k4 hc
      rw [h3] at k3
      rw [sleepCount_append]
      refine ⟨?_, by omega, e, xs ++ rest, by rw [k5]; simp, k6⟩
      cases hl : a.env.sleepsLeft with
      | none => simp [hl] at k3
      | some n =>
        have := h4 n hl
        simp only [hl, Option.map_some, Option.some.injEq] at k3
        congr 1
        omega

/-- A part that sleeps not: what it may change. -/
structure Plain (a b : State) : Prop where
  params  : b.params = a.params
  port    : b.port = a.port
  refused : b.refused = a.refused
  pos     : ∃ fp byi bi sh dc, b.pos = { a.pos with
    framePos := fp, byteIdx := byi, bitIdx := bi, shiftIn := sh, doCont := dc }
  regs    : ∃ m c v, b.regs = { a.regs with rb := m, controllerType := c, lastRelease := v } ∧
    (v = a.regs.lastRelease ∨ v < 2 ^ a.params.clockBits)
  clock   : a.env.clockCount ≤ b.env.clockCount
  left    : b.env.sleepsLeft = a.env.sleepsLeft
  events  : ∃ es, b.history = es.reverse ++ a.history ∧ b.bus = es.foldl Bus.follow a.bus ∧
    sleepCount es = 0

theorem Plain.asleep {a b : State} (h : Plain a b) : b.pos.asleep = a.pos.asleep := by
  obtain ⟨_, _, _, _, _, h⟩ := h.pos
  rw [h]

theorem Plain.part {a b : State} (ha : a.pos.asleep = false) (h : Plain a b) : Part a b where
  params := h.params
  port := h.port
  refused := h.refused
  pos := by
    obtain ⟨fp, byi, bi, sh, dc, hp⟩ := h.pos
    exact ⟨fp, byi, bi, sh, dc, by rw [h.asleep]; exact hp⟩
  regs := h.regs
  clock := h.clock
  events := by
    obtain ⟨es, h1, h2, h3⟩ := h.events
    refine ⟨es, h1, h2, fun _ => ⟨?_, fun n _ => by omega⟩, fun hb => ?_⟩
    · rw [h.left, h3]
      cases a.env.sleepsLeft <;> rfl
    · rw [h.asleep, ha] at hb
      exact absurd hb (by simp)

/-- Under a time port that ends every sleep nothing falls asleep. -/
theorem Part.free {a b : State} (h : Part a b) (hn : a.env.sleepsLeft = none) :
    b.pos.asleep = false ∧ b.env.sleepsLeft = none := by
  obtain ⟨es, -, -, h1, h2⟩ := h.events
  have hb : b.pos.asleep = false := by
    cases hb : b.pos.asleep with
    | false => rfl
    | true => rw [hn] at h2; exact absurd (h2 hb).1 (by simp)
  exact ⟨hb, by rw [(h1 hb).1, hn]; rfl⟩

/-- An awake part slept no more often than the time port ends sleeps. -/
theorem Part.count {a b : State} {n : Nat} (h : Part a b) (hb : b.pos.asleep = false)
    (hn : a.env.sleepsLeft = some n) : sleepCount b.history ≤ sleepCount a.history + n := by
  obtain ⟨es, he, -, hs, -⟩ := h.events
  have h1 := (hs hb).2 n hn
  have h2 : sleepCount es.reverse = sleepCount es := by simp [sleepCount]
  rw [he, sleepCount_append, h2]
  omega

/-! ## Side by side with a time port that ends every sleep -/

/-- b is what a part does from a, and b' what it does from a under a time port that ends every sleep. -/
structure Follows (a b b' : State) : Prop where
  part  : Part a b
  free  : Part a.freed b'
  same  : b.pos.asleep = false → b' = b.freed
  ahead : b.pos.asleep = true → ∃ es, b'.history = es ++ b.history

/-- f is a part of a frame. -/
def FramePart (f : State → State) : Prop :=
  ∀ a : State, a.pos.asleep = false → Follows a (f a) (f a.freed)

/-- One part after another, begun only when the sleeps of the first have ended. -/
theorem Follows.andThen {a b b' : State} {g g' : State → State} (h : Follows a b b')
    (hgg : b.pos.asleep = false → g = g') (hg : FramePart g') :
    Follows a (b.awake g) (b'.awake g') := by
  have hb' := h.free.free rfl
  rw [State.awake_of hb'.1]
  cases hb : b.pos.asleep with
  | false =>
    have e := h.same hb
    rw [State.awake_of hb, hgg hb, e]
    have k := hg b hb
    exact ⟨h.part.trans hb k.part, (e ▸ h.free).trans (by rw [← e]; exact hb'.1) k.free, k.same, k.ahead⟩
  | true =>
    rw [State.awake_asleep hb]
    have k := (hg b' hb'.1).part
    refine ⟨h.part, h.free.trans hb'.1 k, fun hf => by simp [hb] at hf, fun _ => ?_⟩
    obtain ⟨es, h1⟩ := h.ahead hb
    obtain ⟨fs, h2, -⟩ := k.events
    exact ⟨fs.reverse ++ es, by rw [h2, h1]; simp⟩

theorem FramePart.andThen {f g : State → State} (hf : FramePart f) (hg : FramePart g) :
    FramePart (fun s => (f s).awake g) :=
  fun a ha => (hf a ha).andThen (fun _ => rfl) hg

theorem FramePart.congr {f g : State → State} (hf : FramePart f)
    (h : ∀ a : State, a.pos.asleep = false → g a = f a) : FramePart g := fun a ha => by
  rw [h a ha, h a.freed ha]
  exact hf a ha

/-- A part that sleeps not. -/
theorem FramePart.plain {f : State → State} (hp : ∀ a, Plain a (f a)) (hf : ∀ a : State, f a.freed = (f a).freed) :
    FramePart f := fun a ha =>
  ⟨(hp a).part ha, (hp a.freed).part ha, fun _ => hf a, fun h => by
    rw [(hp a).asleep, ha] at h
    exact absurd h (by simp)⟩

/-- A part that begins with one that sleeps not. -/
theorem FramePart.after_plain {f g : State → State} (hp : ∀ a, Plain a (f a))
    (hf : ∀ a : State, f a.freed = (f a).freed) (hg : FramePart g) : FramePart (fun s => g (f s)) :=
  ((FramePart.plain hp hf).andThen hg).congr fun a ha => by
    rw [State.awake_of ((hp a).asleep.trans ha)]

/-- One sleep. -/
theorem FramePart.sleep {e : State → Event} (he : ∀ a, (e a).isSleep = true)
    (hp : ∀ a : State, e a.freed = e a) : FramePart (fun s => s.sleep (e s)) := by
  have part : ∀ a : State, a.pos.asleep = false → Part a (a.sleep (e a)) := by
    intro a ha
    have hc : sleepCount [e a] = 1 := by simp [sleepCount, he]
    have hf : Bus.follow a.bus (e a) = a.bus := by
      have := he a
      cases h : e a <;> simp_all [Event.isSleep, Bus.follow]
    refine ⟨rfl, rfl, rfl, ⟨_, _, _, _, _, rfl⟩, ⟨_, _, _, rfl, .inl rfl⟩, le_rfl, [e a], rfl, hf.symm, ?_, ?_⟩
    · intro h
      rw [hc]
      refine ⟨rfl, fun n hn => ?_⟩
      have : ¬ (a.env.sleepsLeft == some 0) = true := by
        intro h0; rw [State.sleep] at h; simp only [h0] at h; exact absurd h (by simp)
      rw [hn] at this
      cases n with
      | zero => simp at this
      | succ n => omega
    · intro h
      refine ⟨?_, by omega, e a, [], rfl, he a⟩
      have : (a.env.sleepsLeft == some 0) = true := h
      rw [hc]
      simpa using this
  intro a ha
  refine ⟨part a ha, part a.freed ha, fun h => ?_, fun _ => ⟨[], ?_⟩⟩
  · have h0 : (a.env.sleepsLeft == some 0) = false := h
    show a.freed.sleep (e a.freed) = (a.sleep (e a)).freed
    rw [hp]
    unfold State.sleep State.freed
    simp only [h0]
    rfl
  · show (a.freed.sleep (e a.freed)).history = _
    rw [hp]; rfl

/-! ## The parts of a frame -/

theorem Plain.of_pos {a : State} {fp : FramePos} {byi : Nat} {bi : Fin 8} {sh : Byte} {dc : Bool} :
    Plain a { a with pos := { a.pos with
      framePos := fp, byteIdx := byi, bitIdx := bi, shiftIn := sh, doCont := dc } } :=
  ⟨rfl, rfl, rfl, ⟨fp, byi, bi, sh, dc, rfl⟩, ⟨_, _, _, rfl, .inl rfl⟩, le_rfl, rfl, [], rfl, rfl, rfl⟩

theorem Plain.of_pins {a : State} (ps : List (Line × Bool)) :
    Plain a (ps.foldl (fun s p => s.pin p.1 p.2) a) := by
  induction ps generalizing a with
  | nil => exact .of_pos
  | cons p ps ih =>
    have h := ih (a := a.pin p.1 p.2)
    obtain ⟨es, h1, h2, h3⟩ := h.events
    exact ⟨h.params, h.port, h.refused, h.pos, h.regs, h.clock, h.left, .pin p.1 p.2 :: es,
      by rw [List.foldl_cons, h1]; simp, by rw [List.foldl_cons, h2]; rfl,
      by simpa [sleepCount, Event.isSleep] using h3⟩

theorem Plain.trans {a b c : State} (h : Plain a b) (k : Plain b c) : Plain a c where
  params := k.params.trans h.params
  port := k.port.trans h.port
  refused := k.refused.trans h.refused
  pos := by
    obtain ⟨_, _, _, _, _, h⟩ := h.pos
    obtain ⟨fp, byi, bi, sh, dc, k⟩ := k.pos
    exact ⟨fp, byi, bi, sh, dc, by rw [k, h]⟩
  regs := by
    obtain ⟨m, c, v, h1, hv⟩ := h.regs
    obtain ⟨m', c', v', k1, kv⟩ := k.regs
    refine ⟨m', c', v', by rw [k1, h1], ?_⟩
    rcases kv with kv | kv
    · rw [kv, h1]; exact hv
    · exact .inr (by rw [← h.params]; exact kv)
  clock := h.clock.trans k.clock
  left := k.left.trans h.left
  events := by
    obtain ⟨xs, h1, h2, h3⟩ := h.events
    obtain ⟨ys, k1, k2, k3⟩ := k.events
    exact ⟨xs ++ ys, by rw [k1, h1]; simp, by rw [k2, h2, List.foldl_append],
      by rw [sleepCount_append, h3, k3]⟩

theorem framePart_id : FramePart id := .plain (fun _ => .of_pos) (fun _ => rfl)

theorem framePart_sleepUs (f : Params → Nat) : FramePart (fun s => s.sleepUs (f s.params)) :=
  .sleep (fun _ => rfl) (fun _ => rfl)

/-- The sample of a bit period and the clock's rise. -/
def bitSampled (s : State) : State :=
  State.pin .clk true { s.sampleDat.2 with
    pos.shiftIn := setBit s.pos.shiftIn s.pos.bitIdx s.sampleDat.1 }

theorem State.sampleDat_freed (s : State) :
    s.freed.sampleDat = (s.sampleDat.1, s.sampleDat.2.freed) := by
  unfold State.sampleDat State.freed
  dsimp only
  cases s.env.datIn <;> rfl

theorem State.spiExchange_freed (o : Byte) (s : State) :
    s.freed.spiExchange o = ((s.spiExchange o).1, (s.spiExchange o).2.freed) := by
  unfold State.spiExchange State.freed
  dsimp only
  cases s.env.spiIn <;> rfl

theorem State.nowMs_freed (s : State) : s.freed.nowMs = (s.nowMs.1, s.nowMs.2.freed) := by
  unfold State.nowMs State.freed State.clockAt
  dsimp only
  cases s.env.clockIn <;> rfl

theorem State.spiGrant_freed (s : State) : s.freed.spiGrant = (s.spiGrant.1, s.spiGrant.2.freed) := by
  unfold State.spiGrant State.freed
  dsimp only
  cases s.env.grantIn with
  | nil => dsimp only; split <;> rfl
  | cons b bs => cases b <;> rfl

theorem bitSampled_plain (a : State) : Plain a (bitSampled a) := by
  unfold bitSampled
  rw [State.sampleDat_eq]
  refine ⟨rfl, rfl, rfl, ⟨_, _, _, _, _, rfl⟩, ⟨_, _, _, rfl, .inl rfl⟩, ?_, ?_,
    [.sample a.sampleDat.1, .pin .clk true], rfl, rfl, rfl⟩
  · simp
  · simp

theorem framePart_bitRise : FramePart bitRise :=
  (FramePart.after_plain (f := bitSampled) bitSampled_plain
    (fun a => by unfold bitSampled; rw [State.sampleDat_freed]; rfl)
    (framePart_sleepUs (·.tClkUs))).congr fun a _ => by
      unfold bitRise bitSampled
      dsimp only
      rw [State.sampleDat_eq]
      rfl

theorem framePart_bitPeriod (o : Byte) : FramePart (bitPeriod o) :=
  (((FramePart.after_plain (f := fun s => (s.pin .cmd (o.getLsbD s.pos.bitIdx.val)).pin .clk false)
    (fun a => Plain.of_pins [(.cmd, o.getLsbD a.pos.bitIdx.val), (.clk, false)]) (fun _ => rfl)
    (framePart_sleepUs (·.tClkUs))).andThen framePart_bitRise).andThen
    (.plain (f := nextBit) (fun _ => .of_pos) fun _ => rfl)).congr fun _ _ => rfl

theorem framePart_iterate {f : State → State} (hf : FramePart f) (n : Nat) :
    FramePart ((State.awake f)^[n]) := by
  induction n with
  | zero => exact framePart_id
  | succ n ih =>
    exact (ih.andThen hf).congr fun a _ => by rw [Function.iterate_succ_apply']

theorem framePart_xferGpio (o : Byte) : FramePart (fun s => (xferGpio o s).2) :=
  ((FramePart.after_plain (f := fun s => { s with pos.shiftIn := 0x00, pos.bitIdx := 0 })
    (fun _ => .of_pos) (fun _ => rfl) (framePart_iterate (framePart_bitPeriod o) 8)).andThen
    (FramePart.after_plain (f := fun s => s.pin .cmd true) (fun _ => Plain.of_pins [(.cmd, true)])
      (fun _ => rfl) (framePart_sleepUs (·.tByteUs)))).congr fun _ _ => rfl

theorem framePart_xferHwspi (o : Byte) : FramePart (fun s => (xferHwspi o s).2) :=
  (FramePart.after_plain (f := fun s => (s.spiExchange o).2)
    (fun a => by
      rw [State.spiExchange_eq]
      refine ⟨rfl, rfl, rfl, ⟨_, _, _, _, _, rfl⟩, ⟨_, _, _, rfl, .inl rfl⟩, ?_, ?_,
        [.spiXfer o (a.spiExchange o).1], rfl, rfl, rfl⟩
      · simp
      · simp)
    (fun a => by rw [State.spiExchange_freed]) (framePart_sleepUs (·.tByteUs))).congr fun a _ => by
      unfold xferHwspi
      simp

theorem framePart_xfer (o : Byte) : FramePart (fun s => (xfer o s).2) := fun a ha => by
  cases ht : a.params.transport with
  | gpio =>
    have h1 : xfer o a = xferGpio o a := by simp [xfer, ht]
    have h2 : xfer o a.freed = xferGpio o a.freed := by simp [xfer, State.freed, ht]
    dsimp only
    rw [h1, h2]
    exact framePart_xferGpio o a ha
  | hwspi =>
    have h1 : xfer o a = xferHwspi o a := by simp [xfer, ht]
    have h2 : xfer o a.freed = xferHwspi o a.freed := by simp [xfer, State.freed, ht]
    dsimp only
    rw [h1, h2]
    exact framePart_xferHwspi o a ha

/-- A byte exchange that stays awake answers the same byte under either time port. -/
theorem xfer_freed (o : Byte) {a : State} (ha : a.pos.asleep = false)
    (h : (xfer o a).2.pos.asleep = false) : (xfer o a.freed).1 = (xfer o a).1 := by
  have hs : (xfer o a.freed).2 = (xfer o a).2.freed := (framePart_xfer o a ha).same h
  cases ht : a.params.transport with
  | gpio =>
    have h1 : xfer o a = xferGpio o a := by simp [xfer, ht]
    have h2 : xfer o a.freed = xferGpio o a.freed := by simp [xfer, State.freed, ht]
    have e1 : (xfer o a).1 = (xfer o a).2.pos.shiftIn := by rw [h1]; rfl
    have e2 : (xfer o a.freed).1 = (xfer o a.freed).2.pos.shiftIn := by rw [h2]; rfl
    rw [e1, e2, hs]; rfl
  | hwspi =>
    have h1 : xfer o a = xferHwspi o a := by simp [xfer, ht]
    have h2 : xfer o a.freed = xferHwspi o a.freed := by simp [xfer, State.freed, ht]
    rw [h1, h2]
    unfold xferHwspi
    rw [State.spiExchange_freed]

/-- What a frame does with a reply byte writes registers only. -/
def StoresReply (use : Nat → Byte → State → State) : Prop :=
  (∀ i r a, Plain a (use i r a)) ∧ ∀ i r (a : State), use i r a.freed = (use i r a).freed

theorem storesReply_of {use : Nat → Byte → State → State} {f : Params → Nat → Byte → Regs → Regs}
    (h : ∀ i r t, use i r t = { t with regs := f t.params i r t.regs })
    (hf : ∀ p i r (g : Regs), ∃ m c, f p i r g = { g with rb := m, controllerType := c }) :
    StoresReply use := by
  refine ⟨fun i r a => ?_, fun i r a => by rw [h, h]; rfl⟩
  rw [h]
  obtain ⟨m, c, hf⟩ := hf a.params i r a.regs
  exact ⟨rfl, rfl, rfl, ⟨_, _, _, _, _, rfl⟩, ⟨m, c, _, hf, .inl rfl⟩, le_rfl, rfl, [], rfl, rfl, rfl⟩

theorem storesReply_discard : StoresReply discardReply :=
  storesReply_of (f := fun _ _ _ g => g) (fun _ _ _ => rfl) (fun _ _ _ g => ⟨g.rb, g.controllerType, rfl⟩)

theorem storesReply_store : StoresReply storeReply :=
  storesReply_of (f := fun _ i r g => { g with rb := g.rb.write i r }) storeReply_regs
    (fun _ _ _ g => ⟨_, g.controllerType, rfl⟩)

theorem storesReply_type : StoresReply storeTypeCode :=
  storesReply_of (f := fun p i r g => if i = p.typeIndex then { g with controllerType := r } else g)
    storeTypeCode_regs (fun p i r g => by
      split
      · exact ⟨g.rb, r, rfl⟩
      · exact ⟨g.rb, g.controllerType, rfl⟩)

theorem framePart_exchange {use : Nat → Byte → State → State} (hu : StoresReply use) (os : List Byte) :
    FramePart (exchangeBytes use os) := by
  induction os with
  | nil => exact framePart_id
  | cons o os ih =>
    intro a ha
    simp only [exchangeBytes]
    refine (framePart_xfer o a ha).andThen (fun h => ?_) ?_
    · rw [xfer_freed o ha h]; rfl
    · exact FramePart.after_plain
        (f := fun t => { use a.freed.pos.byteIdx (xfer o a.freed).1 t with
          pos.byteIdx := a.freed.pos.byteIdx + 1 })
        (fun b => (hu.1 _ _ b).trans .of_pos) (fun b => by rw [hu.2]; rfl) ih

theorem framePart_continueRead : FramePart continueRead := fun a ha => by
  have hc : (continueRead a = { a with pos.doCont := false } ∧
        continueRead a.freed = { a.freed with pos.doCont := false }) ∨
      (continueRead a = exchangeBytes storeReply (contRequest a.params.catalog) { a with pos.doCont := true } ∧
        continueRead a.freed = exchangeBytes storeReply (contRequest a.params.catalog)
          { a.freed with pos.doCont := true }) := by
    cases h : (a.modeByte == a.params.fullMode) with
    | false => exact .inl ⟨continueRead_short h, continueRead_short h⟩
    | true => exact .inr ⟨continueRead_full h, continueRead_full h⟩
  rcases hc with ⟨h1, h2⟩ | ⟨h1, h2⟩
  · rw [h1, h2]
    exact FramePart.plain (f := fun s => { s with pos.doCont := false }) (fun _ => .of_pos) (fun _ => rfl) a ha
  · rw [h1, h2]
    exact FramePart.after_plain (f := fun s => { s with pos.doCont := true }) (fun _ => .of_pos)
      (fun _ => rfl) (framePart_exchange storesReply_store _) a ha

theorem framePart_openFrame : FramePart openFrame :=
  ((FramePart.after_plain (f := fun s => s.pin .att false) (fun _ => Plain.of_pins [(.att, false)])
    (fun _ => rfl) (framePart_sleepUs (·.tAttUs))).andThen
    (FramePart.plain (f := fun t => { t with pos.framePos := .bytes, pos.byteIdx := 0 })
      (fun _ => .of_pos) (fun _ => rfl))).congr fun _ _ => rfl

theorem framePart_endFrame : FramePart endFrame := by
  refine .plain (fun a => ?_) (fun a => ?_)
  · unfold endFrame
    dsimp only
    have hr : ∀ b : State, Plain b (releaseBus b) := by
      intro b
      unfold releaseBus
      split
      · exact .of_pos
      · exact ⟨rfl, rfl, rfl, ⟨_, _, _, _, _, rfl⟩, ⟨_, _, _, rfl, .inl rfl⟩, le_rfl, rfl, [.spiEnd],
          rfl, rfl, rfl⟩
    have h0 : Plain a (State.pin .att true { a with pos.framePos := .ending, pos.byteIdx := 0 }) :=
      Plain.trans .of_pos
        (.of_pins (a := { a with pos.framePos := .ending, pos.byteIdx := 0 }) [(.att, true)])
    have hpl := h0.trans (hr _)
    generalize releaseBus _ = b at hpl ⊢
    have hn : Plain b { b.nowMs.2 with regs.lastRelease := b.nowMs.1 } := by
      rw [State.nowMs_eq]
      exact ⟨rfl, rfl, rfl, ⟨_, _, _, _, _, rfl⟩, ⟨_, _, _, rfl, .inr (State.nowMs_lt b)⟩,
        (State.nowMs_clock b).1, by simp, [.clock b.nowMs.1], rfl, rfl, rfl⟩
    exact hpl.trans hn
  · unfold endFrame
    dsimp only
    have : releaseBus (State.pin .att true { a.freed with pos.framePos := .ending, pos.byteIdx := 0 }) =
        (releaseBus (State.pin .att true { a with pos.framePos := .ending, pos.byteIdx := 0 })).freed := by
      unfold releaseBus State.freed
      dsimp only
      cases h : a.params.transport <;> simp [h, State.pin, State.emit]
    rw [this, State.nowMs_freed]
    rfl

theorem framePart_interCommandDelay : FramePart interCommandDelay :=
  (FramePart.after_plain (f := fun s => { s with pos.framePos := .sleeping }) (fun _ => .of_pos)
    (fun _ => rfl) (FramePart.sleep (e := fun s => .sleepMs s.regs.readDelay) (fun _ => rfl)
      (fun _ => rfl))).congr fun _ _ => rfl

/-! ## The registers that a part writes -/

/-- The registers after a part that may have been cut short. -/
theorem awake_regs {α : Type} (P : Regs → α) {f : State → State} (h : ∀ s, P (f s).regs = P s.regs)
    (s : State) : P (s.awake f).regs = P s.regs := by
  unfold State.awake; split
  · rfl
  · exact h s

theorem bitRise_regs (s : State) : (bitRise s).regs = s.regs := by
  unfold bitRise; simp

theorem bitPeriod_regs (o : Byte) (s : State) : (bitPeriod o s).regs = s.regs := by
  unfold bitPeriod
  exact (awake_regs id (f := nextBit) (fun _ => rfl) _).trans (awake_regs id bitRise_regs _)

theorem iterate_regs {f : State → State} (h : ∀ s, (f s).regs = s.regs) (n : Nat) (s : State) :
    ((State.awake f)^[n] s).regs = s.regs := by
  induction n with
  | zero => rfl
  | succ n ih => rw [Function.iterate_succ_apply', ← ih]; exact awake_regs id h _

/-- A byte exchange writes no register. -/
theorem xfer_regs (o : Byte) (s : State) : (xfer o s).2.regs = s.regs := by
  unfold xfer
  split
  · exact (awake_regs id (f := fun t => (t.pin .cmd true).sleepUs t.params.tByteUs) (fun _ => rfl) _).trans
      (iterate_regs (bitPeriod_regs o) 8 _)
  · unfold xferHwspi; simp

/-- What every reply byte leaves of the registers, a list of bytes leaves. -/
theorem exchangeBytes_regs {α : Type} (P : Regs → α) {use : Nat → Byte → State → State}
    (hu : ∀ i r t, P (use i r t).regs = P t.regs) (os : List Byte) (s : State) :
    P (exchangeBytes use os s).regs = P s.regs := by
  induction os generalizing s with
  | nil => rfl
  | cons o os ih =>
    simp only [exchangeBytes]
    refine (awake_regs P (fun t => ?_) _).trans (by rw [xfer_regs])
    exact (ih _).trans (hu _ _ t)

theorem openFrame_regs (s : State) : (openFrame s).regs = s.regs := by
  unfold openFrame
  exact awake_regs id (f := fun t => { t with pos.framePos := .bytes, pos.byteIdx := 0 }) (fun _ => rfl) _

theorem endFrame_regs (s : State) : ∃ v, (endFrame s).regs = { s.regs with lastRelease := v } := by
  obtain ⟨env, v, -, -, h⟩ := endFrame_eq s
  exact ⟨v, by rw [h]⟩

/-- What the exchange leaves of the registers but for last_release, the whole frame leaves. -/
theorem frameBody_regs {α : Type} (P : Regs → α) (hP : ∀ (g : Regs) v, P { g with lastRelease := v } = P g)
    {exchange after : State → State} (he : ∀ s, P (exchange s).regs = P s.regs)
    (ha : ∀ s, (after s).regs = s.regs) (s : State) :
    P (frameBody exchange after s).regs = P s.regs := by
  unfold frameBody
  refine (awake_regs P (f := leaveFrame) (fun _ => rfl) _).trans ((awake_regs P (fun t => congrArg P (ha t)) _).trans
    ((awake_regs P (fun t => ?_) _).trans ((awake_regs P he _).trans (by rw [openFrame_regs]))))
  obtain ⟨v, h⟩ := endFrame_regs t
  rw [h, hP]

/-- The reply bytes stored so far keep RB in canonical form and below its length. -/
theorem exchangeBytes_rb (n : Nat) (os : List Byte) (s : State)
    (hw : s.regs.rb.wf) (hl : ∀ c ∈ s.regs.rb, c.1 < n) (hi : s.pos.byteIdx + os.length ≤ n) :
    (exchangeBytes storeReply os s).regs.rb.wf ∧ (∀ c ∈ (exchangeBytes storeReply os s).regs.rb, c.1 < n) ∧
      ((exchangeBytes storeReply os s).pos.asleep = false →
        (exchangeBytes storeReply os s).pos.byteIdx = s.pos.byteIdx + os.length) := by
  induction os generalizing s with
  | nil => exact ⟨hw, hl, fun _ => rfl⟩
  | cons o os ih =>
    simp only [List.length_cons] at hi
    simp only [exchangeBytes]
    have hx := xfer_regs o s
    cases ha : (xfer o s).2.pos.asleep with
    | true =>
      rw [State.awake_asleep ha, hx]
      exact ⟨hw, hl, fun h => by simp [ha] at h⟩
    | false =>
      rw [State.awake_of ha]
      have hr := storeReply_regs s.pos.byteIdx (xfer o s).1 (xfer o s).2
      obtain ⟨h1, h2, h3⟩ := ih
        { storeReply s.pos.byteIdx (xfer o s).1 (xfer o s).2 with pos.byteIdx := s.pos.byteIdx + 1 }
        (by rw [hr, hx]; exact Memory.wf_write hw _ _) (by rw [hr, hx]; exact Memory.lt_write hl (by omega) _)
        (by show s.pos.byteIdx + 1 + os.length ≤ n; omega)
      exact ⟨h1, h2, fun h => by rw [h3 h]; show s.pos.byteIdx + 1 + os.length = _; simp; omega⟩

/-! ## The whole frame -/

theorem State.holdFrame_freed (i : Instr) (s : State) : s.freed.holdFrame i = (s.holdFrame i).freed := rfl

theorem quietTime_freed (s : State) : quietTime s.freed = ((quietTime s).1, (quietTime s).2.freed) := by
  unfold quietTime
  have h : s.freed.pos = s.pos := rfl
  rw [h]
  split
  · rfl
  · rw [State.nowMs_freed]; rfl

theorem acquireBus_freed (s : State) : acquireBus s.freed = ((acquireBus s).1, (acquireBus s).2.freed) := by
  unfold acquireBus
  have h : s.freed.params = s.params := rfl
  rw [h]
  split
  · rfl
  · rw [State.spiGrant_freed]; rfl

theorem State.ready_freed {s : State} (h : s.ready) : s.freed.ready := by
  unfold State.ready
  rw [quietTime_freed]
  dsimp only
  rw [acquireBus_freed]
  exact h

theorem begun_freed (i : Instr) (s : State) : begun i s.freed = (begun i s).freed := by
  unfold begun
  rw [State.holdFrame_freed, quietTime_freed]
  dsimp only
  rw [acquireBus_freed]

/-- No sleep comes before the fall of attention. -/
theorem begun_count {i : Instr} {s : State} (h : s.ready) :
    sleepCount (begun i s).history = sleepCount s.history := by
  obtain ⟨env, a, -, -, -, -, hb⟩ := begun_eq (i := i) h
  have hpre : sleepCount (grantEvents s.params ++ quietEvents s) = 0 := by
    unfold grantEvents quietEvents
    cases s.params.transport <;> cases s.pos.acquiring <;> rfl
  rw [hb, sleepCount_append, hpre, Nat.zero_add]

/-- A frame up to where it is over. -/
theorem framePart_body {exchange after : State → State} (he : FramePart exchange) (ha : FramePart after) :
    FramePart (fun s => (((openFrame s).awake exchange).awake endFrame).awake after) :=
  ((framePart_openFrame.andThen he).andThen framePart_endFrame).andThen ha

/-- What a frame that is not waiting does whatever the time port does with its sleeps: it stays awake and is
the same frame as under a time port that ends every sleep, or it is a part of that frame up to a sleep. -/
theorem runFrame_follows {i : Instr} {exchange after : State → State} {s : State} (h : s.ready)
    (hw : s.pos.asleep = false) (he : FramePart exchange) (ha : FramePart after) :
    ((runFrame i exchange after s).pos.asleep = false →
      runFrame i exchange after s.freed = (runFrame i exchange after s).freed ∧
      ∀ n, s.env.sleepsLeft = some n →
        sleepCount (runFrame i exchange after s).history ≤ sleepCount s.history + n) ∧
    ((runFrame i exchange after s).pos.asleep = true →
      Part (begun i s) (runFrame i exchange after s) ∧
      ∃ es, (runFrame i exchange after s.freed).history = es ++ (runFrame i exchange after s).history) := by
  rw [runFrame_begun h, runFrame_begun (State.ready_freed h), begun_freed, ← begun_count (i := i) h]
  obtain ⟨hb, hl⟩ : (begun i s).pos.asleep = false ∧ (begun i s).env.sleepsLeft = s.env.sleepsLeft := by
    obtain ⟨env, a, hl, -, -, -, hb⟩ := begun_eq (i := i) h
    rw [hb]; exact ⟨hw, hl⟩
  have hf := framePart_body he ha (begun i s) hb
  have hfree := hf.free.free rfl
  unfold frameBody
  dsimp only at hf hfree
  generalize (((openFrame (begun i s)).awake exchange).awake endFrame).awake after = b at hf ⊢
  generalize (((openFrame (begun i s).freed).awake exchange).awake endFrame).awake after = b' at hf hfree ⊢
  rw [State.awake_of hfree.1]
  cases hs : b.pos.asleep with
  | false =>
    rw [State.awake_of hs]
    refine ⟨fun _ => ⟨by rw [hf.same hs]; rfl, fun n hn => hf.part.count hs (hl.trans hn)⟩, fun h1 => ?_⟩
    have : b.pos.asleep = true := h1
    simp [hs] at this
  | true =>
    rw [State.awake_asleep hs]
    exact ⟨fun h1 => by simp [hs] at h1, fun _ => ⟨hf.part, hf.ahead hs⟩⟩

end Sys2Proof.Machine
end

