-- ==== Sys2Proof/Laws/Wire.lean ====
section
/-! SUPPORT. Everything a step of a wire frame can do, said once: exec of a frame waits, or runs the
whole frame, or stops in a sleep of it. The later laws cite these three shapes and never unfold a frame. -/

namespace Sys2Proof.Machine

/-- The frame waits in BEGIN_FRAME: at most one clock sample, and nothing else but the position's own
record of the waiting frame. -/
def Waits (i : Instr) (s t : State) : Prop :=
  ∃ env a es, t = { s with env := env,
                           pos := { s.pos with frame := some i, framePos := .beginning, acquiring := a },
                           history := es ++ s.history } ∧
    (a = true → s.params.transport = .hwspi) ∧ (es = [] ∨ ∃ v, es = [.clock v])

/-- The request bytes of a frame whose continuation is taken or not. -/
def sentBytes (p : Params) : Instr → Bool → List Byte
  | .read a b, cont => readBytes p a b cont
  | .readCont a b, cont => readBytes p a b cont
  | .enterConfig, _ => p.catalog.enterConfig
  | .queryType, _ => p.catalog.queryType
  | .setMode, _ => p.catalog.setMode
  | .enableVibration, _ => p.catalog.enableVibration
  | .enablePressure, _ => p.catalog.enablePressure
  | .exitConfig, _ => p.catalog.exitConfig
  | .init _ _, _ => []
  | .poll _ _, _ => []
  | .isPressed _, _ => []
  | .wasPressed _, _ => []
  | .wasReleased _, _ => []
  | .wasToggled _, _ => []
  | .anyToggled, _ => []
  | .analog _, _ => []
  | .readType, _ => []

/-- What a frame writes besides last_release: RB for a read, controller_type for the type query. -/
def framedRegs (p : Params) (g : Regs) (rs : List Byte) : Instr → Regs
  | .read _ _ => { g with rb := storeFrom 0 rs g.rb }
  | .readCont _ _ => { g with rb := storeFrom 0 rs g.rb }
  | .queryType => { g with controllerType := rs.getD p.typeIndex g.controllerType }
  | .enterConfig => g
  | .setMode => g
  | .enableVibration => g
  | .enablePressure => g
  | .exitConfig => g
  | .init _ _ => g
  | .poll _ _ => g
  | .isPressed _ => g
  | .wasPressed _ => g
  | .wasReleased _ => g
  | .wasToggled _ => g
  | .anyToggled => g
  | .analog _ => g
  | .readType => g

/-- The frame runs whole: request bytes against reply bytes, the events of one frame after at most one
clock sample and before at most one sleep, and the registers it writes. -/
def Runs (i : Instr) (s t : State) : Prop :=
  ∃ rs cont v pre tail, rs.length = (sentBytes s.params i cont).length ∧
    v < 2 ^ s.params.clockBits ∧ FrameLeaves s t ∧
    t.regs = { framedRegs s.params s.regs rs i with lastRelease := v } ∧
    t.history = tail ++ (frameEvents s.params ((sentBytes s.params i cont).zip rs) v).reverse ++ pre ++
      s.history ∧
    (tail = [] ∨ ∃ n, tail = [.sleepMs n]) ∧ (pre = [] ∨ ∃ c, pre = [.clock c])

/-- The frame stops in a sleep (R290): FrameStopped, with RB in canonical form, the clock not gone back, and
the history a part of that of the whole frame under a time port that ends every sleep. -/
structure Stops (i : Instr) (s t : State) : Prop where
  stopped : FrameStopped i s t
  rb      : s.rbOk → t.rbOk
  release : t.regs.lastRelease = s.regs.lastRelease ∨ t.regs.lastRelease < 2 ^ s.params.clockBits
  acq     : t.pos.acquiring = true → s.params.transport = .gpio ∧ s.pos.acquiring = true
  clock   : s.env.clockCount ≤ t.env.clockCount
  events  : ∃ es : List Event, t.history = es.reverse ++ s.history ∧ t.bus = es.foldl Bus.follow s.bus
  whole   : ∃ u es, exec i s.freed = .next u ∧ Runs i s.freed u ∧ u.history = es ++ t.history

theorem quietEvents_cases (s : State) : quietEvents s = [] ∨ ∃ c, quietEvents s = [.clock c] := by
  unfold quietEvents
  split
  · exact .inl rfl
  · exact .inr ⟨_, rfl⟩

/-- A frame that is not ready waits. -/
theorem runFrame_notReady {i : Instr} {exchange after : State → State} {s : State} (h : ¬ s.ready)
    (ha : s.pos.acquiring = true → s.params.transport = .hwspi) :
    Waits i s (runFrame i exchange after s) := by
  cases hq : (quietTime s).1 with
  | false =>
    obtain ⟨env, he⟩ := runFrame_waits (i := i) (exchange := exchange) (after := after) hq
    exact ⟨env, s.pos.acquiring, [.clock s.nowMs.1], by rw [he]; rfl, ha, .inr ⟨_, rfl⟩⟩
  | true =>
    have hg : (acquireBus (quietTime s).2).1 = false := by
      cases hg : (acquireBus (quietTime s).2).1 with
      | false => rfl
      | true => exact absurd ⟨hq, hg⟩ h
    obtain ⟨env, he⟩ := runFrame_blocked (i := i) (exchange := exchange) (after := after) hq hg
    refine ⟨env, true, quietEvents s, he, fun _ => ?_, quietEvents_cases s⟩
    obtain ⟨e, -, -, hqe⟩ := quietTime_eq s
    cases ht : s.params.transport with
    | hwspi => rfl
    | gpio => rw [hqe] at hg; simp [acquireBus, ht] at hg

/-- Every wire frame, from idle lines and awake, waits, or runs whole under a time port that ends every
sleep. -/
theorem exec_wire_free {i : Instr} {s : State} (hi : i.isWire = true) (hok : s.params.ok = true)
    (hl : s.linesIdle) (ha : s.pos.acquiring = true → s.params.transport = .hwspi) (hn : s.sleepsEnd) :
    ∃ t, exec i s = .next t ∧ (s.ready → Runs i s t ∧ t.env.sleepsLeft = none) ∧
      (¬ s.ready → Waits i s t) := by
  have hsend : ∀ j : Instr, (∀ c, sentBytes s.params j c = frameBytes s.params.catalog j) →
      (∀ rs, framedRegs s.params s.regs rs j = s.regs) →
      (s.ready → Runs j s (sendCmd j s) ∧ (sendCmd j s).env.sleepsLeft = none) ∧
      (¬ s.ready → Waits j s (sendCmd j s)) := by
    intro j hb hg
    refine ⟨fun h => ?_, fun h => runFrame_notReady h ha⟩
    obtain ⟨rs, v, hlen, hv, hf, he, hr, hh⟩ := sendCmd_done (i := j) hn h hl
    exact ⟨⟨rs, false, v, quietEvents s, [.sleepMs s.regs.readDelay], by rw [hb]; exact hlen, hv, hf,
      by rw [hg]; exact hr, by rw [hb]; exact hh, .inr ⟨_, rfl⟩, quietEvents_cases s⟩, he⟩
  have hread : ∀ (j : Instr) (a b : Byte), (∀ c, sentBytes s.params j c = readBytes s.params a b c) →
      (∀ rs, framedRegs s.params s.regs rs j = { s.regs with rb := storeFrom 0 rs s.regs.rb }) →
      (s.ready → Runs j s (readFrame j a b s) ∧ (readFrame j a b s).env.sleepsLeft = none) ∧
      (¬ s.ready → Waits j s (readFrame j a b s)) := by
    intro j a b hb hg
    refine ⟨fun h => ?_, fun h => runFrame_notReady h ha⟩
    obtain ⟨rs, cont, v, hlen, hv, -, hf, he, hr, hh⟩ := readFrame_done (i := j) (a := a) (b := b) hn h hl
    exact ⟨⟨rs, cont, v, quietEvents s, [], by rw [hb]; exact hlen, hv, hf, by rw [hg]; exact hr,
      by rw [hb]; simpa using hh, .inl rfl, quietEvents_cases s⟩, he⟩
  cases i with
  | enterConfig =>
    exact ⟨_, rfl, by simpa [wireFrame, hok] using hsend _ (fun _ => rfl) (fun _ => rfl)⟩
  | setMode =>
    exact ⟨_, rfl, by simpa [wireFrame, hok] using hsend _ (fun _ => rfl) (fun _ => rfl)⟩
  | enableVibration =>
    exact ⟨_, rfl, by simpa [wireFrame, hok] using hsend _ (fun _ => rfl) (fun _ => rfl)⟩
  | enablePressure =>
    exact ⟨_, rfl, by simpa [wireFrame, hok] using hsend _ (fun _ => rfl) (fun _ => rfl)⟩
  | exitConfig =>
    exact ⟨_, rfl, by simpa [wireFrame, hok] using hsend _ (fun _ => rfl) (fun _ => rfl)⟩
  | read a b =>
    exact ⟨_, rfl, by simpa [wireFrame, hok] using hread _ a b (fun _ => rfl) (fun _ => rfl)⟩
  | readCont a b =>
    exact ⟨_, rfl, by simpa [wireFrame, hok] using hread _ a b (fun _ => rfl) (fun _ => rfl)⟩
  | queryType =>
    refine ⟨_, rfl, ?_, ?_⟩
    · intro h
      obtain ⟨rs, v, hlen, hv, hf, he, hr, hh⟩ := typeFrame_done (i := .queryType) hn h hl
      simp only [wireFrame, hok, if_true]
      exact ⟨⟨rs, false, v, quietEvents s, [], hlen, hv, hf, hr, hh, .inl rfl,
        quietEvents_cases s⟩, he⟩
    · intro h
      simp only [wireFrame, hok, if_true]
      exact runFrame_notReady h ha
  | _ => simp [Instr.isWire] at hi

/-- The registers that an exchange of frame i may write. -/
def Writes (i : Instr) (exchange : State → State) : Prop :=
  ∀ s, ∃ m c, (exchange s).regs = { s.regs with rb := m, controllerType := c } ∧
    ((∀ a b, i ≠ .read a b ∧ i ≠ .readCont a b) → m = s.regs.rb) ∧
    (i ≠ .queryType → c = s.regs.controllerType)

/-- A wire frame is a frame whose exchange and whose end are parts. -/
structure FrameShape (i : Instr) (s : State) (exchange after : State → State) : Prop where
  runs   : exec i s = .next (runFrame i exchange after s)
  free   : exec i s.freed = .next (runFrame i exchange after s.freed)
  body   : FramePart exchange
  tail   : FramePart after
  quiet  : ∀ t, (after t).regs = t.regs
  writes : Writes i exchange
  rb     : ∀ t : State, t.params = s.params → t.pos.byteIdx = 0 → t.pos.asleep = false → t.rbOk →
    (exchange t).regs.rb.wf ∧ ∀ c ∈ (exchange t).regs.rb, c.1 < s.params.rbLen

theorem frame_shape {i : Instr} {s : State} (hi : i.isWire = true) (hok : s.params.ok = true) :
    ∃ exchange after, FrameShape i s exchange after := by
  have hlen : s.params.rbLen = s.params.catalog.shortLen + s.params.catalog.contLen := by
    unfold Params.ok at hok
    simp at hok
    exact hok.2
  have hdiscard : ∀ (os : List Byte) (t : State), (exchangeBytes discardReply os t).regs = t.regs :=
    fun os t => exchangeBytes_regs id (fun _ _ _ => rfl) os t
  have htype : ∀ (os : List Byte) (t : State), ∃ c, (exchangeBytes storeTypeCode os t).regs =
      { t.regs with controllerType := c } := by
    intro os t
    have hu : ∀ i r t, (fun g : Regs => { g with controllerType := 0 }) (storeTypeCode i r t).regs =
        (fun g : Regs => { g with controllerType := 0 }) t.regs := by
      intro i r t; rw [storeTypeCode_regs]; dsimp only; split <;> rfl
    have h := exchangeBytes_regs (fun g : Regs => { g with controllerType := 0 }) hu os t
    refine ⟨(exchangeBytes storeTypeCode os t).regs.controllerType, ?_⟩
    generalize (exchangeBytes storeTypeCode os t).regs = g at h ⊢
    generalize t.regs = g' at h ⊢
    cases g; cases g'
    simp_all
  have hsend : ∀ j : Instr, exec j s = .next (wireFrame (sendCmd j) s) →
      exec j s.freed = .next (wireFrame (sendCmd j) s.freed) → ∃ exchange after, FrameShape j s exchange after := by
    intro j h1 h2
    refine ⟨_, _, by rw [h1]; simp only [wireFrame, hok, if_true]; rfl,
      by rw [h2]; have hok' : s.freed.params.ok = true := hok
         simp only [wireFrame, hok', if_true]; rfl,
      framePart_exchange storesReply_discard _, framePart_interCommandDelay, fun _ => rfl, ?_, ?_⟩
    · intro t
      exact ⟨t.regs.rb, t.regs.controllerType, hdiscard _ t, fun _ => rfl, fun _ => rfl⟩
    · intro t hp _ _ hrb
      rw [hdiscard, ← hp]; exact hrb
  have hread : ∀ (j : Instr) (a b : Byte), (j = .read a b ∨ j = .readCont a b) →
      exec j s = .next (wireFrame (readFrame j a b) s) →
      exec j s.freed = .next (wireFrame (readFrame j a b) s.freed) →
      ∃ exchange after, FrameShape j s exchange after := by
    intro j a b hj h1 h2
    have hstore : ∀ (os : List Byte) (t : State), (exchangeBytes storeReply os t).regs =
        { t.regs with rb := (exchangeBytes storeReply os t).regs.rb } := by
      intro os t
      have h := exchangeBytes_regs (use := storeReply) (fun g : Regs => { g with rb := [] })
        (fun _ _ _ => rfl) os t
      generalize (exchangeBytes storeReply os t).regs = g at h ⊢
      generalize t.regs = g' at h ⊢
      cases g; cases g'
      simp_all
    refine ⟨fun t => (exchangeBytes storeReply (readRequest s.params.catalog a b) t).awake continueRead, id,
      by rw [h1]; simp only [wireFrame, hok, if_true]; rfl,
      by rw [h2]; have hok' : s.freed.params.ok = true := hok
         simp only [wireFrame, hok', if_true]; rfl,
      (framePart_exchange storesReply_store _).andThen framePart_continueRead, framePart_id, fun _ => rfl,
      ?_, ?_⟩
    · intro t
      have hc : ∀ u, ∃ m, (continueRead u).regs = { u.regs with rb := m } := by
        intro u
        cases h : (u.modeByte == u.params.fullMode) with
        | false => rw [continueRead_short h]; exact ⟨u.regs.rb, rfl⟩
        | true => rw [continueRead_full h]; exact ⟨_, hstore _ _⟩
      have ha : ∃ m, (State.awake continueRead (exchangeBytes storeReply
          (readRequest s.params.catalog a b) t)).regs = { t.regs with rb := m } := by
        unfold State.awake
        split
        · exact ⟨_, hstore _ _⟩
        · obtain ⟨m, hm⟩ := hc (exchangeBytes storeReply (readRequest s.params.catalog a b) t)
          exact ⟨m, by rw [hm, hstore]⟩
      obtain ⟨m, hm⟩ := ha
      refine ⟨m, t.regs.controllerType, hm, fun hn => ?_, fun _ => rfl⟩
      rcases hj with rfl | rfl
      · exact absurd rfl (hn a b).1
      · exact absurd rfl (hn a b).2
    · intro t hp hb hw hrb
      have hreq : (readRequest s.params.catalog a b).length = s.params.catalog.shortLen := by
        simp [readRequest]
      obtain ⟨r1, r2, r3⟩ := exchangeBytes_rb s.params.rbLen (readRequest s.params.catalog a b) t hrb.1
        (by rw [← hp]; exact hrb.2) (by omega)
      have hpar := ((framePart_exchange storesReply_store (readRequest s.params.catalog a b)) t hw).part.params
      generalize exchangeBytes storeReply (readRequest s.params.catalog a b) t = u at r1 r2 r3 hpar ⊢
      unfold State.awake
      split
      · exact ⟨r1, r2⟩
      · next hu =>
        have hu' : u.pos.asleep = false := by simpa using hu
        cases h : (u.modeByte == u.params.fullMode) with
        | false => rw [continueRead_short h]; exact ⟨r1, r2⟩
        | true =>
          rw [continueRead_full h]
          obtain ⟨q1, q2, -⟩ := exchangeBytes_rb s.params.rbLen (contRequest u.params.catalog)
            { u with pos.doCont := true } r1 r2 (by
              show u.pos.byteIdx + _ ≤ _
              rw [r3 hu', hb, hreq, hpar, hp, hlen]
              simp [contRequest])
          exact ⟨q1, q2⟩
  cases i with
  | enterConfig => exact hsend _ rfl rfl
  | setMode => exact hsend _ rfl rfl
  | enableVibration => exact hsend _ rfl rfl
  | enablePressure => exact hsend _ rfl rfl
  | exitConfig => exact hsend _ rfl rfl
  | read a b => exact hread _ a b (.inl rfl) rfl rfl
  | readCont a b => exact hread _ a b (.inr rfl) rfl rfl
  | queryType =>
    refine ⟨_, _, by simp only [exec, execQueryType, wireFrame, hok, if_true]; rfl,
      by have hok' : s.freed.params.ok = true := hok
         simp only [exec, execQueryType, wireFrame, hok', if_true]; rfl,
      framePart_exchange storesReply_type _, framePart_id, fun _ => rfl, ?_, ?_⟩
    · intro t
      obtain ⟨c, hc⟩ := htype (frameBytes s.params.catalog .queryType) t
      exact ⟨t.regs.rb, c, hc, fun _ => rfl, fun h => absurd rfl h⟩
    · intro t hp _ _ hrb
      obtain ⟨c, hc⟩ := htype (frameBytes s.params.catalog .queryType) t
      rw [hc, ← hp]; exact hrb
  | _ => simp [Instr.isWire] at hi

/-- A frame that stops in a sleep. -/
theorem FrameShape.stops {i : Instr} {s : State} {exchange after : State → State}
    (k : FrameShape i s exchange after) (h : s.ready) (hw : s.pos.asleep = false)
    (hrun : Runs i s.freed (runFrame i exchange after s.freed))
    (ha : (runFrame i exchange after s).pos.asleep = true) : Stops i s (runFrame i exchange after s) := by
  obtain ⟨hpart, es, hes⟩ := (runFrame_follows (i := i) h hw k.body k.tail).2 ha
  obtain ⟨env, acq, hl, hck, hq1, hq2, hb⟩ := begun_eq (i := i) h
  have hbody := runFrame_begun (i := i) (exchange := exchange) (after := after) h
  have hwr : ∀ {α : Type} (P : Regs → α), (∀ (g : Regs) v, P { g with lastRelease := v } = P g) →
      (∀ t, P (exchange t).regs = P t.regs) → P (runFrame i exchange after s).regs = P s.regs := by
    intro α P hP he
    rw [hbody, frameBody_regs P hP he k.quiet, hb]
  have hregs : ∃ m c v, (runFrame i exchange after s).regs =
      { s.regs with rb := m, controllerType := c, lastRelease := v } := by
    obtain ⟨m, c, v, hr, -⟩ := hpart.regs
    exact ⟨m, c, v, by rw [hr, hb]⟩
  obtain ⟨xs, hx1, hx2, -, hx3⟩ := hpart.events
  obtain ⟨hx3, hx4, e, rest, hx5, hx6⟩ := hx3 ha
  have hfb : (grantEvents s.params ++ quietEvents s).reverse.foldl Bus.follow s.bus = s.bus := by
    unfold grantEvents quietEvents
    cases s.params.transport <;> cases s.pos.acquiring <;> rfl
  constructor
  · refine ⟨by rw [hpart.params, hb], by rw [hpart.port, hb], by rw [hpart.refused, hb], ha, ?_, ?_, ?_, ?_⟩
    · obtain ⟨fp, byi, bi, sh, dc, hp⟩ := hpart.pos
      exact ⟨fp, byi, bi, sh, dc, acq, by rw [hp, hb, ha]⟩
    · obtain ⟨m, c, v, hr⟩ := hregs
      refine ⟨m, c, v, hr, fun hn => ?_, fun hn => ?_⟩
      · have := hwr (·.rb) (fun _ _ => rfl) (fun t => by
          obtain ⟨m', c', h1, h2, -⟩ := k.writes t
          rw [h1]; exact h2 hn)
        rw [hr] at this; exact this
      · have := hwr (·.controllerType) (fun _ _ => rfl) (fun t => by
          obtain ⟨m', c', h1, -, h2⟩ := k.writes t
          rw [h1]; exact h2 hn)
        rw [hr] at this; exact this
    · rw [hx1, hx5]
      exact ⟨e, rest.reverse ++ (begun i s).history, by simp, hx6⟩
    · rw [hb] at hx3
      refine ⟨sleepCount xs - 1, hl.symm.trans hx3, ?_⟩
      have hrev : sleepCount xs.reverse = sleepCount xs := by simp [sleepCount]
      rw [hx1, sleepCount_append, begun_count h, hrev]
      omega
  · intro hrb
    have hbo : (begun i s).pos.asleep = false := by rw [hb]; exact hw
    have hQ : ∀ g : State, g.rbOk → g.params = s.params →
        g.regs.rb.wf ∧ ∀ c ∈ g.regs.rb, c.1 < s.params.rbLen := fun g h1 h2 => by rw [← h2]; exact h1
    have hlast : ∀ t : State, (t.awake endFrame).regs.rb = t.regs.rb := awake_regs (·.rb) fun t => by
      obtain ⟨v, hv⟩ := endFrame_regs t; rw [hv]
    have hres : (runFrame i exchange after s).regs.rb = ((openFrame (begun i s)).awake exchange).regs.rb := by
      rw [hbody, frameBody]
      exact (awake_regs (·.rb) (f := leaveFrame) (fun _ => rfl) _).trans
        ((awake_regs (·.rb) (fun t => congrArg (·.rb) (k.quiet t)) _).trans (hlast _))
    have hpr : (runFrame i exchange after s).params = s.params := by rw [hpart.params, hb]
    unfold State.rbOk
    rw [hpr, hres]
    have hop := (framePart_openFrame (begun i s) hbo).part
    have hop' : (openFrame (begun i s)).params = s.params := by rw [hop.params, hb]
    have hor : (openFrame (begun i s)).rbOk := by
      unfold State.rbOk; rw [hop', openFrame_regs, hb]; exact hrb
    unfold State.awake
    split
    · exact hQ _ hor hop'
    · next hn =>
      have hn' : (openFrame (begun i s)).pos.asleep = false := by simpa using hn
      refine k.rb _ hop' ?_ hn' hor
      unfold openFrame State.awake at hn' ⊢
      split
      · next hs => rw [if_pos hs, hs] at hn'; exact absurd hn' (by simp)
      · rfl
  · obtain ⟨m, c, v, hr, hv⟩ := hpart.regs
    rw [hr]
    rw [hb] at hv
    exact hv
  · intro hq
    obtain ⟨fp, byi, bi, sh, dc, hp⟩ := hpart.pos
    rw [hp, hb] at hq
    have hq : acq = true := hq
    cases ht : s.params.transport with
    | gpio => exact ⟨rfl, by rw [← hq2 ht]; exact hq⟩
    | hwspi => rw [hq1 ht] at hq; exact absurd hq (by simp)
  · refine hck.trans ?_
    have := hpart.clock
    rw [hb] at this
    exact this
  · refine ⟨(grantEvents s.params ++ quietEvents s).reverse ++ xs, by rw [hx1, hb]; simp, ?_⟩
    rw [hx2, hb, List.foldl_append, hfb]
  · exact ⟨_, es, k.free, hrun, hes⟩

/-- Every wire frame, from idle lines and awake: it waits, or runs whole, or stops in a sleep of it, which
happens only if the time port does not end every sleep. -/
theorem exec_wire {i : Instr} {s : State} (hi : i.isWire = true) (hok : s.params.ok = true)
    (hl : s.linesIdle) (ha : s.pos.acquiring = true → s.params.transport = .hwspi)
    (hw : s.pos.asleep = false) :
    ∃ t, exec i s = .next t ∧ (s.ready → t.pos.asleep = false → Runs i s t) ∧
      (s.ready → t.pos.asleep = true → Stops i s t) ∧ (¬ s.ready → Waits i s t) ∧
      (s.env.sleepsLeft = none → s.ready → t.pos.asleep = false ∧ t.env.sleepsLeft = none) := by
  obtain ⟨exchange, after, k⟩ := frame_shape (s := s) hi hok
  obtain ⟨u, hu, hrun, -⟩ := exec_wire_free (s := s.freed) hi hok hl ha ⟨hw, rfl⟩
  rw [k.free] at hu
  injection hu with hu
  subst hu
  refine ⟨_, k.runs, fun h hs => ?_, fun h hs => k.stops h hw (hrun (State.ready_freed h)).1 hs,
    fun h => runFrame_notReady h ha, fun hn h => ?_⟩
  · obtain ⟨he, -⟩ := (runFrame_follows (i := i) h hw k.body k.tail).1 hs
    have hr := (hrun (State.ready_freed h)).1
    rw [he] at hr
    obtain ⟨rs, cont, v, pre, tail, h1, h2, h3, h4⟩ := hr
    exact ⟨rs, cont, v, pre, tail, h1, h2, ⟨h3.params, h3.port, h3.refused, h3.bus, h3.pos⟩, h4⟩
  · have hf : s.freed = s := by unfold State.freed; rw [← hn]
    have hr := hrun (State.ready_freed h)
    rw [hf] at hr
    obtain ⟨rs, cont, v, pre, tail, -, -, hfl, -⟩ := hr.1
    obtain ⟨byi, bi, sh, dc, hp⟩ := hfl.pos
    exact ⟨by rw [hp]; exact hw, hr.2⟩

/-- A frame that stays awake is the same frame as under a time port that ends every sleep, and slept no more
often than the time port ends sleeps. -/
theorem exec_wire_awake {i : Instr} {s t : State} (hi : i.isWire = true) (hok : s.params.ok = true)
    (h : s.ready) (hw : s.pos.asleep = false) (he : exec i s = .next t) (ht : t.pos.asleep = false) :
    exec i s.freed = .next t.freed ∧
      ∀ n, s.env.sleepsLeft = some n → sleepCount t.history ≤ sleepCount s.history + n := by
  obtain ⟨exchange, after, k⟩ := frame_shape (s := s) hi hok
  rw [k.runs] at he
  injection he with he
  subst he
  obtain ⟨h1, h2⟩ := (runFrame_follows (i := i) h hw k.body k.tail).1 ht
  exact ⟨by rw [k.free, h1], h2⟩

/-! ## What every step of a frame keeps, whatever the levels of the lines -/

/-- No parameter is written, the history is extended and the clock does not go back (R31, R34, R45). -/
structure Grows (s t : State) : Prop where
  params  : t.params = s.params
  history : ∃ new, t.history = new ++ s.history
  clock   : s.env.clockCount ≤ t.env.clockCount

theorem Grows.trans {s t u : State} (h : Grows s t) (k : Grows t u) : Grows s u := by
  obtain ⟨xs, hx⟩ := h.history
  obtain ⟨ys, hy⟩ := k.history
  exact ⟨k.params.trans h.params, ⟨ys ++ xs, by rw [hy, hx]; simp⟩, h.clock.trans k.clock⟩

theorem quietTime_grows (s : State) : Grows s (quietTime s).2 := by
  obtain ⟨env, -, hc, h⟩ := quietTime_eq s
  rw [h]
  exact ⟨rfl, ⟨_, rfl⟩, hc⟩

theorem acquireBus_grows (s : State) : Grows s (acquireBus s).2 := by
  unfold acquireBus
  split
  · exact ⟨rfl, ⟨[], rfl⟩, le_rfl⟩
  · refine ⟨State.spiGrant_params s, ?_, (State.spiGrant_clockCount s).ge⟩
    dsimp only
    unfold State.spiGrant
    split
    · exact ⟨[_], rfl⟩
    · exact ⟨[], rfl⟩
    · split
      · exact ⟨[_], rfl⟩
      · exact ⟨[], rfl⟩

theorem Part.grows {a b : State} (h : Part a b) : Grows a b := by
  obtain ⟨es, he, -⟩ := h.events
  exact ⟨h.params, ⟨es.reverse, he⟩, h.clock⟩

theorem leaveFrame_grows (s : State) : Grows s (s.awake leaveFrame) := by
  unfold State.awake
  split <;> exact ⟨rfl, ⟨[], rfl⟩, le_rfl⟩

/-- A step of any wire frame of an awake block. -/
theorem exec_wire_grows {i : Instr} {s t : State} (hi : i.isWire = true) (hok : s.params.ok = true)
    (hw : s.pos.asleep = false) (he : exec i s = .next t) : Grows s t := by
  obtain ⟨exchange, after, k⟩ := frame_shape (s := s) hi hok
  rw [k.runs] at he
  injection he with he
  subst he
  have hq : Grows s (quietTime (s.holdFrame i)).2 :=
    (⟨rfl, ⟨[], rfl⟩, le_rfl⟩ : Grows s (s.holdFrame i)).trans (quietTime_grows _)
  unfold runFrame
  dsimp only
  split
  · split
    · next h1 h2 =>
      have hr : s.ready := ⟨by rw [← quietTime_holdFrame i s]; exact h1,
        by rw [← acquireBus_holdFrame i s]; exact h2⟩
      have hb : (begun i s).pos.asleep = false := by
        obtain ⟨env, a, -, -, -, -, hb⟩ := begun_eq (i := i) hr
        rw [hb]; exact hw
      refine (hq.trans (acquireBus_grows _)).trans
        ((framePart_body k.body k.tail (begun i s) hb).part.grows.trans (leaveFrame_grows _))
    · exact hq.trans (acquireBus_grows _)
  · exact hq

end Sys2Proof.Machine
end

