-- ==== Sys2Proof/Laws/Step.lean ====
section
/-! SUPPORT. Everything a step can do, said once: the cases of step, of exec on a host operation, and of
what the sequencer does. -/

namespace Sys2Proof.Machine

/-- The decoder reads no wire frame from a host word. -/
theorem decodeHost_isWire {w : HostWord} {i : Instr} (h : decodeHost w = .ok i) : i.isWire = false := by
  unfold decodeHost at h
  split at h
  · next r hr =>
    have hm := List.mem_of_find?_eq_some hr
    simp only [hostRows, List.mem_cons, List.not_mem_nil, or_false] at hm
    injection h with h
    rcases hm with rfl | rfl | rfl | rfl | rfl | rfl | rfl | rfl | rfl <;> subst h <;> rfl
  · exact absurd h (by simp)

/-- A step that goes on: a refusal marked, a host operation, a frame, a sequencer step, or nothing. -/
theorem step_cases {s t : State} (h : step s = .next t) :
    s.refused = none ∧
    ((∃ r, t = s.refuse r) ∨
     (s.params.ok = true ∧ s.port.busy = false ∧ ∃ w i u, (u = s.takeRequest ∨ u = s.takeProgram) ∧
        decodeHost w = .ok i ∧ exec i u = .next t) ∨
     (s.params.ok = true ∧ s.port.request = none ∧ s.pos.asleep = false ∧ ∃ i u, s.pos.frame = some i ∧
        exec i s = .next u ∧ t = afterFrame u) ∨
     (s.atControl ∧ t = sequencer s) ∨ t = s) := by
  have hr : s.refused = none := by
    cases hr : s.refused with
    | none => rfl
    | some r => simp [step, fetch, hr] at h
  refine ⟨hr, ?_⟩
  cases hok : s.params.ok with
  | false =>
    refine .inl ⟨.badParameters, ?_⟩
    simpa [step, fetch, hr, hok] using h.symm
  | true =>
    have hhost : ∀ (w : HostWord) (u : State), (u = s.takeRequest ∨ u = s.takeProgram) →
        fetch s = fetchHost w u s →
        (∃ r, t = s.refuse r) ∨ (s.port.busy = false ∧ ∃ w i u, (u = s.takeRequest ∨ u = s.takeProgram) ∧
          decodeHost w = .ok i ∧ exec i u = .next t) := by
      intro w u hu hh
      unfold fetchHost at hh
      unfold step at h
      rw [hh] at h
      cases hb : s.port.busy with
      | true => simp [hb] at h; exact .inl ⟨_, h.symm⟩
      | false =>
        cases hd : decodeHost w with
        | ok i => simp [hb, hd] at h; exact .inr ⟨rfl, w, i, u, hu, hd, h⟩
        | error e => simp [hb, hd] at h; exact .inl ⟨_, h.symm⟩
    cases hq : s.port.request with
    | some w =>
      rcases hhost w _ (.inl rfl) (by simp [fetch, hr, hok, hq]) with hh | hh
      · exact .inl hh
      · exact .inr (.inl ⟨rfl, hh.1, hh.2⟩)
    | none =>
      cases hz : s.pos.asleep with
      | true =>
        simp [step, fetch, hr, hok, hq, hz] at h
        exact .inr (.inr (.inr (.inr h.symm)))
      | false =>
      cases hf : s.pos.frame with
      | some i =>
        simp [step, fetch, hr, hok, hq, hf, hz] at h
        cases he : exec i s with
        | next u =>
          rw [he] at h
          exact .inr (.inr (.inl ⟨rfl, rfl, rfl, i, u, rfl, he, by simpa [thenSequence] using h.symm⟩))
        | fault r => cases r
        | refused r => rw [he] at h; simp [thenSequence] at h
      | none =>
        cases hb : s.port.busy with
        | true =>
          simp [step, fetch, hr, hok, hq, hf, hb, hz] at h
          exact .inr (.inr (.inr (.inl ⟨⟨hr, hok, hq, hf, hb, hz⟩, h.symm⟩)))
        | false =>
          cases hp : s.port.program with
          | nil =>
            simp [step, fetch, hr, hok, hq, hf, hb, hp, hz] at h
            exact .inr (.inr (.inr (.inr h.symm)))
          | cons w ws =>
            rcases hhost w _ (.inr rfl) (by simp [fetch, hr, hok, hq, hf, hb, hp, hz]) with hh | hh
            · exact .inl hh
            · exact .inr (.inl ⟨rfl, rfl, hh.2⟩)

/-- What exec of a host operation does: it refuses, it begins INIT or POLL, or it answers in one step. -/
theorem exec_host {i : Instr} {s t : State} (hi : i.isWire = false) (h : exec i s = .next t) :
    (∃ r, t = s.refuse r) ∨
    (∃ p v, i = .init p v ∧ s.refusal false = none ∧ t = beginInit (hostWord i) s) ∨
    (∃ a b, i = .poll a b ∧ s.refusal true = none ∧ t = beginPoll (hostWord i) s) ∨
    (∃ r, s.refusal true = none ∧ t = answer (hostWord i) r s) := by
  have hq : ∀ (w : HostWord) (f : State → HostWord), query w f s = t →
      (∃ r, t = s.refuse r) ∨ ∃ r, s.refusal true = none ∧ t = answer w r s := by
    intro w f hh
    unfold query State.admission at hh
    split at hh
    · exact .inl ⟨_, hh.symm⟩
    · next hn => exact .inr ⟨_, hn, hh.symm⟩
  have hq' : ∀ f : State → HostWord, query (hostWord i) f s = t → _ := hq (hostWord i)
  cases i with
  | init p v =>
    simp only [exec, execInit, State.admission] at h
    split at h
    · exact .inl ⟨_, by simpa using h.symm⟩
    · next hn => exact .inr (.inl ⟨p, v, rfl, hn, by simpa using h.symm⟩)
  | poll a b =>
    simp only [exec, execPoll, State.admission] at h
    split at h
    · exact .inl ⟨_, by simpa using h.symm⟩
    · next hn => exact .inr (.inr (.inl ⟨a, b, rfl, hn, by simpa using h.symm⟩))
  | analog k =>
    simp only [exec, execAnalog, State.admission] at h
    split at h
    · exact .inl ⟨_, by simpa using h.symm⟩
    · next hn =>
      split at h
      · exact .inl ⟨_, by simpa using h.symm⟩
      · exact .inr (.inr (.inr ⟨_, hn, by simpa using h.symm⟩))
  | isPressed m => exact (hq' _ (by injection h)).imp id (fun h => .inr (.inr h))
  | wasPressed m => exact (hq' _ (by injection h)).imp id (fun h => .inr (.inr h))
  | wasReleased m => exact (hq' _ (by injection h)).imp id (fun h => .inr (.inr h))
  | wasToggled m => exact (hq' _ (by injection h)).imp id (fun h => .inr (.inr h))
  | anyToggled => exact (hq' _ (by injection h)).imp id (fun h => .inr (.inr h))
  | readType => exact (hq' _ (by injection h)).imp id (fun h => .inr (.inr h))
  | _ => simp [Instr.isWire] at hi

/-- An operation that is admitted. -/
theorem State.refusal_none {s : State} {b : Bool} (h : s.refusal b = none) : s.admits b := by
  unfold State.refusal at h
  cases hok : s.params.ok with
  | false => simp [hok] at h
  | true =>
    cases hb : s.port.busy with
    | true => simp [hok, hb] at h
    | false =>
      refine ⟨hok, hb, fun hn => ?_⟩
      subst hn
      cases hv : s.regs.sessionValid with
      | true => rfl
      | false => simp [hok, hb, hv] at h

/-- The commands of a list depend on where the sequencer is, the operation's word and the two flags. -/
theorem State.commands_congr {s t : State} (hc : t.cycle = s.cycle) (ho : t.port.op = s.port.op)
    (hv : t.regs.enVibration = s.regs.enVibration) (hp : t.regs.enPressures = s.regs.enPressures) :
    t.commands = s.commands := by
  simp [State.commands, hc, hv, hp, State.opV, State.opP, ho]

/-- Every list has three to six commands. -/
theorem State.commands_pos (s : State) : 0 < s.commands.length := by
  unfold State.commands replayCommands attemptCommands
  split <;> simp

/-- The commands of a list are wire frames without operands. -/
theorem State.commands_wire {s : State} {i : Instr} (h : i ∈ s.commands) :
    i.isWire = true ∧ i.wf = true := by
  unfold State.commands replayCommands attemptCommands at h
  split at h <;> (split at h <;> split at h) <;>
    simp only [List.mem_append, List.mem_cons, List.not_mem_nil, or_false] at h <;>
    (rcases h with h | h) <;> first | (subst h; exact ⟨rfl, rfl⟩) | skip
  all_goals
    (repeat' (first | (subst h; exact ⟨rfl, rfl⟩) | (rcases h with h | h)))

end Sys2Proof.Machine
end

