-- ==== Sys2Proof/Laws/Run.lean ====
section
/-! SUPPORT. Whole stretches of an operation where no frame waits: a loaded frame, a command list, the
attempts of a read cycle, a whole read cycle, the probes and the attempts of INIT. Each is one lemma
that says where the stretch ends and what it leaves unchanged. -/

namespace Sys2Proof.Machine

/-! ## Runs -/

theorem run_next {M : Host.Core} {n : Nat} {s t u : M.State} (h : M.step s = .next t) :
    M.run (n + 1) s = .next u ↔ M.run n t = .next u := by
  rw [Host.Core.run, h]

theorem run_succ_next {M : Host.Core} {n : Nat} {s u : M.State} (h : M.run (n + 1) s = .next u) :
    ∃ t, M.step s = .next t ∧ M.run n t = .next u := by
  rw [Host.Core.run] at h
  cases hs : M.step s with
  | next v => rw [hs] at h; exact ⟨v, rfl, h⟩
  | fault r => rw [hs] at h; simp at h
  | refused r => rw [hs] at h; simp at h

/-- Some number of steps leads from s to t. -/
def Reaches (s t : State) : Prop := ∃ n, core.run n s = .next t

theorem Reaches.refl (s : State) : Reaches s s := ⟨0, rfl⟩

theorem Reaches.cons {s t u : State} (h : step s = .next t) (ht : Reaches t u) : Reaches s u := by
  obtain ⟨n, hn⟩ := ht
  exact ⟨n + 1, (run_next (M := core) h).2 hn⟩

theorem Reaches.one {s t : State} (h : step s = .next t) : Reaches s t := .cons h (.refl t)

/-- A property that every step keeps holds at whatever is reached. -/
theorem Reaches.keeps {P : State → Prop} (hP : ∀ s t, P s → step s = .next t → P t) {s t : State}
    (h : Reaches s t) (hs : P s) : P t := by
  obtain ⟨n, hn⟩ := h
  induction n generalizing s with
  | zero =>
    have : (Host.Outcome.next s : Host.Outcome State Fault Refusal) = .next t := hn
    injection this with hn
    exact hn ▸ hs
  | succ n ih =>
    obtain ⟨v, h1, h2⟩ := run_succ_next (M := core) hn
    exact ih (hP _ _ hs h1) h2

theorem Reaches.trans {s t u : State} (h : Reaches s t) (h' : Reaches t u) : Reaches s u := by
  obtain ⟨n, hn⟩ := h
  induction n generalizing s with
  | zero =>
    have : (Host.Outcome.next s : Host.Outcome State Fault Refusal) = .next t := hn
    injection this with hn
    exact hn ▸ h'
  | succ n ih =>
    obtain ⟨v, h1, h2⟩ := run_succ_next (M := core) hn
    exact .cons h1 (ih h2)

/-! ## An operation under way, between frames -/

/-- An operation runs, between frames, no frame of the instance ever waits and every sleep ends. -/
structure Running (s : State) : Prop where
  refused : s.refused = none
  ok      : s.params.ok = true
  request : s.port.request = none
  busy    : s.port.busy = true
  free    : s.neverWaits
  lines   : s.linesIdle
  frame   : s.pos.frame = none
  acq     : s.pos.acquiring = false
  sleeps  : s.sleepsEnd

theorem Running.step_eq {s : State} (h : Running s) : step s = .next (sequencer s) := by
  simp [step, fetch, h.refused, h.ok, h.request, h.frame, h.busy, h.sleeps.1]

theorem Running.keeps {s t : State} (h : Running s) (h1 : t.params = s.params) (h2 : t.port = s.port)
    (h3 : t.bus = s.bus) (h4 : t.refused = s.refused) (h5 : t.pos.frame = none)
    (h6 : t.pos.acquiring = false) (h7 : t.sleepsEnd) : Running t where
  refused := h4.trans h.refused
  ok := by rw [h1]; exact h.ok
  request := by rw [h2]; exact h.request
  busy := by rw [h2]; exact h.busy
  free := by unfold State.neverWaits; rw [h1]; exact h.free
  lines := h3.trans h.lines
  frame := h5
  acq := h6
  sleeps := h7

/-- read_delay has not shrunk, and is still at most DELAY_CAP. -/
def DelayGrows (s u : State) : Prop :=
  s.regs.readDelay ≤ s.params.delayCap →
    s.regs.readDelay ≤ u.regs.readDelay ∧ u.regs.readDelay ≤ s.params.delayCap

theorem DelayGrows.of_eq {s u : State} (h : u.regs.readDelay = s.regs.readDelay) : DelayGrows s u :=
  fun hs => ⟨h.ge, h.le.trans hs⟩

theorem DelayGrows.trans {s t u : State} (h : DelayGrows s t) (hp : t.params = s.params)
    (k : DelayGrows t u) : DelayGrows s u := fun hs => by
  obtain ⟨h1, h2⟩ := h hs
  obtain ⟨k1, k2⟩ := k (by rw [hp]; exact h2)
  exact ⟨h1.trans k1, by rw [hp] at k2; exact k2⟩

/-- From s to u nothing of the operation and the session changed but the position inside it, the
registers of a read cycle and a longer delay. -/
structure SameOperation (s u : State) : Prop where
  params  : u.params = s.params
  port    : u.port = s.port
  bus     : u.bus = s.bus
  refused : u.refused = s.refused
  probe   : u.pos.probe = s.pos.probe
  attempt : u.pos.attempt = s.pos.attempt
  frame   : u.pos.frame = none
  acq     : u.pos.acquiring = false
  sleeps  : u.sleepsEnd
  session : u.regs.sessionValid = s.regs.sessionValid
  vib     : u.regs.enVibration = s.regs.enVibration
  pres    : u.regs.enPressures = s.regs.enPressures
  delay   : DelayGrows s u
  op      : u.pos.opPos = s.pos.opPos ∨ ∃ l l', s.pos.opPos = .poll l ∧ u.pos.opPos = .poll l'

theorem SameOperation.running {s u : State} (h : SameOperation s u) (hs : Running s) : Running u :=
  hs.keeps h.params h.port h.bus h.refused h.frame h.acq h.sleeps

theorem SameOperation.trans {s t u : State} (h : SameOperation s t) (k : SameOperation t u) :
    SameOperation s u where
  params := k.params.trans h.params
  port := k.port.trans h.port
  bus := k.bus.trans h.bus
  refused := k.refused.trans h.refused
  probe := k.probe.trans h.probe
  attempt := k.attempt.trans h.attempt
  frame := k.frame
  acq := k.acq
  sleeps := k.sleeps
  session := k.session.trans h.session
  vib := k.vib.trans h.vib
  pres := k.pres.trans h.pres
  delay := h.delay.trans h.params k.delay
  op := by
    rcases h.op with h1 | ⟨l, l', h1, h2⟩ <;> rcases k.op with k1 | ⟨m, m', k1, k2⟩
    · exact .inl (k1.trans h1)
    · exact .inr ⟨m, m', h1 ▸ k1, k2⟩
    · exact .inr ⟨l, l', h1, k1.trans h2⟩
    · exact .inr ⟨l, m', h1, k2⟩

/-! ## Counting frames -/

theorem frameCount_append (a b : List Event) : frameCount (a ++ b) = frameCount a + frameCount b := by
  simp [frameCount, List.count_append]

theorem frameCount_frame (p : Params) (pairs : List (Byte × Byte)) (v : Nat) :
    frameCount (frameEvents p pairs v).reverse = 1 := by
  unfold frameCount
  rw [List.count_reverse]
  have hb : (pairs.flatMap (byteEvents p)).count (.pin .att false) = 0 := by
    rw [List.count_eq_zero]
    intro hm
    simp only [List.mem_flatMap] at hm
    obtain ⟨b, -, hb⟩ := hm
    unfold byteEvents at hb
    cases ht : p.transport <;> simp [ht, gpioBitEvents] at hb
  have ho : (openEvents p).count (.pin .att false) = 1 := by
    unfold openEvents; cases ht : p.transport <;> simp
  have hc : (closeEvents p v).count (.pin .att false) = 0 := by
    unfold closeEvents; cases ht : p.transport <;> simp
  simp [frameEvents, List.count_append, hb, ho, hc]

/-! ## One frame -/

theorem State.ready_of_neverWaits {s : State} (h : s.neverWaits) : s.ready := by
  refine ⟨?_, ?_⟩
  · unfold quietTime; split <;> simp [h.1]
  · obtain ⟨e, -, -, he⟩ := quietTime_eq s
    rw [he]; simp [acquireBus, h.2]

/-- What a loaded frame leaves, before the sequencer goes on. -/
structure FrameRan (i : Instr) (s u : State) : Prop where
  same    : SameOperation s u
  op      : u.pos.opPos = s.pos.opPos
  cyc     : u.pos.cyclePos = s.pos.cyclePos
  retry   : u.pos.retry = s.pos.retry
  list    : u.pos.replayPos = s.pos.replayPos
  buttons : u.regs.buttons = s.regs.buttons
  last    : u.regs.lastButtons = s.regs.lastButtons
  type    : i ≠ .queryType → u.regs.controllerType = s.regs.controllerType
  frames  : frameCount u.history = frameCount s.history + 1

theorem FrameRan.cycle {i : Instr} {s u : State} (h : FrameRan i s u) : u.cycle = s.cycle := by
  simp [State.cycle, h.op, h.cyc]

/-- A loaded frame runs whole in one step. -/
theorem frame_step {s : State} {i : Instr} (h : Running s) (hi : i.isWire = true) :
    ∃ u, step (s.loadFrame i) = .next (afterFrame u) ∧ FrameRan i s u := by
  have hr : (s.loadFrame i).ready := State.ready_of_neverWaits h.free
  obtain ⟨u, hu, hrun, -, -, hfree⟩ :=
    exec_wire (s := s.loadFrame i) hi h.ok h.lines (by simp [State.loadFrame, h.acq]) h.sleeps.1
  have hsl : u.sleepsEnd := hfree h.sleeps.2 hr
  obtain ⟨rs, cont, v, pre, tail, hlen, hv, hf, hregs, hh, htail, hpre⟩ := hrun hr hsl.1
  obtain ⟨byi, bi, sh, dc, hpos⟩ := hf.pos
  have hstep : step (s.loadFrame i) = .next (afterFrame u) := by
    have : fetch (s.loadFrame i) = .frame i := by
      simp [fetch, h.refused, h.ok, h.request, h.sleeps.1]
    simp [step, this, hu, thenSequence]
  have hreg : ∀ {α : Type} (f : Regs → α), (∀ (g : Regs) m c v,
      f { g with rb := m, controllerType := c, lastRelease := v } = f g) → f u.regs = f s.regs := by
    intro α f hsame
    have hself := hsame s.regs s.regs.rb s.regs.controllerType v
    rw [hregs]
    cases i with
    | read a b => exact hsame s.regs _ s.regs.controllerType _
    | readCont a b => exact hsame s.regs _ s.regs.controllerType _
    | queryType => exact hsame s.regs s.regs.rb _ _
    | _ => exact hself
  refine ⟨u, hstep, ⟨hf.params, hf.port, hf.bus.trans h.lines.symm, hf.refused, ?_, ?_, ?_, ?_, hsl,
    hreg (·.sessionValid) (fun _ _ _ _ => rfl), hreg (·.enVibration) (fun _ _ _ _ => rfl),
    hreg (·.enPressures) (fun _ _ _ _ => rfl),
    .of_eq (hreg (·.readDelay) (fun _ _ _ _ => rfl)), .inl ?_⟩, ?_, ?_, ?_, ?_,
    hreg (·.buttons) (fun _ _ _ _ => rfl), hreg (·.lastButtons) (fun _ _ _ _ => rfl), ?_, ?_⟩
  any_goals rw [hpos]
  any_goals rfl
  · intro hq
    rw [hregs]
    cases i <;> first | rfl | exact absurd rfl hq
  · rw [hh]
    have h1 : frameCount tail = 0 := by
      rcases htail with rfl | ⟨n, rfl⟩ <;> simp [frameCount]
    have h2 : frameCount pre = 0 := by
      rcases hpre with rfl | ⟨n, rfl⟩ <;> simp [frameCount]
    simp only [frameCount_append, h1, h2, frameCount_frame]
    simp [State.loadFrame]; omega

/-! ## A command list -/

/-- What a command list leaves, before the sequencer goes on. -/
structure ListRan (s u : State) : Prop where
  same    : SameOperation s u
  op      : u.pos.opPos = s.pos.opPos
  cyc     : u.pos.cyclePos = s.pos.cyclePos
  retry   : u.pos.retry = s.pos.retry
  buttons : u.regs.buttons = s.regs.buttons
  last    : u.regs.lastButtons = s.regs.lastButtons
  type    : s.cycle ≠ none → u.regs.controllerType = s.regs.controllerType

theorem ListRan.cycle {s u : State} (h : ListRan s u) : u.cycle = s.cycle := by
  simp [State.cycle, h.op, h.cyc]

/-- A replay holds no type query. -/
theorem State.commands_queryType {s : State} (h : s.cycle ≠ none) : Instr.queryType ∉ s.commands := by
  unfold State.commands replayCommands
  cases hc : s.cycle with
  | none => exact absurd hc h
  | some l => cases s.regs.enVibration <;> cases s.regs.enPressures <;> simp

/-- A list has at most six commands, a replay at most five. -/
theorem State.commands_le (s : State) :
    s.commands.length ≤ 6 ∧ (s.cycle ≠ none → s.commands.length ≤ 5) := by
  unfold State.commands replayCommands attemptCommands
  cases s.cycle <;> simp <;> (split <;> split <;> simp)

/-- A command list runs from index k to its end. -/
theorem list_run : ∀ (m : Nat) (s : State) (k : Nat), Running s → s.pos.replayPos = some k →
    k + m + 1 = s.commands.length →
    ∃ u, Reaches s (afterReplay u) ∧ ListRan s u ∧
      frameCount u.history = frameCount s.history + (m + 1) := by
  intro m
  induction m with
  | zero =>
    intro s k h hk hlen
    have hlt : k < s.commands.length := by omega
    have hs : step s = .next (s.loadFrame s.commands[k]) := by
      rw [h.step_eq]; simp only [sequencer, hk, List.getElem?_eq_getElem hlt]
    have hmem := List.getElem_mem hlt
    obtain ⟨u, hst, hr⟩ := frame_step h (State.commands_wire hmem).1
    have hc : u.commands = s.commands :=
      State.commands_congr hr.cycle (by rw [hr.same.port]) hr.same.vib hr.same.pres
    have haf : afterFrame u = afterReplay u := by
      simp only [afterFrame, hr.same.frame, hr.list, hk, afterCommand, hc]
      rw [if_neg (by omega)]
    rw [haf] at hst
    exact ⟨u, .cons hs (.one hst), ⟨hr.same, hr.op, hr.cyc, hr.retry, hr.buttons, hr.last,
      fun hn => hr.type (fun e => State.commands_queryType hn (e ▸ hmem))⟩, hr.frames⟩
  | succ m ih =>
    intro s k h hk hlen
    have hlt : k < s.commands.length := by omega
    have hs : step s = .next (s.loadFrame s.commands[k]) := by
      rw [h.step_eq]; simp only [sequencer, hk, List.getElem?_eq_getElem hlt]
    have hmem := List.getElem_mem hlt
    obtain ⟨u, hst, hr⟩ := frame_step h (State.commands_wire hmem).1
    have hc : u.commands = s.commands :=
      State.commands_congr hr.cycle (by rw [hr.same.port]) hr.same.vib hr.same.pres
    have haf : afterFrame u = { u with pos := { u.pos with replayPos := some (k + 1) } } := by
      simp only [afterFrame, hr.same.frame, hr.list, hk, afterCommand, hc]
      rw [if_pos (by omega)]
    rw [haf] at hst
    generalize hx : State.mk _ _ _ _ _ _ _ _ = x at hst
    have hsx : SameOperation s x := by
      subst hx
      exact ⟨hr.same.params, hr.same.port, hr.same.bus, hr.same.refused, hr.same.probe,
        hr.same.attempt, hr.same.frame, hr.same.acq, hr.same.sleeps, hr.same.session, hr.same.vib, hr.same.pres,
        hr.same.delay, hr.same.op⟩
    have hcx : x.cycle = s.cycle := by subst hx; exact hr.cycle
    obtain ⟨w, hw, hl, hf⟩ := ih x (k + 1) (hsx.running h) (by subst hx; rfl) (by
      have : x.commands = u.commands := by subst hx; rfl
      rw [this, hc]; omega)
    refine ⟨w, .cons hs (.cons hst hw), ⟨hsx.trans hl.same, hl.op.trans ?_, hl.cyc.trans ?_,
      hl.retry.trans ?_, hl.buttons.trans ?_, hl.last.trans ?_, fun hn => ?_⟩, ?_⟩
    · subst hx; exact hr.op
    · subst hx; exact hr.cyc
    · subst hx; exact hr.retry
    · subst hx; exact hr.buttons
    · subst hx; exact hr.last
    · rw [hl.type (hcx ▸ hn)]
      subst hx
      exact hr.type (fun e => State.commands_queryType hn (e ▸ hmem))
    · rw [hf]
      have : frameCount x.history = frameCount s.history + 1 := by subst hx; exact hr.frames
      omega

/-- A whole command list runs. -/
theorem list_run_whole {s : State} (h : Running s) (hk : s.pos.replayPos = some 0) :
    ∃ u, Reaches s (afterReplay u) ∧ ListRan s u ∧
      frameCount s.history + 1 ≤ frameCount u.history ∧
      frameCount u.history ≤ frameCount s.history + 6 ∧
      (s.cycle ≠ none → frameCount u.history ≤ frameCount s.history + 5) := by
  have hpos := State.commands_pos s
  have hle := State.commands_le s
  obtain ⟨u, hu, hl, hf⟩ := list_run (s.commands.length - 1) s 0 h hk (by omega)
  exact ⟨u, hu, hl, by omega, by omega, fun hn => by have := hle.2 hn; omega⟩

/-! ## Moves inside a read cycle -/

theorem State.goCycle_cycle {s : State} {l : CycleStep} (l' : CycleStep) (hc : s.cycle = some l) :
    (s.goCycle l').cycle = some l' := by
  unfold State.cycle at hc ⊢
  cases ho : s.pos.opPos <;> simp [ho] at hc ⊢

/-- A move inside a read cycle is in the same operation. -/
theorem SameOperation.move {s t : State} {l : CycleStep} (hs : Running s)
    (hop : t.pos.opPos = s.pos.opPos.inCycle l) (hpar : t.params = s.params) (hport : t.port = s.port)
    (hbus : t.bus = s.bus) (href : t.refused = s.refused) (hpr : t.pos.probe = s.pos.probe)
    (hat : t.pos.attempt = s.pos.attempt) (hfr : t.pos.frame = s.pos.frame)
    (hacq : t.pos.acquiring = s.pos.acquiring) (hsv : t.regs.sessionValid = s.regs.sessionValid)
    (hv : t.regs.enVibration = s.regs.enVibration) (hp : t.regs.enPressures = s.regs.enPressures)
    (hd : DelayGrows s t) (hsl : t.sleepsEnd) : SameOperation s t where
  params := hpar
  port := hport
  bus := hbus
  refused := href
  probe := hpr
  attempt := hat
  frame := hfr.trans hs.frame
  acq := hacq.trans hs.acq
  sleeps := hsl
  session := hsv
  vib := hv
  pres := hp
  delay := hd
  op := by
    rw [hop]
    cases ho : s.pos.opPos with
    | idle => exact .inl rfl
    | query => exact .inl rfl
    | init l => exact .inl rfl
    | poll c => exact .inr ⟨c, l, rfl, rfl⟩

/-- A stretch of a read cycle leads from s to label l, no list under way. -/
structure CycleReaches (l : CycleStep) (s t : State) : Prop where
  reach : Reaches s t
  same  : SameOperation s t
  cycle : t.cycle = some l
  list  : t.pos.replayPos = none
  init  : ∀ i, s.pos.opPos = .init i → t.pos.opPos = .init i
  type  : t.regs.controllerType = s.regs.controllerType

theorem CycleReaches.trans {l l' : CycleStep} {s t u : State} (h : CycleReaches l s t)
    (k : CycleReaches l' t u) : CycleReaches l' s u :=
  ⟨h.reach.trans k.reach, h.same.trans k.same, k.cycle, k.list, fun i hi => k.init i (h.init i hi),
    k.type.trans h.type⟩

/-- One step to a label of the read cycle. -/
theorem CycleReaches.one {s t : State} {l l' : CycleStep} (hs : Running s) (hc : s.cycle = some l)
    (hr : s.pos.replayPos = none) (hst : step s = .next (t.goCycle l')) (hpos : t.pos.opPos = s.pos.opPos)
    (hcyc : t.pos.cyclePos = s.pos.cyclePos) (hlist : t.pos.replayPos = s.pos.replayPos)
    (hpar : t.params = s.params) (hport : t.port = s.port)
    (hbus : t.bus = s.bus) (href : t.refused = s.refused) (hpr : t.pos.probe = s.pos.probe)
    (hat : t.pos.attempt = s.pos.attempt) (hfr : t.pos.frame = s.pos.frame)
    (hacq : t.pos.acquiring = s.pos.acquiring) (hsv : t.regs.sessionValid = s.regs.sessionValid)
    (hv : t.regs.enVibration = s.regs.enVibration) (hp : t.regs.enPressures = s.regs.enPressures)
    (ht : t.regs.controllerType = s.regs.controllerType) (hd : DelayGrows s t) (hsl : t.sleepsEnd) :
    CycleReaches l' s (t.goCycle l') where
  reach := .one hst
  same := .move (l := l') hs (by show t.pos.opPos.inCycle l' = _; rw [hpos]) hpar hport hbus href hpr hat
    hfr hacq hsv hv hp hd hsl
  cycle := State.goCycle_cycle l' (l := l) (by simpa [State.cycle, hpos, hcyc] using hc)
  list := hlist.trans hr
  init := fun i hi => by show t.pos.opPos.inCycle l' = _; rw [hpos, hi]; rfl
  type := ht

/-! ## The attempts of a read cycle -/

/-- One attempt: its read frame, and after a failed check the replay. It ends at P5, or at P4 with the
next attempt's number. -/
theorem attempt_cases {s : State} (h : Running s) (hc : s.cycle = some .p4)
    (hr : s.pos.replayPos = none) :
    ∃ t l, CycleReaches l s t ∧ (l = .p5 ∨ l = .p4 ∧ t.pos.retry = s.pos.retry + 1 ∧
        s.pos.retry < s.params.readAttempts) ∧
      t.regs.buttons = s.regs.buttons ∧ t.regs.lastButtons = s.regs.lastButtons ∧
      frameCount s.history + 1 ≤ frameCount t.history ∧
      frameCount t.history ≤ frameCount s.history + 6 := by
  have hs : step s = .next (s.loadFrame (.read (actuatorA s.cycleA) s.pos.scaledB)) := by
    rw [h.step_eq]; simp only [sequencer, hr, hc]; rfl
  obtain ⟨u, hst, hf⟩ := frame_step (i := .read (actuatorA s.cycleA) s.pos.scaledB) h rfl
  have hcu : u.cycle = some .p4 := hf.cycle.trans hc
  have htype : u.regs.controllerType = s.regs.controllerType := hf.type (by simp)
  have hframes := hf.frames
  have haf : afterFrame u = if u.analog then u.goCycle .p5 else u.startList := by
    simp only [afterFrame, hf.same.frame, hf.list, hr, hcu, afterRead]
  rw [haf] at hst
  cases ha : u.analog with
  | true =>
    rw [if_pos ha] at hst
    refine ⟨u.goCycle .p5, .p5, ⟨.cons hs (.one hst), hf.same.trans (.move (l := .p5) (hf.same.running h)
      rfl rfl rfl rfl rfl rfl rfl rfl rfl rfl rfl rfl (.of_eq rfl) hf.same.sleeps),
      State.goCycle_cycle .p5 hcu,
      hf.list.trans hr, fun i hi => ?_, htype⟩, .inl rfl, hf.buttons, hf.last, ?_, ?_⟩
    · show u.pos.opPos.inCycle .p5 = _
      rw [hf.op, hi]; rfl
    all_goals simp only [State.goCycle_history]; omega
  | false =>
    rw [if_neg (by simp [ha])] at hst
    have hsame : SameOperation s u.startList :=
      ⟨hf.same.params, hf.same.port, hf.same.bus, hf.same.refused, hf.same.probe, hf.same.attempt,
        hf.same.frame, hf.same.acq, hf.same.sleeps, hf.same.session, hf.same.vib, hf.same.pres, hf.same.delay,
        hf.same.op⟩
    have hcx : u.startList.cycle = some .p4 := hcu
    obtain ⟨w, g1, g2, g3, g4, g5⟩ := list_run_whole (s := u.startList) (hsame.running h) rfl
    have hcw : w.cycle = some .p4 := g2.cycle.trans hcx
    have hret : w.pos.retry = s.pos.retry := g2.retry.trans hf.retry
    have hsw : SameOperation s w := hsame.trans g2.same
    have htw : w.regs.controllerType = s.regs.controllerType :=
      (g2.type (by rw [hcx]; simp)).trans htype
    have hopw : w.pos.opPos = s.pos.opPos := g2.op.trans hf.op
    have g5 := g5 (by rw [hcx]; simp)
    have e2 : frameCount u.startList.history = frameCount u.history := rfl
    have hslept : frameCount (w.leaveList.emit (.sleepMs w.regs.readDelay)).history =
        frameCount w.history := by
      simp [frameCount, State.leaveList]
    have hsl : w.sleepsEnd := hsw.sleeps
    simp only [afterReplay, hcw] at g1
    rw [State.sleepMs, State.sleep_awake (s := w.leaveList) hsl] at g1
    simp only [State.emit_pos, State.leaveList_pos, hret, hsw.params] at g1
    by_cases hlt : s.pos.retry < s.params.readAttempts
    · rw [if_pos hlt] at g1
      refine ⟨_, .p4, ⟨.cons hs (.cons hst g1), ⟨hsw.params, hsw.port, hsw.bus, hsw.refused, hsw.probe,
        hsw.attempt, hsw.frame, hsw.acq, hsl, hsw.session, hsw.vib, hsw.pres, hsw.delay, hsw.op⟩, hcw, rfl,
        fun i hi => hopw.trans hi, htw⟩, .inr ⟨rfl, rfl, hlt⟩,
        g2.buttons.trans hf.buttons, g2.last.trans hf.last, ?_, ?_⟩
      all_goals
        show _ ≤ _
        simp only [hslept]
        omega
    · rw [if_neg hlt] at g1
      refine ⟨_, .p5, ⟨.cons hs (.cons hst g1), hsw.trans (.move (l := .p5) (hsw.running h) rfl rfl rfl rfl
        rfl rfl rfl rfl rfl rfl rfl rfl (.of_eq rfl) hsl),
        State.goCycle_cycle (s := w.leaveList.emit (.sleepMs w.regs.readDelay)) .p5 (l := .p4) hcw, rfl,
        fun i hi => ?_, htw⟩, .inl rfl, g2.buttons.trans hf.buttons, g2.last.trans hf.last, ?_, ?_⟩
      · show w.pos.opPos.inCycle .p5 = _
        rw [hopw, hi]; rfl
      all_goals
        simp only [State.goCycle_history, hslept]
        omega

/-- The attempts from attempt number `retry` on end at P5. -/
theorem attempts_run : ∀ (m : Nat) (s : State), Running s → s.cycle = some .p4 →
    s.pos.replayPos = none → s.params.readAttempts ≤ s.pos.retry + m →
    ∃ t, CycleReaches .p5 s t ∧ t.regs.buttons = s.regs.buttons ∧
      t.regs.lastButtons = s.regs.lastButtons ∧
      frameCount s.history + 1 ≤ frameCount t.history ∧
      frameCount t.history ≤ frameCount s.history + 6 * (m + 1) := by
  intro m
  induction m with
  | zero =>
    intro s h hc hr hm
    obtain ⟨t, l, ht, hl, h1, h2, h3, h4⟩ := attempt_cases h hc hr
    rcases hl with rfl | ⟨-, -, hlt⟩
    · exact ⟨t, ht, h1, h2, h3, by omega⟩
    · omega
  | succ m ih =>
    intro s h hc hr hm
    obtain ⟨t, l, ht, hl, h1, h2, h3, h4⟩ := attempt_cases h hc hr
    rcases hl with rfl | ⟨rfl, hret, -⟩
    · exact ⟨t, ht, h1, h2, h3, by omega⟩
    · obtain ⟨u, hu, k1, k2, k3, k4⟩ := ih t (ht.same.running h) ht.cycle ht.list
        (by rw [ht.same.params, hret]; omega)
      exact ⟨u, ht.trans hu, k1.trans h1, k2.trans h2, by omega, by omega⟩

/-! ## A read cycle -/

/-- A whole read cycle runs from P1 to P7 (R210, R219). -/
theorem cycle_run {s : State} (h : Running s) (hc : s.cycle = some .p1) (hr : s.pos.replayPos = none) :
    ∃ t, CycleReaches .p7 s t ∧ t.regs.lastButtons = s.regs.buttons ∧
      t.regs.buttons = t.rbRead 4 ++ t.rbRead 3 ∧
      (1 ≤ s.params.readAttempts → frameCount s.history + 1 ≤ frameCount t.history) ∧
      frameCount t.history ≤ frameCount s.history + 5 + 6 * s.params.readAttempts := by
  have hclock : ∀ (v : Nat) (hist : List Event), frameCount (.clock v :: hist) = frameCount hist := by
    intro v hist; simp [frameCount]
  -- P1
  have hp2 : ∃ t, CycleReaches .p2 s t ∧ t.regs.buttons = s.regs.buttons ∧
      frameCount s.history ≤ frameCount t.history ∧
      frameCount t.history ≤ frameCount s.history + 5 := by
    have hs : step s = .next (stepP1 s) := by
      rw [h.step_eq]; simp only [sequencer, hr, hc]; rfl
    unfold stepP1 at hs
    simp only at hs
    rw [State.nowMs_eq] at hs
    have hsn : s.pos.asleep = false ∧ s.nowMs.2.env.sleepsLeft = none :=
      ⟨h.sleeps.1, by simpa using h.sleeps.2⟩
    split at hs
    · generalize hx : State.startList _ = x at hs
      have hsx : SameOperation s x := by
        subst hx
        exact ⟨rfl, rfl, rfl, rfl, rfl, rfl, h.frame, h.acq, hsn, rfl, rfl, rfl,
          .of_eq rfl, .inl rfl⟩
      have hxc : x.cycle = some .p1 := by subst hx; exact hc
      obtain ⟨w, g1, g2, g3, g4, g5⟩ := list_run_whole (hsx.running h) (by subst hx; rfl)
      have g5 := g5 (by rw [hxc]; simp)
      have hcw : w.cycle = some .p1 := g2.cycle.trans hxc
      have hsw := hsx.trans g2.same
      simp only [afterReplay, hcw] at g1
      have e : frameCount x.history = frameCount s.history := by subst hx; exact hclock _ _
      refine ⟨w.leaveList.goCycle .p2, ⟨.cons hs g1, hsw.trans (.move (l := .p2) (hsw.running h) rfl rfl rfl
        rfl rfl rfl rfl rfl rfl rfl rfl rfl (.of_eq rfl) hsw.sleeps),
        State.goCycle_cycle (s := w.leaveList) .p2 (l := .p1) hcw, rfl, fun i hi => ?_, ?_⟩, ?_, ?_, ?_⟩
      · show w.pos.opPos.inCycle .p2 = _
        have : w.pos.opPos = .init i := by rw [g2.op]; subst hx; exact hi
        rw [this]; rfl
      · exact (g2.type (by rw [hxc]; simp)).trans (by subst hx; rfl)
      · exact g2.buttons.trans (by subst hx; rfl)
      all_goals
        simp only [State.goCycle_history]
        show _ ≤ _
        have : frameCount w.leaveList.history = frameCount w.history := rfl
        omega
    · exact ⟨_, .one h hc hr hs rfl rfl rfl rfl rfl rfl rfl rfl rfl rfl rfl rfl rfl rfl rfl (.of_eq rfl)
        hsn, rfl, by simp [hclock], by simp [hclock]⟩
  obtain ⟨a, ha, hab, ha1, ha2⟩ := hp2
  have hra := ha.same.running h
  -- P2
  have hp3 : ∃ t, CycleReaches .p3 a t ∧ t.regs.buttons = a.regs.buttons ∧
      frameCount t.history = frameCount a.history := by
    have hs : step a = .next (stepP2 a) := by
      rw [hra.step_eq]; simp only [sequencer, ha.list, ha.cycle]; rfl
    unfold stepP2 at hs
    simp only at hs
    split at hs
    · rw [State.sleepMs, State.sleep_awake hra.sleeps] at hs
      exact ⟨_, .one hra ha.cycle ha.list hs rfl rfl rfl rfl rfl rfl rfl rfl rfl rfl rfl rfl rfl rfl rfl
        (.of_eq rfl) hra.sleeps, rfl, by simp [frameCount]⟩
    · rw [State.awake_of hra.sleeps.1] at hs
      exact ⟨_, .one hra ha.cycle ha.list hs rfl rfl rfl rfl rfl rfl rfl rfl rfl rfl rfl rfl rfl rfl rfl
        (.of_eq rfl) hra.sleeps, rfl, rfl⟩
  obtain ⟨b, hb, hbb, hb1⟩ := hp3
  have hlb := ha.trans hb
  have hrb := hlb.same.running h
  -- P3 and P4
  have hp5 : ∃ t, CycleReaches .p5 b t ∧ t.regs.buttons = b.regs.buttons ∧
      (1 ≤ s.params.readAttempts → frameCount b.history + 1 ≤ frameCount t.history) ∧
      frameCount t.history ≤ frameCount b.history + 6 * s.params.readAttempts := by
    have hs : step b = .next (stepP3 b) := by
      rw [hrb.step_eq]; simp only [sequencer, hb.list, hb.cycle]; rfl
    unfold stepP3 at hs
    simp only at hs
    split at hs
    · next h0 =>
      exact ⟨_, .one hrb hb.cycle hb.list hs rfl rfl rfl rfl rfl rfl rfl rfl rfl rfl rfl rfl rfl rfl rfl
        (.of_eq rfl) hrb.sleeps, rfl, fun h1 => by rw [hlb.same.params] at h0; omega, by simp⟩
    · next h0 =>
      rw [hlb.same.params] at h0
      have hx := CycleReaches.one hrb hb.cycle hb.list hs rfl rfl rfl rfl rfl rfl rfl rfl rfl rfl rfl rfl
        rfl rfl rfl (.of_eq rfl) hrb.sleeps
      obtain ⟨t, ht, k1, k2, k3, k4⟩ := attempts_run (s.params.readAttempts - 1) _
        (hx.same.running hrb) hx.cycle hx.list
        (by rw [hx.same.params, hlb.same.params]; simp; omega)
      simp only [State.goCycle_history, State.goCycle_regs] at k1 k3 k4
      exact ⟨t, hx.trans ht, k1, fun _ => k3, by omega⟩
  obtain ⟨c, hc5, hcb, hc1, hc2⟩ := hp5
  have hlc := hlb.trans hc5
  have hrc := hlc.same.running h
  -- P5
  have hp6 : ∃ t, CycleReaches .p6 c t ∧ t.regs.buttons = c.regs.buttons ∧
      frameCount t.history = frameCount c.history := by
    have hs : step c = .next (stepP5 c) := by
      rw [hrc.step_eq]; simp only [sequencer, hc5.list, hc5.cycle]; rfl
    unfold stepP5 at hs
    simp only at hs
    split at hs
    · exact ⟨_, .one hrc hc5.cycle hc5.list hs rfl rfl rfl rfl rfl rfl rfl rfl rfl rfl rfl rfl rfl rfl rfl
        (.of_eq rfl) hrc.sleeps, rfl, rfl⟩
    · refine ⟨_, .one hrc hc5.cycle hc5.list hs rfl rfl rfl rfl rfl rfl rfl rfl rfl rfl rfl rfl rfl rfl
        rfl (fun hle => ?_) hrc.sleeps, rfl, rfl⟩
      simp only [State.grownDelay]
      omega
  obtain ⟨d, hd, hdb, hd1⟩ := hp6
  have hld := hlc.trans hd
  have hrd := hld.same.running h
  -- P6
  have hs : step d = .next (stepP6 d) := by
    rw [hrd.step_eq]; simp only [sequencer, hd.list, hd.cycle]; rfl
  unfold stepP6 at hs
  simp only at hs
  rw [State.nowMs_eq] at hs
  have hx := CycleReaches.one hrd hd.cycle hd.list hs rfl rfl rfl rfl rfl rfl rfl rfl rfl rfl rfl rfl rfl
    rfl rfl (.of_eq rfl) ⟨hrd.sleeps.1, by simpa [roll] using hrd.sleeps.2⟩
  refine ⟨_, hld.trans hx, ?_, rfl, fun h1 => ?_, ?_⟩
  · simp only [roll, State.goCycle_regs]
    rw [hdb, hcb, hbb, hab]
  · have := hc1 h1
    simp only [State.goCycle_history, roll, hclock]
    omega
  · simp only [State.goCycle_history, roll, hclock]
    omega

/-! ## INIT (R220, R228) -/

/-- A stretch of INIT leads from s to label l, no read cycle and no list under way. -/
structure InitReaches (l : InitStep) (s t : State) : Prop where
  reach   : Reaches s t
  running : Running t
  params  : t.params = s.params
  port    : t.port = s.port
  op      : t.pos.opPos = .init l
  cyc     : t.pos.cyclePos = none
  list    : t.pos.replayPos = none
  delay   : DelayGrows s t

/-- The flags and the type code are as they were. -/
def SameFlags (s t : State) : Prop :=
  t.regs.enVibration = s.regs.enVibration ∧ t.regs.enPressures = s.regs.enPressures ∧
  t.regs.controllerType = s.regs.controllerType

/-- The probes run from a probe's P1 to I2, m more of them after it (R221). -/
theorem probes_run : ∀ (m : Nat) (s : State), Running s → s.pos.opPos = .init .i1 →
    s.pos.cyclePos = some .p1 → s.pos.replayPos = none → s.pos.probe + m + 1 = s.params.probeReads →
    ∃ t, InitReaches .i2 s t ∧ SameFlags s t ∧
      frameCount t.history ≤ frameCount s.history + (m + 1) * (5 + 6 * s.params.readAttempts) := by
  intro m
  induction m with
  | zero =>
    intro s h ho hc hr hm
    obtain ⟨u, hu, -, -, -, hf⟩ := cycle_run h (by simp [State.cycle, ho, hc]) hr
    have hru := hu.same.running h
    have huo := hu.init _ ho
    have hs : step u = .next (afterCycle .i1 u) := by
      rw [hru.step_eq]; simp only [sequencer, hu.list, hu.cycle, stepCycle, stepP7, huo]
    have hlt : ¬ u.pos.probe + 1 < u.params.probeReads := by
      rw [hu.same.probe, hu.same.params]; omega
    simp only [afterCycle, hlt, if_false] at hs
    refine ⟨_, ⟨hu.reach.trans (.one hs), hru.keeps rfl rfl rfl rfl hru.frame hru.acq hru.sleeps, hu.same.params,
      hu.same.port, rfl, rfl, hu.list, hu.same.delay⟩, ⟨hu.same.vib, hu.same.pres, hu.type⟩, ?_⟩
    show frameCount u.history ≤ _
    omega
  | succ m ih =>
    intro s h ho hc hr hm
    obtain ⟨u, hu, -, -, -, hf⟩ := cycle_run h (by simp [State.cycle, ho, hc]) hr
    have hru := hu.same.running h
    have huo := hu.init _ ho
    have hs : step u = .next (afterCycle .i1 u) := by
      rw [hru.step_eq]; simp only [sequencer, hu.list, hu.cycle, stepCycle, stepP7, huo]
    have hlt : u.pos.probe + 1 < u.params.probeReads := by
      rw [hu.same.probe, hu.same.params]; omega
    simp only [afterCycle, hlt, if_true] at hs
    generalize hx : State.enterCycle _ = x at hs
    have hrx : Running x := by subst hx; exact hru.keeps rfl rfl rfl rfl hru.frame hru.acq hru.sleeps
    have hxp : x.params = s.params := by subst hx; exact hu.same.params
    have hxd : DelayGrows s x := by subst hx; exact hu.same.delay
    have hxf : SameFlags s x := by subst hx; exact ⟨hu.same.vib, hu.same.pres, hu.type⟩
    obtain ⟨t, ht, kf, kt⟩ := ih x hrx (by subst hx; exact huo) (by subst hx; rfl)
      (by subst hx; exact hu.list) (by
        rw [hxp]; subst hx; show u.pos.probe + 1 + m + 1 = _; rw [hu.same.probe]; omega)
    refine ⟨t, ⟨hu.reach.trans (.cons hs ht.reach), ht.running, ht.params.trans hxp,
      ht.port.trans (by subst hx; exact hu.same.port), ht.op, ht.cyc, ht.list,
      hxd.trans hxp ht.delay⟩, ⟨kf.1.trans hxf.1, kf.2.1.trans hxf.2.1, kf.2.2.trans hxf.2.2⟩, ?_⟩
    have e : frameCount x.history = frameCount u.history := by subst hx; rfl
    rw [e, hxp] at kt
    have : (m + 1 + 1) * (5 + 6 * s.params.readAttempts) =
        (m + 1) * (5 + 6 * s.params.readAttempts) + (5 + 6 * s.params.readAttempts) := by ring
    omega

/-- One attempt runs from I3 to I4, the flags from the operands (R223). -/
theorem attempt_run {s : State} (h : Running s) (ho : s.pos.opPos = .init .i3)
    (hc : s.pos.cyclePos = none) (hr : s.pos.replayPos = none) :
    ∃ t, InitReaches .i4 s t ∧ t.pos.attempt = s.pos.attempt ∧ t.regs.enVibration = s.opV ∧
      t.regs.enPressures = s.opP ∧
      frameCount t.history ≤ frameCount s.history + (11 + 6 * s.params.readAttempts) := by
  have hs : step s = .next (stepI3 s) := by
    rw [h.step_eq]; simp [sequencer, hr, State.cycle, ho, hc, stepInit]
  generalize hx : stepI3 s = x at hs
  have hrx : Running x := by subst hx; exact h.keeps rfl rfl rfl rfl h.frame h.acq h.sleeps
  have hxo : x.pos.opPos = .init .i3 := by subst hx; exact ho
  have hxc : x.pos.cyclePos = none := by subst hx; exact hc
  have hxp : x.params = s.params := by subst hx; rfl
  have hxq : x.port = s.port := by subst hx; rfl
  have hxd : DelayGrows s x := by subst hx; exact .of_eq rfl
  have hxa : x.pos.attempt = s.pos.attempt := by subst hx; rfl
  have hxv : x.regs.enVibration = s.opV ∧ x.regs.enPressures = s.opP := by subst hx; exact ⟨rfl, rfl⟩
  have hxf : frameCount x.history = frameCount s.history := by subst hx; rfl
  obtain ⟨w, g1, g2, g3, g4, -⟩ := list_run_whole hrx (by subst hx; rfl)
  have hwo : w.pos.opPos = .init .i3 := g2.op.trans hxo
  have hwc : w.pos.cyclePos = none := g2.cyc.trans hxc
  have har : afterReplay w = w.leaveList.enterCycle := by
    simp only [afterReplay, State.cycle, hwo, hwc]
  rw [har] at g1
  have hrw := g2.same.running hrx
  have hre : Running w.leaveList.enterCycle := hrw.keeps rfl rfl rfl rfl hrw.frame hrw.acq hrw.sleeps
  obtain ⟨u, hu, -, -, -, hf⟩ := cycle_run hre (by
    have : w.leaveList.enterCycle.pos.opPos = .init .i3 := hwo
    simp only [State.cycle, this]; rfl) rfl
  have hru := hu.same.running hre
  have huo := hu.init _ hwo
  have hs2 : step u = .next (afterCycle .i3 u) := by
    rw [hru.step_eq]; simp only [sequencer, hu.list, hu.cycle, stepCycle, stepP7, huo]
  have hpar : w.params = s.params := g2.same.params.trans hxp
  have hdw : DelayGrows s w := hxd.trans hxp g2.same.delay
  have hdu : DelayGrows s u := hdw.trans hpar hu.same.delay
  refine ⟨u.goInit .i4, ⟨.cons hs (g1.trans (hu.reach.trans (.one hs2))),
    hru.keeps rfl rfl rfl rfl hru.frame hru.acq hru.sleeps, hu.same.params.trans hpar, ?_, rfl, rfl, hu.list, hdu⟩,
    ?_, ?_, ?_, ?_⟩
  · exact hu.same.port.trans (g2.same.port.trans hxq)
  · exact hu.same.attempt.trans (g2.same.attempt.trans hxa)
  · exact hu.same.vib.trans (g2.same.vib.trans hxv.1)
  · exact hu.same.pres.trans (g2.same.pres.trans hxv.2)
  · show frameCount u.history ≤ _
    have e1 : frameCount w.leaveList.enterCycle.history = frameCount w.history := rfl
    have e2 : w.leaveList.enterCycle.params = s.params := hpar
    rw [e1, e2] at hf
    omega

/-- The status that I4's tests give is one the mode byte bears out, and neither NotFound nor
ConfigRejected. -/
theorem goStatus_ok {u : State} {r : Status} (h : attemptResult u.params u.opP u.modeByte = some r) :
    (u.goStatus r).statusOk ∧ r ≠ .notFound ∧ r ≠ .configRejected := by
  unfold attemptResult at h
  cases hp : u.opP <;> simp only [hp] at h
  · simp only [Bool.false_and, Bool.false_eq_true, if_false, Bool.not_false, Bool.true_and] at h
    split at h
    · next hm =>
      injection h with h; subst h
      exact ⟨.inr ⟨hp, eq_of_beq hm⟩, by simp, by simp⟩
    · simp at h
  · simp only [Bool.true_and, Bool.not_true, Bool.false_and, Bool.false_eq_true, if_false] at h
    split at h
    · next hm =>
      injection h with h; subst h
      exact ⟨.inl ⟨hp, eq_of_beq hm⟩, by simp, by simp⟩
    · split at h
      · next hm =>
        injection h with h; subst h
        exact ⟨⟨hp, eq_of_beq hm⟩, by simp, by simp⟩
      · simp at h

/-- What the attempts of INIT leave at I5: the flags as the operands, and after ConfigRejected a delay
that has grown once for every failed attempt. -/
structure AttemptsRan (n : Nat) (s t : State) : Prop where
  at5    : InitReaches .i5 s t
  vib    : t.regs.enVibration = s.opV
  pres   : t.regs.enPressures = s.opP
  found  : t.pos.status ≠ .notFound
  status : t.statusOk
  grown  : t.pos.status = .configRejected → s.regs.readDelay ≤ s.params.delayCap →
    min (s.regs.readDelay + n) s.params.delayCap ≤ t.regs.readDelay
  frames : frameCount t.history ≤ frameCount s.history + n * (11 + 6 * s.params.readAttempts)

/-- The attempts from the current one on run from I3 to I5, m more of them after it (R223 to R226). -/
theorem init_attempts_run : ∀ (m : Nat) (s : State), Running s → s.pos.opPos = .init .i3 →
    s.pos.cyclePos = none → s.pos.replayPos = none → s.pos.attempt + m = s.params.configAttempts →
    ∃ t, AttemptsRan (m + 1) s t := by
  intro m s h ho hc hr hm
  induction m generalizing s with
  | zero =>
    obtain ⟨u, hu, ha, hv, hp, hf⟩ := attempt_run h ho hc hr
    have hs : step u = .next (stepI4 u) := by
      rw [hu.running.step_eq]; simp [sequencer, hu.list, State.cycle, hu.op, hu.cyc, stepInit]
    have hop : u.opP = s.opP := by unfold State.opP; rw [hu.port]
    unfold stepI4 at hs
    split at hs
    · next r hres =>
      have hne := goStatus_ok hres
      exact ⟨_, ⟨hu.reach.trans (.one hs), hu.running.keeps rfl rfl rfl rfl hu.running.frame hu.running.acq hu.running.sleeps,
        hu.params, hu.port, rfl, rfl, hu.list, hu.delay⟩, hv, hp, hne.2.1,
        hne.1, fun e => absurd e hne.2.2, by show frameCount u.history ≤ _; omega⟩
    · next hres =>
      simp only at hs
      rw [if_neg (by rw [ha, hu.params]; omega)] at hs
      refine ⟨_, ⟨hu.reach.trans (.one hs), hu.running.keeps rfl rfl rfl rfl hu.running.frame
        hu.running.acq hu.running.sleeps, hu.params, hu.port, rfl, rfl, hu.list, fun hle => ?_⟩, hv, hp, by simp,
        .inr hres, fun _ hle => ?_, by show frameCount u.history ≤ _; omega⟩
      all_goals
        have hd := hu.delay hle
        have hcap : u.params.delayCap = s.params.delayCap := by rw [hu.params]
        simp only [State.grownDelay, State.goStatus_regs]
        omega
  | succ m ih =>
    obtain ⟨u, hu, ha, hv, hp, hf⟩ := attempt_run h ho hc hr
    have hs : step u = .next (stepI4 u) := by
      rw [hu.running.step_eq]; simp [sequencer, hu.list, State.cycle, hu.op, hu.cyc, stepInit]
    have hring : (m + 1 + 1) * (11 + 6 * s.params.readAttempts) =
        (m + 1) * (11 + 6 * s.params.readAttempts) + (11 + 6 * s.params.readAttempts) := by ring
    unfold stepI4 at hs
    split at hs
    · next r hres =>
      have hne := goStatus_ok hres
      exact ⟨_, ⟨hu.reach.trans (.one hs), hu.running.keeps rfl rfl rfl rfl hu.running.frame hu.running.acq hu.running.sleeps,
        hu.params, hu.port, rfl, rfl, hu.list, hu.delay⟩, hv, hp, hne.2.1,
        hne.1, fun e => absurd e hne.2.2, by show frameCount u.history ≤ _; omega⟩
    · simp only at hs
      rw [if_pos (by rw [ha, hu.params]; omega)] at hs
      generalize hx : State.mk _ _ _ _ _ _ _ _ = x at hs
      have hrx : Running x := by
        subst hx; exact hu.running.keeps rfl rfl rfl rfl hu.running.frame hu.running.acq hu.running.sleeps
      have hxp : x.params = s.params := by subst hx; exact hu.params
      have hxq : x.port = s.port := by subst hx; exact hu.port
      have hxd : x.regs.readDelay = min (u.regs.readDelay + 1) u.params.delayCap := by subst hx; rfl
      have hcap : u.params.delayCap = s.params.delayCap := by rw [hu.params]
      have hgx : DelayGrows s x := fun hle => by
        have := hu.delay hle
        rw [hxd]
        omega
      obtain ⟨t, ht⟩ := ih x hrx (by subst hx; rfl) (by subst hx; rfl) (by subst hx; exact hu.list) (by
        rw [hxp]; subst hx; show u.pos.attempt + 1 + m = _; rw [ha]; omega)
      have e : frameCount x.history = frameCount u.history := by subst hx; rfl
      have kf := ht.frames
      rw [e, hxp] at kf
      refine ⟨t, ⟨hu.reach.trans (.cons hs ht.at5.reach), ht.at5.running, ht.at5.params.trans hxp,
        ht.at5.port.trans hxq, ht.at5.op, ht.at5.cyc, ht.at5.list, hgx.trans hxp ht.at5.delay⟩,
        ht.vib.trans (by unfold State.opV; rw [hxq]), ht.pres.trans (by unfold State.opP; rw [hxq]),
        ht.found, ht.status, fun e hle => ?_, by omega⟩
      have h1 := hgx hle
      have h2 := ht.grown e (by rw [hxp]; exact h1.2)
      have h3 := hu.delay hle
      rw [hxp, hxd] at h2
      omega

/-- INIT runs from I2 to I5: NotFound with nothing written, or the attempts (R222). -/
theorem presence_run {s : State} (h : Running s) (ho : s.pos.opPos = .init .i2)
    (hc : s.pos.cyclePos = none) (hr : s.pos.replayPos = none) (hn : 1 ≤ s.params.configAttempts) :
    ∃ t, InitReaches .i5 s t ∧
      (t.pos.status = .notFound ∧ t.statusOk ∧ SameFlags s t ∧
        frameCount t.history = frameCount s.history ∨
       AttemptsRan s.params.configAttempts s t) := by
  have hs : step s = .next (stepI2 s) := by
    rw [h.step_eq]; simp [sequencer, hr, State.cycle, ho, hc, stepInit]
  unfold stepI2 at hs
  split at hs
  · rw [if_neg (by omega)] at hs
    generalize hx : State.mk _ _ _ _ _ _ _ _ = x at hs
    have hrx : Running x := by subst hx; exact h.keeps rfl rfl rfl rfl h.frame h.acq h.sleeps
    have hxp : x.params = s.params := by subst hx; rfl
    have hxq : x.port = s.port := by subst hx; rfl
    have hxd : x.regs = s.regs := by subst hx; rfl
    have hxf : frameCount x.history = frameCount s.history := by subst hx; rfl
    obtain ⟨t, ht⟩ := init_attempts_run (s.params.configAttempts - 1) x hrx (by subst hx; rfl)
      (by subst hx; rfl) (by subst hx; exact hr) (by rw [hxp]; subst hx; simp; omega)
    rw [Nat.sub_add_cancel hn] at ht
    have h5 : InitReaches .i5 s t := ⟨.cons hs ht.at5.reach, ht.at5.running, ht.at5.params.trans hxp,
      ht.at5.port.trans hxq, ht.at5.op, ht.at5.cyc, ht.at5.list,
      DelayGrows.trans (.of_eq (by rw [hxd])) hxp ht.at5.delay⟩
    refine ⟨t, h5, .inr ⟨h5, ht.vib.trans (by unfold State.opV; rw [hxq]),
      ht.pres.trans (by unfold State.opP; rw [hxq]), ht.found, ht.status, ?_, ?_⟩⟩
    · have := ht.grown
      rw [hxd, hxp] at this
      exact this
    · have := ht.frames
      rw [hxf, hxp] at this
      exact this
  · next hpres =>
    exact ⟨_, ⟨.one hs, h.keeps rfl rfl rfl rfl h.frame h.acq h.sleeps, rfl, rfl, rfl, rfl, hr, .of_eq rfl⟩,
      .inl ⟨rfl, (by simpa [State.present] using hpres : s.modeByte ∉ s.params.validModes),
        ⟨rfl, rfl, rfl⟩, rfl⟩⟩

end Sys2Proof.Machine
end

