-- ==== Sys2Proof/Laws/Moves.lean ====
section
/-! SUPPORT. How the invariant survives a change of the sequencer position: a frame, a move inside a read
cycle, a move of INIT. Each law takes what changed and answers that the invariant holds after it. -/

namespace Sys2Proof.Machine

/-- The law of the lines over a longer history, from an awake block. -/
theorem historyOk_ext {s t : State} {es : List Event} (h : s.historyOk) (hw : s.pos.asleep = false)
    (hp : t.params = s.params) (hb : t.bus = s.bus) (he : t.history = es ++ s.history)
    (hr : Lines.run s.params.transport .idle es.reverse = some .idle) : t.historyOk := by
  obtain ⟨l, hl, hbus, hi⟩ := h
  obtain rfl := hi hw
  refine ⟨.idle, ?_, hb.trans hbus, fun _ => rfl⟩
  rw [hp, he, List.reverse_append, Lines.run_append, hl]
  exact hr

/-- Nothing changed but the position, the history and the environment. -/
structure OnlyPosition (s t : State) : Prop where
  params : t.params = s.params
  regs : t.regs = s.regs
  port : t.port = s.port
  bus : t.bus = s.bus

/-- The invariant after a change of the position and the history only, of an awake block. -/
theorem inv_of_pos {s t : State} {es : List Event} (h : s.Inv) (hw : s.pos.asleep = false)
    (hc : OnlyPosition s t)
    (he : t.history = es ++ s.history)
    (hr : Lines.run s.params.transport .idle es.reverse = some .idle)
    (hp : t.positionOk) (hf : t.frameOk) : t.Inv where
  params := by rw [hc.params]; exact h.params
  rb := by unfold State.rbOk; rw [hc.params, hc.regs]; exact h.rb
  timing := by unfold State.timingOk; rw [hc.params, hc.regs]; exact h.timing
  lines := fun _ => by unfold State.linesIdle; rw [hc.bus]; exact h.lines hw
  position := hp
  frame := hf
  history := historyOk_ext h.history hw hc.params hc.bus he hr

/-- RB after a read frame's reply bytes. -/
theorem rb_frame {s : State} (h : s.rbOk) (hok : s.params.ok = true) {rs : List Byte} {cont : Bool} {a b : Byte}
    (hl : rs.length = (readBytes s.params a b cont).length) :
    Memory.wf (storeFrom 0 rs s.regs.rb) ∧ ∀ c ∈ storeFrom 0 rs s.regs.rb, c.1 < s.params.rbLen := by
  refine ⟨storeFrom_wf h.1 0 rs, storeFrom_lt h.2 0 rs ?_⟩
  have : s.params.rbLen = s.params.catalog.shortLen + s.params.catalog.contLen := by
    unfold Params.ok at hok
    simp at hok
    exact hok.2
  rw [hl, this]
  cases cont <;> simp [readBytes, readRequest, contRequest]

/-- The control part of the position. -/
structure SamePos (s t : State) : Prop where
  opPos : t.pos.opPos = s.pos.opPos
  probe : t.pos.probe = s.pos.probe
  attempt : t.pos.attempt = s.pos.attempt
  cyclePos : t.pos.cyclePos = s.pos.cyclePos
  retry : t.pos.retry = s.pos.retry
  replayPos : t.pos.replayPos = s.pos.replayPos
  scaledB : t.pos.scaledB = s.pos.scaledB

/-- The position stays one that R46 allows while its control part and what it depends on stay. -/
theorem positionOk_congr {s t : State} (h : s.positionOk)
    (hf : s.pos.frame ≠ none ∨ s.pos.replayPos ≠ none) (hp : SamePos s t)
    (hpar : t.params = s.params) (hport : t.port = s.port)
    (h1 : t.regs.enVibration = s.regs.enVibration) (h2 : t.regs.enPressures = s.regs.enPressures)
    (h3 : t.regs.sessionValid = s.regs.sessionValid) : t.positionOk := by
  have hc : t.commands = s.commands :=
    State.commands_congr (by simp [State.cycle, hp.opPos, hp.cyclePos]) (by rw [hport]) h1 h2
  have hcy : ∀ l, s.cycleOk l → t.cycleOk l := by
    intro l hl
    unfold State.cycleOk at *
    simpa [hc, hp.replayPos, hp.retry, hp.scaledB, hpar] using hl
  unfold State.positionOk at *
  rw [hp.opPos]
  cases ho : s.pos.opPos with
  | idle =>
    simp only [ho] at h
    rcases hf with hf | hf
    · exact absurd h.2.2.1 hf
    · exact absurd h.2.1 hf
  | query => simp [ho] at h
  | poll l =>
    simp only [ho] at h ⊢
    rw [hport, h3]
    exact ⟨h.1, h.2.1, h.2.2.1, hcy l h.2.2.2⟩
  | init l =>
    simp only [ho] at h ⊢
    rw [hport]
    refine ⟨h.1, h.2.1, ?_⟩
    have hi := h.2.2
    unfold State.initOk at *
    rw [hp.cyclePos]
    have hat : s.attemptOk → t.attemptOk := by
      intro ha; unfold State.attemptOk at *; rw [hp.attempt, hpar]; exact ha
    cases l <;> cases hcp : s.pos.cyclePos <;> simp only [hcp] at hi ⊢
    · rw [hp.replayPos]; exact hi
    · rw [hp.probe, hpar]; exact ⟨hi.1, hcy _ hi.2⟩
    · rw [hp.replayPos]; exact hi
    · rw [hp.replayPos, hc]; exact ⟨hat hi.1, hi.2⟩
    · exact ⟨hat hi.1, hcy _ hi.2⟩
    · rw [hp.replayPos]; exact ⟨hat hi.1, hi.2⟩
    · rcases hf with hf | hf
      · exact absurd hi.2.1 hf
      · exact absurd hi.1 hf

/-- What no frame writes. -/
theorem framedRegs_flags (p : Params) (g : Regs) (rs : List Byte) (i : Instr) :
    (framedRegs p g rs i).enVibration = g.enVibration ∧ (framedRegs p g rs i).enPressures = g.enPressures ∧
    (framedRegs p g rs i).sessionValid = g.sessionValid ∧ (framedRegs p g rs i).readDelay = g.readDelay ∧
    (framedRegs p g rs i).lastRead = g.lastRead := by
  cases i <;> simp [framedRegs]

/-! ## Frames -/

/-- A frame that stops in a sleep keeps the invariant: its events are the front of a lawful frame's, so the
law holds of them, and the lines are where they left them (R290). -/
theorem Stops.inv {i : Instr} {s t : State} (h : s.Inv) (hf : s.pos.frame = some i)
    (hw : s.pos.asleep = false) (k : Stops i s t) : t.Inv := by
  obtain ⟨fp, byi, bi, sh, dc, a, hpos⟩ := k.stopped.pos
  obtain ⟨m, c, v, hregs, -, -⟩ := k.stopped.regs
  have hpar := k.stopped.params
  constructor
  · rw [hpar]; exact h.params
  · exact k.rb h.rb
  · have hr := k.release
    unfold State.timingOk
    rw [hpar]
    refine ⟨?_, ?_, ?_, ?_⟩
    · rw [hregs]; exact h.timing.1
    · rw [hregs]; exact h.timing.2.1
    · rw [hregs]; exact h.timing.2.2.1
    · rcases hr with hr | hr
      · rw [hr]; exact h.timing.2.2.2
      · exact hr
  · intro hn; rw [k.stopped.asleep] at hn; exact absurd hn (by simp)
  · refine positionOk_congr h.position (.inl (by simp [hf])) ?_ hpar k.stopped.port ?_ ?_ ?_
    · constructor <;> rw [hpos]
    all_goals rw [hregs]
  · refine ⟨?_, fun ha => ?_⟩
    · intro j hj
      rw [hpos] at hj
      exact h.frame.1 j (by rw [hf]; exact hj)
    · obtain ⟨h1, h2⟩ := k.acq ha
      rw [hpar]; exact h.frame.2 h2
  · obtain ⟨es, he, hb⟩ := k.events
    obtain ⟨u, fs, -, hrun, hu⟩ := k.whole
    obtain ⟨rs, cont, v, pre, tail, -, -, -, -, hh, htail, hpre⟩ := hrun
    obtain ⟨l, hl, hbus, hi⟩ := h.history
    obtain rfl := hi hw
    have hlaw : Lines.run s.params.transport .idle u.history.reverse = some .idle := by
      rw [hh]
      have h1 : s.freed.history = s.history := rfl
      have h2 : s.freed.params = s.params := rfl
      rw [h1, h2]
      simp only [List.reverse_append, List.reverse_reverse, Lines.run_append, hl, Option.bind_some]
      have h3 : Lines.run s.params.transport .idle pre.reverse = some .idle := by
        rcases hpre with rfl | ⟨n, rfl⟩ <;> simp [Lines.run, Lines.next, Lines.idle]
      have h4 : Lines.run s.params.transport .idle tail.reverse = some .idle := by
        rcases htail with rfl | ⟨n, rfl⟩ <;> simp [Lines.run, Lines.next, Lines.idle]
      rw [h3]
      simp only [Option.bind_some, Lines.run_frame, h4]
    rw [hu, List.reverse_append] at hlaw
    obtain ⟨j, hj⟩ := Lines.run_front hlaw
    refine ⟨j, by rw [hpar]; exact hj, ?_, fun hn => ?_⟩
    · have hjb := Lines.run_bus hj
      rw [hb, hbus, hjb, he]
      have := Lines.run_bus hl
      simp only [List.reverse_append, List.reverse_reverse, List.foldl_append]
      rw [← this]
    · rw [k.stopped.asleep] at hn; exact absurd hn (by simp)

/-! ## Moves of the position -/

/-- A single event between frames leaves idle lines idle. -/
theorem run_small {t : Transport} {e : Event}
    (h : (∃ n, e = .sleepMs n) ∨ (∃ c, e = .clock c) ∨ ∃ r, e = .hostDone r) :
    Lines.run t .idle [e] = some .idle := by
  rcases h with ⟨n, rfl⟩ | ⟨c, rfl⟩ | ⟨r, rfl⟩ <;> simp [Lines.run, Lines.next, Lines.idle]

/-- In a cycle, positionOk is the cycle's part plus a part that no move inside the cycle touches. -/
def Around (s : State) : Prop :=
  match s.pos.opPos with
  | .idle => False
  | .query => False
  | .init l => s.port.busy = true ∧ (∃ p v, s.port.op = hostWord (.init p v)) ∧
      (match l with
       | .i1 => s.pos.probe < s.params.probeReads
       | .i3 => s.attemptOk
       | _ => False)
  | .poll _ => s.port.busy = true ∧ (∃ a b, s.port.op = hostWord (.poll a b)) ∧ s.regs.sessionValid = true

/-- Inside a read cycle a legal position has both parts. -/
theorem around_of {s : State} {l : CycleStep} (h : s.positionOk) (hc : s.cycle = some l) :
    Around s ∧ s.cycleOk l := by
  unfold State.positionOk at h
  unfold Around
  unfold State.cycle at hc
  cases ho : s.pos.opPos with
  | idle => simp [ho] at hc
  | query => simp [ho] at hc
  | poll l' =>
    simp only [ho] at h hc ⊢
    injection hc with hc; subst hc
    exact ⟨⟨h.1, h.2.1, h.2.2.1⟩, h.2.2.2⟩
  | init l' =>
    simp only [ho] at h hc ⊢
    have hi := h.2.2
    unfold State.initOk at hi
    cases l' <;> simp only [hc] at hi
    · exact ⟨⟨h.1, h.2.1, hi.1⟩, hi.2⟩
    · exact ⟨⟨h.1, h.2.1, hi.1⟩, hi.2⟩

/-- And both parts make a legal position. -/
theorem positionOk_of {s : State} {l : CycleStep} (ha : Around s) (hc : s.cycle = some l)
    (hk : s.cycleOk l) : s.positionOk := by
  unfold State.positionOk
  unfold Around at ha
  unfold State.cycle at hc
  cases ho : s.pos.opPos with
  | idle => simp [ho] at hc
  | query => simp [ho] at hc
  | poll l' =>
    simp only [ho] at ha hc ⊢
    injection hc with hc; subst hc
    exact ⟨ha.1, ha.2.1, ha.2.2, hk⟩
  | init l' =>
    simp only [ho] at ha hc ⊢
    refine ⟨ha.1, ha.2.1, ?_⟩
    unfold State.initOk
    cases l' <;> simp only [hc] <;> simp at ha
    · exact ⟨ha.2.2, hk⟩
    · exact ⟨ha.2.2, hk⟩

theorem around_congr {s t : State} (h : Around s)
    (hop : t.pos.opPos = s.pos.opPos ∨ ∃ l l', s.pos.opPos = .poll l ∧ t.pos.opPos = .poll l')
    (hport : t.port = s.port)
    (hpr : t.pos.probe = s.pos.probe) (hat : t.pos.attempt = s.pos.attempt) (hpar : t.params = s.params)
    (hsv : t.regs.sessionValid = s.regs.sessionValid) : Around t := by
  unfold Around at *
  rcases hop with hop | ⟨l, l', h1, h2⟩
  · rw [hop]
    cases ho : s.pos.opPos <;> simp only [ho] at h ⊢
    · rw [hport, hpr, hpar]
      refine ⟨h.1, h.2.1, ?_⟩
      have := h.2.2
      unfold State.attemptOk at *
      rw [hat, hpar]; exact this
    · rw [hport, hsv]; exact h
  · rw [h2]; simp only [h1] at h ⊢
    rw [hport, hsv]; exact h

/-- A move inside a read cycle. -/
theorem cycle_move {s t : State} {l l' : CycleStep} {es : List Event} (h : s.Inv)
    (hw : s.pos.asleep = false) (hcy : s.cycle = some l)
    (hpos : t.pos.opPos = (s.goCycle l').pos.opPos) (hcp : t.pos.cyclePos = (s.goCycle l').pos.cyclePos)
    (hpr : t.pos.probe = s.pos.probe) (hat : t.pos.attempt = s.pos.attempt)
    (hfr : t.pos.frame = none ∨ ∃ i, t.pos.frame = some i ∧ i.isWire = true ∧ i.wf = true)
    (hacq : t.pos.acquiring = s.pos.acquiring)
    (hpar : t.params = s.params) (hport : t.port = s.port) (hbus : t.bus = s.bus)
    (hregs : ∃ d lr lb b, t.regs =
        { s.regs with readDelay := d, lastRead := lr, lastButtons := lb, buttons := b } ∧
      s.params.delayInit ≤ d ∧ d ≤ s.params.delayCap ∧ lr < 2 ^ s.params.clockBits)
    (hk : t.cycleOk l')
    (he : t.history = es ++ s.history)
    (hr : Lines.run s.params.transport .idle es.reverse = some .idle) : t.Inv := by
  obtain ⟨d, lr, lb, b, hregs, hd1, hd2, hlr⟩ := hregs
  have hcyt : t.cycle = some l' := by
    have := State.goCycle_cycle l' hcy
    unfold State.cycle at this ⊢
    rw [hpos, hcp]; exact this
  constructor
  · rw [hpar]; exact h.params
  · unfold State.rbOk; rw [hpar, hregs]; exact h.rb
  · unfold State.timingOk; rw [hpar, hregs]; exact ⟨hd1, hd2, hlr, h.timing.2.2.2⟩
  · intro _; unfold State.linesIdle; rw [hbus]; exact h.lines hw
  · refine positionOk_of (around_congr (around_of h.position hcy).1 ?_ hport hpr hat hpar (by rw [hregs])) hcyt hk
    rw [hpos]
    cases ho : s.pos.opPos with
    | idle => exact .inl (by simp [ho, OpPos.inCycle])
    | query => exact .inl (by simp [ho, OpPos.inCycle])
    | poll l => exact .inr ⟨l, l', rfl, by simp [ho]⟩
    | init l => exact .inl (by simp [ho])
  · refine ⟨?_, by rw [hacq, hpar]; exact h.frame.2⟩
    intro j hj
    rcases hfr with hfr | ⟨i, hfr, hi⟩
    · simp [hfr] at hj
    · simp [hfr] at hj; subst hj; exact hi
  · exact historyOk_ext h.history hw hpar hbus he hr

/-- A block that falls asleep inside a read cycle, between frames (R290). -/
theorem asleep_move {s : State} {l : CycleStep} (h : s.Inv) (hw : s.pos.asleep = false)
    (hc : s.cycle = some l) (n : Nat) :
    State.Inv { s with pos := { s.pos with asleep := true }, history := .sleepMs n :: s.history } := by
  obtain ⟨har, hok⟩ := around_of h.position hc
  obtain ⟨k, hk, hb, hi⟩ := h.history
  obtain rfl := hi hw
  have hs : Lines.run s.params.transport .idle ([Event.sleepMs n] ++ s.history).reverse = some .idle := by
    rw [List.reverse_append, Lines.run_append, hk]
    exact run_small (t := s.params.transport) (.inl ⟨n, rfl⟩)
  exact ⟨h.params, h.rb, h.timing, fun h0 => by simp at h0,
    positionOk_of (around_congr har (.inl rfl) rfl rfl rfl rfl rfl) hc hok, h.frame, .idle, hs, hb, fun _ => rfl⟩

theorem scale_ok : ∀ b : Byte, actuatorBOk (scale b) = true := by decide
theorem actuator_ok (a : Bool) : actuatorAOk (actuatorA a) = true := by cases a <;> rfl

theorem commands_goCycle {s : State} {l l' : CycleStep} (hc : s.cycle = some l) :
    (s.goCycle l').commands = s.commands := by
  have := State.goCycle_cycle l' hc
  simp [State.commands, hc, this]

theorem cycleOk_none {s : State} {l : CycleStep} (h : s.pos.replayPos = none) (hl : l ≠ .p4) : s.cycleOk l := by
  unfold State.cycleOk
  cases l <;> simp_all

theorem cycle_congr {s t : State} (ho : t.pos.opPos = s.pos.opPos) (hc : t.pos.cyclePos = s.pos.cyclePos) :
    t.cycle = s.cycle := by
  simp [State.cycle, ho, hc]

theorem goCycle_self {s : State} {l : CycleStep} (h : s.cycle = some l) :
    (s.goCycle l).pos.opPos = s.pos.opPos ∧ (s.goCycle l).pos.cyclePos = s.pos.cyclePos := by
  unfold State.cycle at h
  cases ho : s.pos.opPos <;> simp [ho] at h ⊢ <;> simp [h]

theorem keepRegs {s : State} (h : s.Inv) : ∃ d lr lb b, s.regs =
      { s.regs with readDelay := d, lastRead := lr, lastButtons := lb, buttons := b } ∧
      s.params.delayInit ≤ d ∧ d ≤ s.params.delayCap ∧ lr < 2 ^ s.params.clockBits :=
  ⟨s.regs.readDelay, s.regs.lastRead, s.regs.lastButtons, s.regs.buttons, rfl, h.timing.1,
    h.timing.2.1, h.timing.2.2.1⟩

theorem clock_lt {s : State} : s.nowMs.1 < 2 ^ s.params.clockBits := State.nowMs_lt s

/-- After a read cycle inside INIT, and every other move of INIT between read cycles. -/
theorem init_move {s t : State} {l l' : InitStep} {es : List Event} (h : s.Inv)
    (hw : s.pos.asleep = false) (hop : s.pos.opPos = .init l)
    (hpos : t.pos.opPos = .init l')
    (hfr : t.pos.frame = none ∨ ∃ i, t.pos.frame = some i ∧ i.isWire = true ∧ i.wf = true)
    (hacq : t.pos.acquiring = s.pos.acquiring)
    (hpar : t.params = s.params) (hport : t.port = s.port) (hbus : t.bus = s.bus)
    (hregs : ∃ d ev ep, t.regs = { s.regs with readDelay := d, enVibration := ev, enPressures := ep } ∧
      s.params.delayInit ≤ d ∧ d ≤ s.params.delayCap)
    (hk : t.initOk l')
    (he : t.history = es ++ s.history)
    (hr : Lines.run s.params.transport .idle es.reverse = some .idle) : t.Inv := by
  obtain ⟨d, ev, ep, hregs, hd1, hd2⟩ := hregs
  constructor
  · rw [hpar]; exact h.params
  · unfold State.rbOk; rw [hpar, hregs]; exact h.rb
  · unfold State.timingOk; rw [hpar, hregs]; exact ⟨hd1, hd2, h.timing.2.2⟩
  · intro _; unfold State.linesIdle; rw [hbus]; exact h.lines hw
  · have := h.position
    unfold State.positionOk at *
    simp only [hop] at this
    simp only [hpos]
    rw [hport]
    exact ⟨this.1, this.2.1, hk⟩
  · refine ⟨?_, by rw [hacq, hpar]; exact h.frame.2⟩
    intro j hj
    rcases hfr with hfr | ⟨i, hfr, hi⟩
    · simp [hfr] at hj
    · simp [hfr] at hj; subst hj; exact hi
  · exact historyOk_ext h.history hw hpar hbus he hr

theorem keepDelay {s : State} (h : s.Inv) : ∃ d ev ep, s.regs =
      { s.regs with readDelay := d, enVibration := ev, enPressures := ep } ∧
      s.params.delayInit ≤ d ∧ d ≤ s.params.delayCap :=
  ⟨s.regs.readDelay, s.regs.enVibration, s.regs.enPressures, rfl, h.timing.1, h.timing.2.1⟩

theorem grown_ok {s : State} (h : s.Inv) :
    s.params.delayInit ≤ s.grownDelay ∧ s.grownDelay ≤ s.params.delayCap := by
  have := h.timing.1
  have := h.timing.2.1
  unfold State.grownDelay
  omega

end Sys2Proof.Machine
end

