-- ==== Sys2Proof/Laws/PerInstr.lean ====
section
/-! SUPPORT. The per-instruction family CodeSpace: which of the two encoded spaces of R2 an instruction is
in. The case split over constructors is the host's. -/

namespace Sys2Proof.Laws.CodeSpace

/-- A wire frame is encoded as request bytes, a host operation as a word. -/
def Statement (i : Instr) : Prop :=
  (∃ bytes, encode defaultCatalog i = .wire bytes) ↔ i.isWire = true

theorem init (p v : Bool) : Statement (.init p v) := by simp [Statement, encode, Instr.isWire]
theorem poll (a : Bool) (b : Byte) : Statement (.poll a b) := by simp [Statement, encode, Instr.isWire]
theorem isPressed (m : ButtonWord) : Statement (.isPressed m) := by
  simp [Statement, encode, Instr.isWire]
theorem wasPressed (m : ButtonWord) : Statement (.wasPressed m) := by
  simp [Statement, encode, Instr.isWire]
theorem wasReleased (m : ButtonWord) : Statement (.wasReleased m) := by
  simp [Statement, encode, Instr.isWire]
theorem wasToggled (m : ButtonWord) : Statement (.wasToggled m) := by
  simp [Statement, encode, Instr.isWire]
theorem anyToggled : Statement .anyToggled := by simp [Statement, encode, Instr.isWire]
theorem analog (k : BitVec 5) : Statement (.analog k) := by simp [Statement, encode, Instr.isWire]
theorem readType : Statement .readType := by simp [Statement, encode, Instr.isWire]
theorem enterConfig : Statement .enterConfig := by simp [Statement, encode, Instr.isWire]
theorem queryType : Statement .queryType := by simp [Statement, encode, Instr.isWire]
theorem setMode : Statement .setMode := by simp [Statement, encode, Instr.isWire]
theorem enableVibration : Statement .enableVibration := by simp [Statement, encode, Instr.isWire]
theorem enablePressure : Statement .enablePressure := by simp [Statement, encode, Instr.isWire]
theorem exitConfig : Statement .exitConfig := by simp [Statement, encode, Instr.isWire]
theorem read (a b : Byte) : Statement (.read a b) := by simp [Statement, encode, Instr.isWire]
theorem readCont (a b : Byte) : Statement (.readCont a b) := by simp [Statement, encode, Instr.isWire]

end Sys2Proof.Laws.CodeSpace
end

