-- ==== Sys2Proof/Tests/Slice0.lean ====
section
/-! SUPPORT. The model's own tests: ill-formed terms that WellFormed refuses, words and frames written out
from the spec's encodings, one-step tests whose expected values are the spec's vectors
(spec/95_test_vectors.md), and for each statement a state and operands that meet its hypotheses. -/

namespace Sys2Proof.Tests
open Sys2Proof.Machine

/-! ## WellFormed refuses (R102, R201) -/

theorem test_wf_actuator_a : (Instr.read 0x02 0x00).wf = false := by decide
theorem test_wf_actuator_b : (Instr.read 0x01 0x3F).wf = false := by decide
theorem test_wf_cont_actuator_a : (Instr.readCont 0xFF 0x40).wf = false := by decide
theorem test_wf_cont_actuator_b : (Instr.readCont 0x00 0x01).wf = false := by decide
theorem test_wf_read : (Instr.read 0x01 0x9F).wf = true := by decide

/-! ## Host words written out from R110 and R111, bit 31 first -/

theorem test_decode_init : decodeHost 0b00000000000000000000000000100000#32 = .ok (.init false true) := by
  decide
theorem test_decode_poll : decodeHost 0b00000000000000001000000000010001#32 = .ok (.poll true 0x80) := by
  decide
theorem test_decode_isPressed :
    decodeHost 0b00000000000000110000000000000010#32 = .ok (.isPressed 0x0003) := by decide
theorem test_decode_wasPressed :
    decodeHost 0b00000000000000010000000000000011#32 = .ok (.wasPressed 0x0001) := by decide
theorem test_decode_wasReleased :
    decodeHost 0b00000000000000010000000000000100#32 = .ok (.wasReleased 0x0001) := by decide
theorem test_decode_wasToggled :
    decodeHost 0b00000000000010000000000000000101#32 = .ok (.wasToggled 0x0008) := by decide
theorem test_decode_anyToggled :
    decodeHost 0b00000000000000000000000000000110#32 = .ok .anyToggled := by decide
theorem test_decode_analog :
    decodeHost 0b00000000000000000001010000000111#32 = .ok (.analog 20) := by decide
theorem test_decode_readType :
    decodeHost 0b00000000000000000000000000001000#32 = .ok .readType := by decide
theorem test_decode_reserved : decodeHost 0x00002007 = .error .reservedEncoding := by decide
theorem test_decode_reserved_bits : decodeHost 0x00000108 = .error .reservedEncoding := by decide

/-! ## Wire frames written out from R96 and R101, byte 0 first -/

theorem test_decode_enterConfig :
    decodeWire defaultCatalog [0x01, 0x43, 0x00, 0x01, 0x00] = .ok .enterConfig := by decide
theorem test_decode_exitConfig :
    decodeWire defaultCatalog [0x01, 0x43, 0x00, 0x00, 0x5A, 0x5A, 0x5A, 0x5A, 0x5A] = .ok .exitConfig := by
  decide
theorem test_decode_setMode :
    decodeWire defaultCatalog [0x01, 0x44, 0x00, 0x01, 0x03, 0x00, 0x00, 0x00, 0x00] = .ok .setMode := by
  decide
theorem test_decode_enablePressure :
    decodeWire defaultCatalog [0x01, 0x4F, 0x00, 0xFF, 0xFF, 0x03, 0x00, 0x00, 0x00] =
      .ok .enablePressure := by decide
theorem test_decode_enableVibration :
    decodeWire defaultCatalog [0x01, 0x4D, 0x00, 0x00, 0x01] = .ok .enableVibration := by decide
theorem test_decode_queryType :
    decodeWire defaultCatalog [0x01, 0x45, 0x00, 0x5A, 0x5A, 0x5A, 0x5A, 0x5A, 0x5A] = .ok .queryType := by
  decide
theorem test_decode_read :
    decodeWire defaultCatalog [0x01, 0x42, 0x00, 0x01, 0x9F, 0x00, 0x00, 0x00, 0x00] =
      .ok (.read 0x01 0x9F) := by decide
theorem test_decode_readCont :
    decodeWire defaultCatalog ([0x01, 0x42, 0x00, 0x01, 0x40, 0x00, 0x00, 0x00, 0x00] ++
      [0x00, 0x00, 0x00, 0x00, 0x00, 0x00, 0x00, 0x00, 0x00, 0x00, 0x00, 0x00]) =
      .ok (.readCont 0x01 0x40) := by decide
theorem test_decode_unknown :
    decodeWire defaultCatalog [0x01, 0x43, 0x00, 0x02, 0x00] = .error .unknownFrame := by decide
theorem test_table_word_read : decodeTableWord 72 0x000000009F01004201 = some (.read 0x01 0x9F) := by decide
theorem test_table_word_poll : decodeTableWord 32 0x00008011 = some (.poll true 0x80) := by decide

/-! ## Small states -/

/-- The test parameters of R7: T_CLK_US 4, T_BYTE_US 3, T_ATT_US 3, T_PACKET_MS 0. -/
def testParams (t : Transport) : Params :=
  { defaultParams with transport := t, tClkUs := 4, tByteUs := 3, tAttUs := 3, tPacketMs := 0,
                       spiBitrate := 250000 }

/-- A time port that ends every sleep, and nothing laid down. -/
def restful : Env := { Env.reset with sleepsLeft := none }

/-- The reset state of an instance with the test parameters, its sleeps ended. -/
def booted (t : Transport) : State := { State.reset with params := testParams t, env := restful }

/-- A session as a read of `FF 73 5A FE FF 80 80 80 80` leaves it, SELECT just pressed (L1-1). -/
def session (t : Transport) : State :=
  { booted t with
    regs := { Regs.reset with
      rb := [(0, 0xFF), (1, 0x73), (2, 0x5A), (3, 0xFE), (4, 0xFF), (5, 0x80), (7, 0x7F)],
      buttons := 0xFFFE, lastButtons := 0xFFFF, controllerType := 0x03, sessionValid := true } }

/-- A POLL A=1, B=128 under way at label l. -/
def polling (l : CycleStep) : State :=
  { session .hwspi with
    port := { HostPort.reset with busy := true, op := hostWord (.poll true 128) },
    pos := { Pos.reset with opPos := .poll l, elapsed := 1, retry := 1, scaledB := 0x9F } }

/-- An INIT P=1, V=0 under way at label l, inside a read cycle at c or between read cycles. -/
def initing (l : InitStep) (c : Option CycleStep) : State :=
  { session .hwspi with
    port := { HostPort.reset with busy := true, op := hostWord (.init true false) },
    pos := { Pos.reset with opPos := .init l, cyclePos := c, attempt := 1, retry := 1 } }

/-- A frame i about to be sent, the clock, the bus grant and the reply bytes laid down. -/
def sending (i : Instr) (replies : List Byte) : State :=
  { session .hwspi with
    pos := { Pos.reset with frame := some i },
    env := { restful with clockIn := [100, 1], grantIn := [true], spiIn := replies } }

/-- The same state with a time port that ends n more sleeps and never the next one. -/
def sleepsOnly (n : Nat) (s : State) : State := { s with env := { s.env with sleepsLeft := some n } }

/-- The state exec answers. -/
def after (i : Instr) (s : State) : Option State :=
  match exec i s with
  | .next t => some t
  | _ => none

/-- The state step answers. -/
def stepped (s : State) : Option State :=
  match step s with
  | .next t => some t
  | _ => none

/-! ## One-step tests -/

/-- L3-1: INIT is word 0x00000000 and sets read_delay to 1 (R221). -/
theorem test_init : (after (.init false false) { booted .hwspi with regs.readDelay := 7 }).map
    (fun t => (t.port.busy, t.port.op, t.regs.readDelay, t.history)) =
    some (true, 0x00000000, 1, [.hostIssue 0x00000000]) := by decide
/-- L2-P9: POLL A=1, B=128 is word 0x00008011. -/
theorem test_poll : (after (.poll true 128) (session .gpio)).map
    (fun t => (t.port.busy, t.port.op, t.pos.opPos)) = some (true, 0x00008011, .poll .p1) := by decide
/-- After reset the word 0x00000001 is refused with NOT_INITIALISED. -/
theorem test_poll_before_init : (after (.poll false 0) (booted .gpio)).map (·.refused) =
    some (some .notInitialised) := by decide
/-- L2-D2, row 2: last 1, now 0. -/
theorem test_isPressed : (after (.isPressed 0x0001) (session .gpio)).map (·.port.result) =
    some 1 := by decide
theorem test_isPressed_other : (after (.isPressed 0x0008) (session .gpio)).map (·.port.result) =
    some 0 := by decide
theorem test_wasPressed : (after (.wasPressed 0x0001) (session .gpio)).map (·.port.result) =
    some 1 := by decide
/-- L2-D3: several bits, both edges at once. -/
theorem test_wasReleased_several : (after (.wasReleased 0x0003)
    { session .gpio with regs.lastButtons := 0xFFFD }).map (·.port.result) = some 1 := by decide
theorem test_wasReleased : (after (.wasReleased 0x0001) (session .gpio)).map (·.port.result) =
    some 0 := by decide
theorem test_wasToggled : (after (.wasToggled 0x0001) (session .gpio)).map (·.port.result) =
    some 1 := by decide
/-- L2-D5: last 0x7FFF, now 0xFFFF. -/
theorem test_anyToggled : (after .anyToggled
    { session .gpio with regs.lastButtons := 0x7FFF, regs.buttons := 0xFFFF }).map (·.port.result) =
    some 1 := by decide
/-- L2-D7: K = 1 is the mode byte, and K = 20 was never written. -/
theorem test_analog : (after (.analog 1) (session .gpio)).map (·.port.result) = some 0x00000073 := by
  decide
/-- Word 0x00001507: K = 21. -/
theorem test_analog_index : (after (.analog 21) (session .gpio)).map (·.refused) =
    some (some .rbIndex) := by decide
/-- L2-D11: code 0x01 with mode 0x42 is Other, with mode 0x73 GuitarHero. -/
theorem test_readType_other : (after .readType { session .gpio with
    regs.controllerType := 0x01, regs.rb := [(1, 0x42)] }).map (·.port.result) = some 4 := by decide
theorem test_readType_guitar : (after .readType { session .gpio with
    regs.controllerType := 0x01 }).map (·.port.result) = some 2 := by decide
/-- L2-F: the command frames, the replies discarded, then SLEEP_MS(read_delay). -/
theorem test_enterConfig : (after .enterConfig (sending .enterConfig
    [0xFF, 0x41, 0x5A, 0xFF, 0xFF])).map (fun t => (t.trace, t.regs.lastRelease)) =
    some ([.clock 100, .frame [0x01, 0x43, 0x00, 0x01, 0x00] [0xFF, 0x41, 0x5A, 0xFF, 0xFF],
      .clock 101, .sleepMs 1], 101) := by decide
theorem test_setMode : (after .setMode (sending .setMode (List.replicate 9 0xF3))).map (·.trace) =
    some [.clock 100, .frame [0x01, 0x44, 0x00, 0x01, 0x03, 0x00, 0x00, 0x00, 0x00]
      (List.replicate 9 0xF3), .clock 101, .sleepMs 1] := by decide
theorem test_enableVibration : (after .enableVibration (sending .enableVibration
    (List.replicate 5 0xF3))).map (·.trace) =
    some [.clock 100, .frame [0x01, 0x4D, 0x00, 0x00, 0x01] (List.replicate 5 0xF3),
      .clock 101, .sleepMs 1] := by decide
theorem test_enablePressure : (after .enablePressure (sending .enablePressure
    (List.replicate 9 0xF3))).map (·.trace) =
    some [.clock 100, .frame [0x01, 0x4F, 0x00, 0xFF, 0xFF, 0x03, 0x00, 0x00, 0x00]
      (List.replicate 9 0xF3), .clock 101, .sleepMs 1] := by decide
theorem test_exitConfig : (after .exitConfig (sending .exitConfig (List.replicate 9 0xF3))).map
    (·.trace) = some [.clock 100, .frame [0x01, 0x43, 0x00, 0x00, 0x5A, 0x5A, 0x5A, 0x5A, 0x5A]
      (List.replicate 9 0xF3), .clock 101, .sleepMs 1] := by decide
/-- L2-F4: controller_type from reply byte 3, and no sleep. -/
theorem test_queryType : (after .queryType (sending .queryType
    [0xFF, 0xF3, 0x5A, 0x0C, 0x02, 0x00, 0x02, 0x01, 0x00])).map
    (fun t => (t.regs.controllerType, t.rbRead 1, t.trace.getLast?)) =
    some (0x0C, 0x73, some (.clock 101)) := by decide
/-- L2-F5, row 4: 0x7F is analog and takes no continuation. -/
theorem test_read : (after (.read 0x00 0x00) (sending (.read 0x00 0x00)
    [0xFF, 0x7F, 0x5A, 0xFF, 0xFE, 0x80, 0x81, 0x82, 0x83])).map
    (fun t => (t.regs.rb, t.pos.doCont)) =
    some ([(0, 0xFF), (1, 0x7F), (2, 0x5A), (3, 0xFF), (4, 0xFE), (5, 0x80), (6, 0x81), (7, 0x82),
      (8, 0x83)], false) := by decide
/-- L2-F5, row 2: the continuation, RB[9] = 0x20 and RB[20] = 0xFF. -/
theorem test_readCont : (after (.readCont 0x01 0x9F) (sending (.readCont 0x01 0x9F)
    ([0xFF, 0x79, 0x5A, 0xFF, 0xFF, 0x80, 0x80, 0x80, 0x80, 0x20] ++ List.replicate 10 0x00 ++
      [0xFF]))).map (fun t => (t.rbRead 9, t.rbRead 20, t.pos.doCont, t.env.spiIn)) =
    some (0x20, 0xFF, true, []) := by decide
/-- R130's worked example: samples 1, 1, 0, 0, 1, 1, 1, 0 give 0x73. -/
theorem test_xfer_gpio : (xfer 0x01 { booted .gpio with
    env.datIn := [true, true, false, false, true, true, true, false] }).1 = 0x73 := by decide
/-- R200's corner cases. -/
theorem test_scale : [0, 1, 2, 127, 128, 254, 255].map scale =
    ([0x00, 0x40, 0x41, 0x9F, 0x9F, 0xFE, 0xFF] : List Byte) := by decide
/-- R114, R115: lines and words of the vectors. -/
theorem test_assemble : assemble defaultParams
    ["IS_PRESSED M=SELECT|L3", "WAS_TOGGLED START", "ANALOG K=20", "READ_TYPE", "POLL A=0, B=255"] =
    some [0x00030002, 0x00080005, 0x00001407, 0x00000008, 0x0000FF01] := by decide
theorem test_assemble_refuses : assemble defaultParams ["POLL A=2, B=0"] = none := by decide
/-- R116: a trace line. -/
theorem test_render : TraceItem.render defaultCatalog
    (.frame [0x01, 0x43, 0x00, 0x01, 0x00] [0xFF, 0x41, 0x00, 0x00, 0x0A]) =
    some "ENTER_CONFIG out=[01 43 00 01 00] in=[FF 41 00 00 0A]".toList := by decide
/-- The first step after reset runs a laid host word, and a laid frame. -/
theorem test_fetch_host : (stepped ((booted .gpio).withFetchWord 32 0x00000030)).map
    (fun t => (t.port.busy, t.port.op)) = some (true, 0x00000030) := by decide
theorem test_fetch_frame : (stepped ((sending .setMode (List.replicate 5 0xF3)).withFetchWord 40
    0x0001004301)).map (fun t => t.trace) =
    some [.clock 100, .frame [0x01, 0x43, 0x00, 0x01, 0x00] (List.replicate 5 0xF3), .clock 101,
      .sleepMs 1] := by decide

/-- With READ_ATTEMPTS = 0 P3 goes to P5 and leaves `retry` at 0, in the range of R46. -/
theorem test_no_attempts : (stepped { polling .p3 with
    params.readAttempts := 0, pos.retry := 0 }).map (fun t => (t.pos.opPos, t.pos.retry)) =
    some (.poll .p5, 0) := by decide
/-- R290: with a time port that ends 6 sleeps, ENTER_CONFIG's 7 end in SLEEP_MS(1), attention high again, and
the frame stays under way. With one that ends none, the block sleeps after the fall of attention. -/
theorem test_sleep_after_frame : (stepped (sleepsOnly 6 (sending .enterConfig []))).map
    (fun t => (t.pos.asleep, t.bus.att, t.pos.frame, t.history.head?)) =
    some (true, true, some .enterConfig, some (.sleepMs 1)) := by decide
theorem test_sleep_in_frame : (stepped (sleepsOnly 0 (sending .enterConfig []))).map
    (fun t => (t.pos.asleep, t.bus.att, t.regs.lastRelease, t.history)) =
    some (true, false, 0, [.sleepUs 3, .pin .att false, .spiBegin, .clock 100]) := by decide
/-- R46, R130: a GPIO byte whose second hold of bit 7, its 16th sleep, does not end sleeps there with bitIdx 7. -/
theorem test_sleep_in_bit : (fun t : State => (t.pos.asleep, t.pos.bitIdx, t.bus.clk, t.pos.shiftIn))
    (xfer 0x42 (sleepsOnly 15 { session .gpio with
      env := { restful with datIn := (List.range 8).map (0xF3 : Byte).getLsbD } })).2 =
    (true, 7, true, 0xF3) := by decide
/-- R46: the hold after the last byte of a frame belongs to that byte, and in SEND_CMD's sleep byteIdx is in its
range. -/
theorem test_sleep_in_byte : ([5, 6].map fun n => (stepped (sleepsOnly n (sending .enterConfig []))).map
    fun t => (t.pos.asleep, t.pos.framePos, t.pos.byteIdx)) =
    [some (true, .bytes, 4), some (true, .sleeping, 0)] := by decide

/-! ## Witnesses: for each statement with hypotheses, what meets them -/

/-- What DecoderAnswers asks, with and without a session: for IS_PRESSED, WAS_PRESSED, WAS_RELEASED,
WAS_TOGGLED and ANY_TOGGLED. -/
theorem witness_DecoderAnswers : (session .gpio).admits true ∧ (booted .gpio).admits false ∧
    (booted .gpio).regs.sessionValid = false ∧ (booted .gpio).refused = none := by decide
theorem witness_PollIssue : (session .hwspi).admits true ∧ (booted .hwspi).admits false ∧
    (booted .hwspi).regs.sessionValid = false := by decide
/-- The first INIT and a second one. -/
theorem witness_InitIssue : (booted .gpio).admits false ∧ (session .gpio).admits false := by decide
theorem witness_HostRowsDisjoint : (0x0000FF01 : HostWord) &&& 0xFFFF00EF = 0x00000001 ∧
    (0x00001F07 : HostWord) &&& 0xFFFFE0FF = 0x00000007 := by decide

/-- A session between operations meets the invariant, in both options. -/
theorem session_inv (t : Transport) : (session t).Inv where
  params := by cases t <;> decide
  rb := by cases t <;> decide
  timing := by cases t <;> decide
  lines := fun _ => by cases t <;> decide
  position := ⟨rfl, rfl, rfl, rfl⟩
  frame := by simp [State.frameOk, session, booted, State.reset, Pos.reset]
  history := ⟨.idle, by cases t <;> rfl, by cases t <;> rfl, fun _ => rfl⟩

theorem witness_StepKeepsInvariant : (session .hwspi).Inv ∧
    step (session .hwspi) = .next (session .hwspi) := ⟨session_inv _, rfl⟩

/-- A state with a word on the port. -/
def requested (w : HostWord) (s : State) : State := { s with port := { s.port with request := some w } }

theorem witness_StepRunsFetchedInstruction_request :
    (requested 0x00001407 (session .gpio)).refused = none ∧
    (requested 0x00001407 (session .gpio)).params.ok = true ∧
    (requested 0x00001407 (session .gpio)).port.busy = false ∧
    decodeHost 0x00001407 = .ok (.analog 20) := by decide
theorem witness_StepRunsFetchedInstruction_program :
    ({ session .gpio with port.program := [0x00000006, 0x00000008] } : State).port.request = none ∧
    ({ session .gpio with port.program := [0x00000006, 0x00000008] } : State).pos.frame = none ∧
    ({ session .gpio with port.program := [0x00000006, 0x00000008] } : State).pos.asleep = false ∧
    ({ session .gpio with port.program := [0x00000006, 0x00000008] } : State).params.ok = true ∧
    decodeHost 0x00000006 = .ok .anyToggled := by decide
theorem witness_StepRunsFetchedInstruction_frame :
    (sending .exitConfig []).atFrame .exitConfig ∧
    (∃ u, exec .exitConfig (sending .exitConfig []) = .next u) := ⟨by decide, _, rfl⟩
/-- The two durations of a frame in the two options. -/
theorem witness_FrameSleepDurations : (testParams .gpio).transport = .gpio ∧
    (testParams .hwspi).transport = .hwspi ∧ frameMicros (testParams .gpio) 5 = 338 ∧
    frameMicros (testParams .hwspi) 5 = 178 := by decide

/-- A frame that still waits after its step. -/
theorem witness_StepRunsFetchedInstruction_waiting :
    (after .exitConfig { sending .exitConfig [] with env.grantIn := [false] }).map (·.pos.frame) =
      some (some .exitConfig) := by decide
theorem witness_StepRunsFetchedInstruction_control : (polling .p2).atControl := by decide
/-- A POLL asleep at P2. -/
def sleeping : State := { polling .p2 with pos := { (polling .p2).pos with asleep := true } }
theorem witness_StepRunsFetchedInstruction_asleep : sleeping.atSleep := by decide
theorem witness_StepRunsFetchedInstruction_idle :
    (session .gpio).refused = none ∧ (session .gpio).pos.asleep = false ∧ (session .gpio).params.ok = true ∧
    (session .gpio).port.request = none ∧ (session .gpio).pos.frame = none ∧
    (session .gpio).port.busy = false ∧ (session .gpio).port.program = [] := by decide

theorem witness_LoadedWordRunsNext :
    (booted .gpio).refused = none ∧ (booted .gpio).params.ok = true ∧ (booted .gpio).port.busy = false ∧
    (Instr.poll true 0xFF).isWire = false ∧ (booted .gpio).params.catalog = defaultCatalog ∧
    encode defaultCatalog .enableVibration = .wire [0x01, 0x4D, 0x00, 0x00, 0x01] := by decide

theorem witness_RefusedStateHasNoStep :
    ({ session .gpio with refused := some .rbIndex } : State).refused = some .rbIndex ∧
    ∃ t, step (session .gpio) = .next t := ⟨rfl, _, rfl⟩

/-- A reserved word is refused with BUSY_ISSUE while an operation runs (R281). -/
theorem witness_BusyIssueRefused : (requested 0x00000009 (polling .p1)).refused = none ∧
    (requested 0x00000009 (polling .p1)).params.ok = true ∧
    (requested 0x00000009 (polling .p1)).port.request = some 0x00000009 ∧
    (requested 0x00000009 (polling .p1)).port.busy = true := by decide

theorem witness_ReservedEncodingsRefused_word :
    (requested 0x00000108 (session .gpio)).refused = none ∧
    (requested 0x00000108 (session .gpio)).params.ok = true ∧
    (requested 0x00000108 (session .gpio)).port.busy = false ∧
    decodeHost 0x00000108 = .error .reservedEncoding := by decide
theorem witness_ReservedEncodingsRefused_index : 21 ≤ (21 : BitVec 5).toNat ∧
    21 ≤ (31 : BitVec 5).toNat ∧ (session .gpio).params.rbLen = 21 ∧ (session .gpio).admits true := by
  decide

theorem witness_NotInitialisedRefused : (booted .hwspi).admits false ∧
    (booted .hwspi).regs.sessionValid = false ∧ (Instr.poll false 0).needsSession = true ∧
    Instr.readType.needsSession = true ∧ (booted .hwspi).refused = none := by decide

/-- An instance whose FULL_MODE is not analog. -/
theorem witness_BadParametersRefused :
    ({ booted .gpio with params := { testParams .gpio with fullMode := 0x49 } } : State).refused = none ∧
    ({ booted .gpio with params := { testParams .gpio with fullMode := 0x49 } } : State).params.ok =
      false := by decide

theorem witness_AdmissionOrder : (requested 0x00001507 (booted .gpio)).refused = none ∧
    (requested 0x00001507 (booted .gpio)).params.ok = true ∧
    (requested 0x00001507 (booted .gpio)).port.request = some 0x00001507 := by decide

theorem witness_AnalogReadsResponseBuffer : (session .gpio).admits true ∧
    (20 : BitVec 5).toNat < (session .gpio).params.rbLen ∧
    (session .gpio).params.rbLen ≤ (21 : BitVec 5).toNat := by decide

theorem witness_ReadTypeResult : (session .gpio).params.typeMap = defaultTypeMap ∧
    (session .gpio).admits true ∧ (booted .gpio).params.typeMap = defaultTypeMap ∧
    (booted .gpio).admits false ∧ (booted .gpio).regs.sessionValid = false := by decide

theorem witness_QueriesAreIdempotent :
    ∃ t u, (session .gpio).admits true ∧ (session .gpio).refused = none ∧
      exec (.isPressed 0x8000) (session .gpio) = .next t ∧ t.refused = none ∧
      exec (.isPressed 0x8000) t = .next u := ⟨_, _, by decide, rfl, rfl, rfl, rfl⟩

/-- A frame about to be sent does not wait, in the HWSPI option and in the GPIO option. -/
theorem witness_CommandFramesRun :
    (sending .setMode []).params.ok = true ∧ (sending .setMode []).ready ∧
    (sending .setMode []).sleepsEnd ∧ (sending .setMode []).linesIdle ∧
    ({ session .gpio with env.clockIn := [100, 1] } : State).ready ∧
    (session .gpio).sleepsEnd ∧ (session .gpio).linesIdle := by decide
theorem witness_TypeQueryStoresTypeCode :
    (sending .queryType []).params.ok = true ∧ (sending .queryType []).ready ∧
    (sending .queryType []).sleepsEnd ∧ (sending .queryType []).linesIdle := by decide
theorem witness_ReadFramesFillResponseBuffer :
    (sending (.read 0 0) []).params.ok = true ∧ (sending (.read 0 0) []).ready ∧
    (sending (.read 0 0) []).sleepsEnd ∧ (sending (.read 0 0) []).linesIdle ∧ (sending (.read 0 0) []).rbOk ∧
    2 ≤ (sending (.read 0 0) []).params.catalog.shortLen := by decide

/-- R135's worked example at its second sample: last_release = 1000, T_PACKET_MS = 2, sample 1001. -/
def tooEarly : State :=
  { sending .setMode [] with
    params := { testParams .hwspi with tPacketMs := 2 },
    regs := { Regs.reset with lastRelease := 1000 },
    env := { restful with clockIn := [1001] } }
theorem witness_FrameWaitsForTheEnvironment_quiet : Instr.setMode.isWire = true ∧ tooEarly.params.ok = true ∧
    tooEarly.pos.acquiring = false ∧
    ((tooEarly.nowMs.1 : Int) - tooEarly.regs.lastRelease) % 2 ^ tooEarly.params.clockBits <
      tooEarly.params.tPacketMs := by decide

/-- A bus that is not granted at this moment. -/
def ungranted : State := { sending .setMode [] with env.grantIn := [false] }
theorem witness_FrameWaitsForTheEnvironment_grant : Instr.setMode.isWire = true ∧ ungranted.params.ok = true ∧
    ungranted.params.transport = .hwspi ∧ (quietTime ungranted).1 = true ∧
    (quietTime ungranted).2.spiGrant.1 = false := by decide

/-- A frame of the HWSPI option with a time port that ends one sleep, and the last EXIT_CONFIG of a failed
attempt's replay, whose 11 sleeps are the last that the time port ends. -/
theorem witness_UnendedSleepStopsTheBlock : Instr.setMode.isWire = true ∧
    (sleepsOnly 1 (sending .setMode [])).params.ok = true ∧ (sleepsOnly 1 (sending .setMode [])).ready ∧
    (sleepsOnly 1 (sending .setMode [])).linesIdle ∧
    (sleepsOnly 1 (sending .setMode [])).pos.acquiring = false ∧
    (sleepsOnly 1 (sending .setMode [])).pos.asleep = false ∧
    (after .setMode (sleepsOnly 1 (sending .setMode []))).map (·.pos.asleep) = some true ∧
    (after .setMode (sleepsOnly 11 (sending .setMode []))).map (·.pos.asleep) = some false ∧
    sleeping.atSleep := by decide

theorem witness_GpioByteExchange : (session .gpio).params.transport = .gpio ∧ (session .gpio).sleepsEnd ∧
    (session .gpio).bus.clk = true ∧ (session .gpio).bus.cmd = true := by decide
theorem witness_HwspiByteExchange : (session .hwspi).params.transport = .hwspi ∧
    (session .hwspi).sleepsEnd := by decide
theorem witness_TransportsEquivalent :
    ({ session .gpio with
        env.datIn := (List.range 8).map (0x73 : Byte).getLsbD } : State).env.datIn =
      (List.range 8).map (0x73 : Byte).getLsbD ++ [] ∧
    ({ session .hwspi with env.spiIn := [0x73] } : State).env.spiIn = 0x73 :: [] ∧
    (session .gpio).params.transport = .gpio ∧ (session .hwspi).params.transport = .hwspi ∧
    (session .gpio).sleepsEnd ∧ (session .hwspi).sleepsEnd := by decide

theorem witness_TraceGrowsByCatalogFrames :
    (sending .setMode []).frameOk ∧ ((sending .setMode []).linesIdle ∧
    (sending .setMode []).folded = .idle) ∧ ∃ t, step (sending .setMode []) = .next t :=
  ⟨by simp [State.frameOk, sending, session, booted, State.reset, Pos.reset, Instr.isWire, Instr.wf], ⟨rfl,
    rfl⟩, _, rfl⟩

/-! The read cycle: every label, in a POLL and inside an INIT. -/

theorem witness_StallCheck : (polling .p1).atCycle .p1 ∧ (initing .i1 (some .p1)).atCycle .p1 := by
  decide
/-- read_delay 7 and elapsed 1, with a time port that ends every sleep and one that ends none; and read_delay 1. -/
theorem witness_PacingSleep : (polling .p2).atCycle .p2 ∧ (initing .i3 (some .p2)).atCycle .p2 ∧
    (polling .p2).regs.readDelay ≤ (polling .p2).pos.elapsed ∧
    ({ polling .p2 with regs.readDelay := 7 } : State).pos.elapsed < 7 ∧
    (polling .p2).env.sleepsLeft ≠ some 0 ∧
    (sleepsOnly 0 { polling .p2 with regs.readDelay := 7 }).atCycle .p2 ∧
    (sleepsOnly 0 { polling .p2 with regs.readDelay := 7 }).env.sleepsLeft = some 0 := by decide
theorem witness_AttemptsUseOneScaledByte :
    (polling .p3).atCycle .p3 ∧ (polling .p3).pos.opPos = .poll .p3 ∧
    (polling .p3).port.op = hostWord (.poll true 128) ∧ 1 ≤ (polling .p3).params.readAttempts ∧
    (initing .i1 (some .p3)).atCycle .p3 ∧ (initing .i1 (some .p3)).pos.opPos = .init .i1 ∧
    (polling .p4).atCycle .p4 ∧ (polling .p4).pos.opPos = .poll .p4 ∧
    (initing .i3 (some .p4)).atCycle .p4 ∧ (initing .i3 (some .p4)).pos.opPos = .init .i3 := by decide

/-- An attempt's read frame about to be sent, the replies laid down. -/
def attempting (replies : List Byte) : State :=
  { polling .p4 with
    pos := { (polling .p4).pos with frame := some (.read 0x01 0x9F) },
    env := { restful with clockIn := [100, 1], grantIn := [true], spiIn := replies } }
theorem witness_AttemptOutcome : (attempting []).atFrame (.read 0x01 0x9F) ∧ (attempting []).ready ∧
    (attempting []).sleepsEnd ∧
    (attempting []).linesIdle ∧ (attempting []).cycle = some .p4 ∧ (attempting []).pos.replayPos = none := by
  decide
/-- Both outcomes: mode bytes 0x41 and 0x73 (R213's worked example). -/
theorem test_attempt_outcomes :
    (stepped (attempting [0xFF, 0x41, 0x5A, 0xFF, 0xFF, 0x80, 0x80, 0x80, 0x80])).map
      (fun t => (t.pos.opPos, t.pos.replayPos)) = some (.poll .p4, some 0) ∧
    (stepped (attempting [0xFF, 0x73, 0x5A, 0xFF, 0xFF, 0x80, 0x80, 0x80, 0x80])).map
      (fun t => (t.pos.opPos, t.pos.replayPos)) = some (.poll .p5, none) := by decide

theorem witness_CommandLists : (polling .p4).cycle ≠ none ∧ (initing .i3 none).cycle = none ∧
    (initing .i3 none).port.op = hostWord (.init true false) := by decide

/-- Inside a list at index k: loading, and with the command i about to be sent. -/
def listing (s : State) (k : Nat) (i : Option Instr) : State :=
  { s with pos := { s.pos with replayPos := some k, frame := i },
           env := { restful with clockIn := [100, 1], grantIn := [true] } }
theorem witness_CommandListsRunInOrder_load :
    (listing (polling .p1) 2 none).atControl ∧
    (listing (polling .p1) 2 none).commands[2]? = some .exitConfig := by decide
theorem witness_CommandListsRunInOrder_more :
    (listing (polling .p1) 0 (some .enterConfig)).atFrame .enterConfig ∧
    (listing (polling .p1) 0 (some .enterConfig)).ready ∧
    (listing (polling .p1) 0 (some .enterConfig)).sleepsEnd ∧
    (listing (polling .p1) 0 (some .enterConfig)).linesIdle ∧
    (listing (polling .p1) 0 (some .enterConfig)).commands[0]? = some .enterConfig ∧
    0 + 1 < (listing (polling .p1) 0 (some .enterConfig)).commands.length := by decide
theorem witness_CommandListsRunInOrder_last :
    2 + 1 = (listing (polling .p1) 2 (some .exitConfig)).commands.length ∧
    (listing (polling .p1) 2 (some .exitConfig)).cycle = some .p1 ∧
    2 + 1 = (listing (polling .p4) 2 (some .exitConfig)).commands.length ∧
    (listing (polling .p4) 2 (some .exitConfig)).cycle = some .p4 ∧
    (listing (polling .p4) 2 (some .exitConfig)).pos.retry <
      (listing (polling .p4) 2 (some .exitConfig)).params.readAttempts ∧
    4 + 1 = (listing (initing .i3 none) 4 (some .exitConfig)).commands.length ∧
    (listing (initing .i3 none) 4 (some .exitConfig)).cycle = none ∧
    (listing (initing .i3 none) 4 (some .exitConfig)).commands[4]? = some .exitConfig := by decide
/-- The time port's last sleeps are EXIT_CONFIG's own: the sleep after the replay does not end. -/
theorem witness_UnendedSleepStopsTheBlock_replay :
    (sleepsOnly 11 (listing (polling .p4) 2 (some .exitConfig))).atFrame .exitConfig ∧
    (after .exitConfig (sleepsOnly 11 (listing (polling .p4) 2 (some .exitConfig)))).map
      (fun u => (u.pos.frame, u.env.sleepsLeft, u.pos.replayPos, u.commands.length, u.cycle)) =
      some (none, some 0, some 2, 3, some .p4) := by decide
/-- The last attempt: retry is READ_ATTEMPTS. -/
theorem witness_CommandListsRunInOrder_exhausted :
    ({ listing (polling .p4) 2 (some .exitConfig) with pos.retry := 5 } : State).atFrame .exitConfig ∧
    ({ listing (polling .p4) 2 (some .exitConfig) with pos.retry := 5 } : State).ready ∧
    ({ listing (polling .p4) 2 (some .exitConfig) with pos.retry := 5 } : State).params.readAttempts ≤
      ({ listing (polling .p4) 2 (some .exitConfig) with pos.retry := 5 } : State).pos.retry := by decide

/-- With the analog mode byte 0x73, and with 0x41, which is not analog. -/
theorem witness_DelayGrowth : (polling .p5).atCycle .p5 ∧ (initing .i1 (some .p5)).atCycle .p5 ∧
    highNibble ((polling .p5).rbRead 1) = (polling .p5).params.analogNibble ∧
    ({ polling .p5 with regs.rb := [(1, 0x41)] } : State).atCycle .p5 ∧
    highNibble (({ polling .p5 with regs.rb := [(1, 0x41)] } : State).rbRead 1) ≠
      (polling .p5).params.analogNibble := by decide
theorem witness_ButtonRoll : (polling .p6).atCycle .p6 ∧ (initing .i3 (some .p6)).atCycle .p6 := by
  decide
theorem witness_PollReturnsAnalog : (polling .p7).atCycle .p7 ∧
    (polling .p7).pos.opPos = .poll .p7 := by decide

/-! INIT: every label. -/

theorem witness_ProbeReads : (initing .i1 none).atInit .i1 ∧ (initing .i1 (some .p7)).atCycle .p7 ∧
    (initing .i1 (some .p7)).pos.opPos = .init .i1 := by decide
theorem witness_PresenceCheck : (initing .i2 none).atInit .i2 ∧
    1 ≤ (initing .i2 none).params.configAttempts := by decide
theorem witness_AttemptStart : (initing .i3 none).atInit .i3 ∧
    (initing .i3 none).port.op = hostWord (.init true false) ∧
    (initing .i3 (some .p7)).atCycle .p7 ∧ (initing .i3 (some .p7)).pos.opPos = .init .i3 := by decide

/-- At I4 with operands p, v and mode byte m. -/
def judging (p v : Bool) (m : Byte) : State :=
  { initing .i4 none with
    port.op := hostWord (.init p v), regs.rb := [(1, m)] }
theorem witness_AttemptResult :
    (judging true false 0x79).atInit .i4 ∧ (judging true false 0x79).rbRead 1 = 0x79 ∧
    (judging true false 0x79).port.op = hostWord (.init true false) ∧
    (judging true true 0x73).rbRead 1 = (judging true true 0x73).params.pressureReject ∧
    (judging true true 0x73).rbRead 1 ≠ (judging true true 0x73).params.fullMode ∧
    (judging false true 0x73).rbRead 1 = (judging false true 0x73).params.basicAnalog := by decide
theorem witness_FailedAttemptGrowsDelay :
    (judging false false 0x79).atInit .i4 ∧
    (judging false false 0x79).port.op = hostWord (.init false false) ∧
    (judging false false 0x79).rbRead 1 ≠ (judging false false 0x79).params.basicAnalog ∧
    (judging true false 0x41).rbRead 1 ≠ (judging true false 0x41).params.fullMode ∧
    (judging true false 0x41).rbRead 1 ≠ (judging true false 0x41).params.pressureReject := by decide
theorem witness_InitReturnsStatus : (initing .i5 none).atInit .i5 := by decide

theorem witness_PollCompletes : (session .gpio).Inv ∧ (session .gpio).admits true ∧
    (session .gpio).refused = none ∧ (session .gpio).port.request = none ∧ (session .gpio).neverWaits ∧
    (session .gpio).sleepsEnd ∧ 1 ≤ (session .gpio).params.readAttempts :=
  ⟨session_inv _, by decide, rfl, rfl, ⟨rfl, rfl⟩, ⟨rfl, rfl⟩, by decide⟩
theorem witness_InitCompletes : (session .gpio).Inv ∧ (session .gpio).admits false ∧
    (session .gpio).refused = none ∧ (session .gpio).port.request = none ∧ (session .gpio).neverWaits ∧
    (session .gpio).sleepsEnd ∧ 1 ≤ (session .gpio).params.configAttempts :=
  ⟨session_inv _, by decide, rfl, rfl, ⟨rfl, rfl⟩, ⟨rfl, rfl⟩, by decide⟩

/-- A roll, a flag write and a grown delay are steps of states that meet the hypotheses. -/
theorem witness_RegistersWrittenOnlyByTheirOwners : (polling .p6).frameOk ∧ (polling .p6).linesIdle ∧
    ∃ t, step (polling .p6) = .next t ∧ t.regs.lastButtons ≠ (polling .p6).regs.lastButtons :=
  ⟨by simp [State.frameOk, polling, Pos.reset], rfl, _, rfl, by decide⟩
theorem witness_HistoryOnlyGrows : ∃ t, step (polling .p7) = .next t := ⟨_, rfl⟩
theorem witness_ClockLaw : ∃ t, step (polling .p1) = .next t := ⟨_, rfl⟩

theorem witness_EncodeDecodeRoundTrip : decode defaultCatalog (.host 0x0000FF01) = .ok (.poll false 0xFF) ∧
    decode defaultCatalog (.wire [0x01, 0x42, 0x00, 0x00, 0x00, 0x00, 0x00, 0x00, 0x00]) =
      .ok (.read 0x00 0x00) := by decide

end Sys2Proof.Tests
end

section
/-! PROOF. Every step keeps the invariant: a refusal, a host operation, a frame with what follows it, and a step of
the sequencer at each of its labels, one lemma each. -/

namespace Sys2Proof.Machine

/-! ## A step that runs nothing -/

theorem inv_refuse {s : State} (h : s.Inv) (r : RefusalReason) : (s.refuse r).Inv :=
  ⟨h.params, h.rb, h.timing, h.lines, h.position, h.frame, h.history⟩

theorem inv_takeRequest {s : State} (h : s.Inv) : s.takeRequest.Inv :=
  ⟨h.params, h.rb, h.timing, h.lines, h.position, h.frame, h.history⟩

theorem inv_takeProgram {s : State} (h : s.Inv) : s.takeProgram.Inv :=
  ⟨h.params, h.rb, h.timing, h.lines, h.position, h.frame, h.history⟩

/-! ## A host operation -/

/-- A port that is not busy belongs to an idle sequencer (R44, R46). -/
theorem idle_of_not_busy {s : State} (h : s.positionOk) (hb : s.port.busy = false) :
    s.pos.opPos = .idle ∧ s.pos.replayPos = none ∧ s.pos.frame = none ∧ s.pos.asleep = false := by
  unfold State.positionOk at h
  cases ho : s.pos.opPos with
  | idle => simp only [ho] at h; exact ⟨rfl, h.2⟩
  | query => simp [ho] at h
  | init l => simp [ho, hb] at h
  | poll l => simp [ho, hb] at h

theorem inv_beginInit {s : State} (h : s.Inv) (hb : s.port.busy = false) (p v : Bool) :
    (beginInit (hostWord (.init p v)) s).Inv := by
  obtain ⟨-, -, -, hw⟩ := idle_of_not_busy h.position hb
  obtain ⟨hlo, hhi, hr, hl⟩ := h.timing
  refine ⟨h.params, h.rb, ⟨le_rfl, hlo.trans hhi, hr, hl⟩, h.lines, ?_, ⟨?_, ?_⟩, ?_⟩
  · exact ⟨rfl, ⟨p, v, rfl⟩, rfl⟩
  · intro i hi; cases hi
  · intro ha; cases ha
  · exact historyOk_ext (es := [_]) h.history hw rfl rfl rfl (Lines.run_between _ _ (by simp))

theorem inv_beginPoll {s : State} (h : s.Inv) (ha : s.admits true) (a : Bool) (b : Byte) :
    (beginPoll (hostWord (.poll a b)) s).Inv := by
  obtain ⟨-, hb, hv⟩ := ha
  obtain ⟨-, -, -, hw⟩ := idle_of_not_busy h.position hb
  refine ⟨h.params, h.rb, h.timing, h.lines, ?_, ⟨?_, ?_⟩, ?_⟩
  · exact ⟨rfl, ⟨a, b, rfl⟩, hv rfl, fun k hk => by cases hk⟩
  · intro i hi; cases hi
  · intro ha; cases ha
  · exact historyOk_ext (es := [_]) h.history hw rfl rfl rfl (Lines.run_between _ _ (by simp))

theorem inv_answer {s : State} (h : s.Inv) (hb : s.port.busy = false) (w r : HostWord) :
    (answer w r s).Inv := by
  obtain ⟨-, hr, hf, hw⟩ := idle_of_not_busy h.position hb
  refine ⟨h.params, h.rb, h.timing, h.lines, ⟨rfl, hr, hf, hw⟩, h.frame, ?_⟩
  exact historyOk_ext (es := [_, _]) h.history hw rfl rfl rfl (Lines.run_between _ _ (by simp))

/-- A host operation keeps the invariant, whether it is refused, begun or answered. -/
theorem inv_exec_host {i : Instr} {s t : State} (h : s.Inv) (hb : s.port.busy = false)
    (hi : i.isWire = false) (he : exec i s = .next t) : t.Inv := by
  rcases exec_host hi he with ⟨r, rfl⟩ | ⟨p, v, rfl, -, rfl⟩ | ⟨a, b, rfl, hn, rfl⟩ | ⟨r, -, rfl⟩
  · exact inv_refuse h r
  · exact inv_beginInit h hb p v
  · exact inv_beginPoll h (State.refusal_none hn) a b
  · exact inv_answer h hb _ r

/-! ## A frame -/

/-- A frame that waits keeps the invariant (R82, R135). -/
theorem Waits.inv {i : Instr} {s t : State} (h : s.Inv) (hf : s.pos.frame = some i)
    (hw : s.pos.asleep = false) (k : Waits i s t) : t.Inv := by
  obtain ⟨env, a, es, rfl, ha, hes⟩ := k
  refine inv_of_pos (es := es) h hw ⟨rfl, rfl, rfl, rfl⟩ rfl ?_ ?_ ⟨fun j hj => ?_, ha⟩
  · exact Lines.run_between _ _ (by rcases hes with rfl | ⟨v, rfl⟩ <;> simp)
  · exact positionOk_congr h.position (.inl (by simp [hf])) ⟨rfl, rfl, rfl, rfl, rfl, rfl, rfl⟩
      rfl rfl rfl rfl rfl
  · exact h.frame.1 j (by rw [hf]; exact hj)

/-- The registers a whole frame writes keep RB in canonical form and below its length (R36, R71). -/
theorem framedRegs_rb {s : State} (h : s.rbOk) (hok : s.params.ok = true) {rs : List Byte} {i : Instr}
    {cont : Bool} (hlen : rs.length = (sentBytes s.params i cont).length) :
    (framedRegs s.params s.regs rs i).rb.wf ∧
      ∀ c ∈ (framedRegs s.params s.regs rs i).rb, c.1 < s.params.rbLen := by
  cases i with
  | read a b => exact rb_frame h hok hlen
  | readCont a b => exact rb_frame h hok hlen
  | _ => exact h

/-- A frame that runs whole keeps the invariant, and leaves the block awake with no frame under way. -/
theorem Runs.inv {i : Instr} {s t : State} (h : s.Inv) (hf : s.pos.frame = some i)
    (hw : s.pos.asleep = false) (k : Runs i s t) :
    t.Inv ∧ t.pos.asleep = false ∧ t.pos.frame = none := by
  obtain ⟨rs, cont, v, pre, tail, hlen, hv, hleaves, hregs, hh, htail, hpre⟩ := k
  obtain ⟨byi, bi, sh, dc, hpos⟩ := hleaves.pos
  obtain ⟨hlo, hhi, hread, -⟩ := h.timing
  obtain ⟨hev, hep, hsv, hrd, hlr⟩ := framedRegs_flags s.params s.regs rs i
  have hpar := hleaves.params
  have hbus : t.bus = s.bus := hleaves.bus.trans (h.lines hw).symm
  refine ⟨⟨?_, ?_, ?_, fun _ => hleaves.bus, ?_, ⟨?_, ?_⟩, ?_⟩, by rw [hpos]; exact hw, by rw [hpos]⟩
  · rw [hpar]; exact h.params
  · unfold State.rbOk
    rw [hpar, hregs]
    exact framedRegs_rb h.rb h.params hlen
  · unfold State.timingOk
    rw [hpar, hregs]
    dsimp only
    rw [hrd, hlr]
    exact ⟨hlo, hhi, hread, hv⟩
  · refine positionOk_congr h.position (.inl (by simp [hf])) ?_ hpar hleaves.port ?_ ?_ ?_
    · constructor <;> rw [hpos]
    · rw [hregs]; exact hev
    · rw [hregs]; exact hep
    · rw [hregs]; exact hsv
  · rw [hpos]; intro j hj; cases hj
  · rw [hpos]; intro ha; cases ha
  · refine historyOk_ext (es := tail ++ (frameEvents s.params ((sentBytes s.params i cont).zip rs) v).reverse
      ++ pre) h.history hw hpar hbus hh ?_
    have hp : Lines.run s.params.transport .idle pre.reverse = some .idle :=
      Lines.run_between _ _ (by rcases hpre with rfl | ⟨c, rfl⟩ <;> simp)
    have ht : Lines.run s.params.transport .idle tail.reverse = some .idle :=
      Lines.run_between _ _ (by rcases htail with rfl | ⟨n, rfl⟩ <;> simp)
    simp [Lines.run_append, hp, Lines.run_frame, ht]

/-! ## Where the sequencer is, and what moves it between frames -/

section
variable {s : State} {l : CycleStep}

/-- An INIT's position is one of its label. -/
theorem initOk_of {l : InitStep} (h : s.positionOk) (ho : s.pos.opPos = .init l) : s.initOk l := by
  unfold State.positionOk at h
  simp only [ho] at h
  exact h.2.2

/-- The place in an attempt, outside its read cycle: the attempt's number, and the command list if it is under way
(R223). -/
theorem initOk_attempt (hc : s.pos.cyclePos = none) :
    s.initOk .i3 ↔ s.attemptOk ∧ ∀ k ∈ s.pos.replayPos, k < s.commands.length := by
  simp [State.initOk, hc]

/-- In an attempt its number is legal (R223). -/
theorem attemptOk_of (h : s.positionOk) (ho : s.pos.opPos = .init .i3) (hc : s.pos.cyclePos = none) :
    s.attemptOk :=
  ((initOk_attempt hc).1 (initOk_of h ho)).1

/-- Where a command list can be under way: at P1 or P4 of a read cycle, or in an attempt of INIT (R211, R214, R223). -/
theorem list_place {k : Nat} (h : s.positionOk) (hr : s.pos.replayPos = some k) :
    s.cycle = some .p1 ∨ s.cycle = some .p4 ∨
      (s.pos.opPos = .init .i3 ∧ s.pos.cyclePos = none ∧ s.attemptOk) := by
  cases hc : s.cycle with
  | some l =>
    have hk := (around_of h hc).2
    cases l with
    | p1 => exact .inl rfl
    | p4 => exact .inr (.inl rfl)
    | _ => simp [State.cycleOk, hr] at hk
  | none =>
    unfold State.positionOk at h
    unfold State.cycle at hc
    cases ho : s.pos.opPos with
    | idle => simp [ho, hr] at h
    | query => simp [ho] at h
    | poll l => simp [ho] at hc
    | init l =>
      simp only [ho] at h hc
      obtain ⟨-, -, hi⟩ := h
      cases l with
      | i3 => exact .inr (.inr ⟨rfl, hc, ((initOk_attempt hc).1 hi).1⟩)
      | _ => simp [State.initOk, hc, hr] at hi

/-- A sleep between frames that ends. -/
theorem inv_slept (h : s.Inv) (hw : s.pos.asleep = false) (n : Nat) (env : Env) :
    State.Inv { s with env := env, pos := { s.pos with asleep := false },
                       history := .sleepMs n :: s.history } := by
  have hpos : { s.pos with asleep := false } = s.pos := by rw [← hw]
  rw [hpos]
  exact inv_of_pos (es := [_]) h hw ⟨rfl, rfl, rfl, rfl⟩ rfl (run_small (.inl ⟨n, rfl⟩)) h.position h.frame

/-- A change of the position that stays at its label of a read cycle. -/
theorem inv_stay {t : State} (h : s.Inv) (hw : s.pos.asleep = false) (hc : s.cycle = some l)
    (hs : OnlyPosition s t) (hh : t.history = s.history) (ho : t.pos.opPos = s.pos.opPos)
    (hp : t.pos.cyclePos = s.pos.cyclePos) (hpr : t.pos.probe = s.pos.probe)
    (hat : t.pos.attempt = s.pos.attempt)
    (hfr : t.pos.frame = none ∨ ∃ i, t.pos.frame = some i ∧ i.isWire = true ∧ i.wf = true)
    (hacq : t.pos.acquiring = s.pos.acquiring) (hk : t.cycleOk l) : t.Inv := by
  obtain ⟨ho', hp'⟩ := goCycle_self hc
  exact cycle_move (es := []) h hw hc (ho.trans ho'.symm) (hp.trans hp'.symm) hpr hat hfr hacq hs.params hs.port
    hs.bus (by rw [hs.regs]; exact keepRegs h) hk hh rfl

/-- A move of INIT that writes the position alone. -/
theorem inv_init_pos {t : State} {l l' : InitStep} (h : s.Inv) (hw : s.pos.asleep = false)
    (ho : s.pos.opPos = .init l) (hc : OnlyPosition s t) (hh : t.history = s.history)
    (ht : t.pos.opPos = .init l') (hf : t.pos.frame = none) (ha : t.pos.acquiring = s.pos.acquiring)
    (hk : t.initOk l') : t.Inv :=
  init_move (es := []) h hw ho ht (.inl hf) ha hc.params hc.port hc.bus
    (by rw [hc.regs]; exact keepDelay h) hk hh rfl

/-- The mode byte bears out the status that an attempt ends INIT with (R224, R225). -/
theorem statusOk_of_attemptResult {r : Status} (h : attemptResult s.params s.opP s.modeByte = some r) :
    (s.goStatus r).statusOk := by
  unfold attemptResult at h
  split at h
  · next hfull =>
    cases h
    have hboth : s.opP = true ∧ s.modeByte = s.params.fullMode := by simpa using hfull
    exact .inl hboth
  · split at h
    · next hreject =>
      cases h
      have hboth : s.opP = true ∧ s.modeByte = s.params.pressureReject := by simpa using hreject
      exact hboth
    · split at h
      · next hbasic =>
        cases h
        have hboth : s.opP = false ∧ s.modeByte = s.params.basicAnalog := by simpa using hbasic
        exact .inr hboth
      · cases h

/-- P4 loads a read frame with actuator bytes that R102 allows (R213). -/
theorem inv_stepP4 (h : s.Inv) (hw : s.pos.asleep = false) (hc : s.cycle = some .p4) :
    (stepP4 s).Inv := by
  obtain ⟨hlo, hhi, hb, hlist⟩ := (around_of h.position hc).2
  have hwf : (Instr.read (actuatorA s.cycleA) s.pos.scaledB).wf = true := by
    simp [Instr.wf, actuator_ok, hb]
  exact inv_stay h hw hc ⟨rfl, rfl, rfl, rfl⟩ rfl rfl rfl rfl rfl (.inr ⟨_, rfl, rfl, hwf⟩) rfl
    ⟨hlo, hhi, hb, hlist⟩

/-- The next command of a list, loaded. -/
theorem inv_loadCommand {k : Nat} {i : Instr} (h : s.Inv) (hw : s.pos.asleep = false)
    (hr : s.pos.replayPos = some k) (hi : i ∈ s.commands) : (s.loadFrame i).Inv := by
  refine inv_of_pos (es := []) h hw ⟨rfl, rfl, rfl, rfl⟩ rfl rfl ?_ ⟨fun j hj => ?_, h.frame.2⟩
  · exact positionOk_congr h.position (.inr (by simp [hr])) ⟨rfl, rfl, rfl, rfl, rfl, rfl, rfl⟩ rfl rfl rfl
      rfl rfl
  · cases hj
    exact State.commands_wire hi

section
variable (h : s.Inv) (hw : s.pos.asleep = false) (hf : s.pos.frame = none)
include h hw hf

/-! ## Command lists -/

/-- A command list left inside a read cycle. -/
theorem inv_leaveList (hc : s.cycle = some l) : s.leaveList.Inv := by
  refine inv_stay h hw hc ⟨rfl, rfl, rfl, rfl⟩ rfl rfl rfl rfl rfl (.inl hf) rfl ?_
  by_cases hl : l = .p4
  · subst hl
    obtain ⟨hlo, hhi, hb, -⟩ := (around_of h.position hc).2
    exact ⟨hlo, hhi, hb, fun _ hk => by cases hk⟩
  · exact cycleOk_none rfl hl

/-- The command at index k of a list under way at P1 or P4. -/
theorem inv_listAt (hc : s.cycle = some l) (hl : l = .p1 ∨ l = .p4) {k : Nat} (hk : k < s.commands.length) :
    State.Inv { s with pos.replayPos := some k } := by
  have hlist : ∀ j ∈ (some k : Option Nat), j < s.commands.length := by simpa using hk
  refine inv_stay h hw hc ⟨rfl, rfl, rfl, rfl⟩ rfl rfl rfl rfl rfl (.inl hf) rfl ?_
  rcases hl with rfl | rfl
  · exact hlist
  · obtain ⟨hlo, hhi, hb, -⟩ := (around_of h.position hc).2
    exact ⟨hlo, hhi, hb, hlist⟩

/-- A move to a label other than P4, outside a command list. -/
theorem inv_goCycle (hc : s.cycle = some l) (hr : s.pos.replayPos = none) {l' : CycleStep} (hl : l' ≠ .p4) :
    (s.goCycle l').Inv :=
  cycle_move (es := []) h hw hc rfl rfl rfl rfl (.inl hf) rfl rfl rfl rfl (keepRegs (s := s) h)
    (cycleOk_none hr hl) rfl rfl

/-- The read cycle entered after an attempt's command list (R223). -/
theorem inv_enterCycle (ho : s.pos.opPos = .init .i3) (ha : s.attemptOk) : s.leaveList.enterCycle.Inv :=
  init_move (l' := .i3) (es := []) h hw ho ho (.inl hf) rfl rfl rfl rfl (keepDelay (s := s) h)
    ⟨ha, fun _ hk => by cases hk⟩ rfl rfl

/-- The command at index k of an attempt's list (R223). -/
theorem inv_attemptList (ho : s.pos.opPos = .init .i3) (hc : s.pos.cyclePos = none) (ha : s.attemptOk) {k : Nat}
    (hk : k < s.commands.length) : State.Inv { s with pos.replayPos := some k } := by
  refine init_move (l' := .i3) (es := []) h hw ho ho (.inl hf) rfl rfl rfl rfl (keepDelay (s := s) h)
    ((initOk_attempt (by exact hc)).2 ⟨ha, fun j hj => ?_⟩) rfl rfl
  cases hj
  exact hk

/-- The next attempt of a read cycle, or P5 after the last one (R213, R214). -/
theorem inv_nextAttempt (hc : s.cycle = some .p4) (hr : s.pos.replayPos = none) :
    State.Inv (if s.pos.retry < s.params.readAttempts then { s with pos.retry := s.pos.retry + 1 }
      else s.goCycle .p5) := by
  obtain ⟨-, -, hb, hk⟩ := (around_of h.position hc).2
  split
  · next hlt =>
    exact inv_stay h hw hc ⟨rfl, rfl, rfl, rfl⟩ rfl rfl rfl rfl rfl (.inl hf) rfl
      ⟨Nat.succ_pos _, hlt, hb, hk⟩
  · exact inv_goCycle h hw hf hc hr (by decide)

/-- What follows a list of commands keeps the invariant: P2 after a stall's replay (R211), the next attempt or P5
after a failed attempt's, unless its sleep never ends (R214, R290), and the read cycle after an attempt's
commands (R223). -/
theorem inv_afterReplay {k : Nat} (hr : s.pos.replayPos = some k) : (afterReplay s).Inv := by
  unfold afterReplay
  cases hc : s.cycle with
  | none =>
    rcases list_place h.position hr with hp | hp | ⟨ho, -, ha⟩
    · simp [hc] at hp
    · simp [hc] at hp
    · exact inv_enterCycle h hw hf ho ha
  | some l =>
    have hleft := inv_leaveList h hw hf hc
    cases l with
    | p1 => exact inv_goCycle hleft hw hf hc rfl (by decide)
    | p4 =>
      dsimp only
      rw [State.sleepMs]
      by_cases h0 : s.env.sleepsLeft = some 0
      · rw [State.sleep_stays (by exact h0)]
        exact asleep_move hleft hw hc s.regs.readDelay
      · rw [State.sleep_ends (by exact h0)]
        exact inv_nextAttempt (inv_slept hleft hw _ _) rfl hf hc rfl
    | _ => exact hleft

/-- A move to another command of the list under way. -/
theorem inv_replayPos {k k' : Nat} (hr : s.pos.replayPos = some k) (hk : k' < s.commands.length) :
    State.Inv { s with pos.replayPos := some k' } := by
  rcases list_place h.position hr with hc | hc | ⟨ho, hc, ha⟩
  · exact inv_listAt h hw hf hc (.inl rfl) hk
  · exact inv_listAt h hw hf hc (.inr rfl) hk
  · exact inv_attemptList h hw hf ho hc ha hk

/-- The next command of a list, or what follows the list. -/
theorem inv_afterCommand {k : Nat} (hr : s.pos.replayPos = some k) : (afterCommand k s).Inv := by
  unfold afterCommand
  split
  · next hlt => exact inv_replayPos h hw hf hr hlt
  · exact inv_afterReplay h hw hf hr

/-- What follows the read frame of an attempt (R213, R214). -/
theorem inv_afterRead (hc : s.cycle = some .p4) (hr : s.pos.replayPos = none) : (afterRead s).Inv := by
  unfold afterRead
  split
  · exact inv_goCycle h hw hf hc hr (by decide)
  · exact inv_listAt h hw hf hc (.inr rfl) (State.commands_pos s)

/-! ## The labels of a read cycle -/

/-- Completion keeps the invariant, in a session or as INIT's end (R270, R227). -/
theorem inv_complete (hr : s.pos.replayPos = none) (r : HostWord) (v : Bool) :
    (State.complete r { s with regs.sessionValid := v }).Inv :=
  ⟨h.params, h.rb, h.timing, h.lines, ⟨rfl, hr, hf, hw⟩, h.frame,
    historyOk_ext (es := [_]) h.history hw rfl rfl rfl (run_small (.inr (.inr ⟨_, rfl⟩)))⟩

/-- P1 begins a replay or goes on to P2, with one clock sample (R211). -/
theorem inv_stepP1 (hc : s.cycle = some .p1) (hr : s.pos.replayPos = none) : (stepP1 s).Inv := by
  have htimed : ∀ e, State.Inv { s.nowMs.2 with pos.elapsed := e } := by
    intro e
    obtain ⟨ho, hp⟩ := goCycle_self hc
    rw [State.nowMs_eq]
    exact cycle_move (l' := .p1) (es := [_]) h hw hc ho.symm hp.symm rfl rfl (.inl hf) rfl rfl rfl rfl
      (keepRegs (s := s) h) (cycleOk_none hr (by decide)) rfl (run_small (.inr (.inl ⟨_, rfl⟩)))
  have hc' : ∀ e, State.cycle { s.nowMs.2 with pos.elapsed := e } = some .p1 := by
    intro e; rw [State.nowMs_eq]; exact hc
  unfold stepP1
  dsimp only
  split
  · exact inv_listAt (htimed _) (by simpa) (by simpa) (hc' _) (.inl rfl) (State.commands_pos _)
  · exact inv_goCycle (htimed _) (by simpa) (by simpa) (hc' _) (by simpa) (by decide)

/-- P2 goes on to P3, or stays in a pacing sleep that never ends (R212, R290). -/
theorem inv_stepP2 (hc : s.cycle = some .p2) (hr : s.pos.replayPos = none) : (stepP2 s).Inv := by
  unfold stepP2
  dsimp only
  split
  · rw [State.sleepMs]
    by_cases h0 : s.env.sleepsLeft = some 0
    · rw [State.sleep_stays h0]
      exact asleep_move h hw hc _
    · rw [State.sleep_ends h0]
      exact inv_goCycle (inv_slept h hw _ _) rfl hf hc hr (by decide)
  · rw [State.awake_of hw]
    exact inv_goCycle h hw hf hc hr (by decide)

/-- P3 goes on to the first attempt with a byte that SCALE gives, or to P5 (R213). -/
theorem inv_stepP3 (hc : s.cycle = some .p3) (hr : s.pos.replayPos = none) : (stepP3 s).Inv := by
  unfold stepP3
  dsimp only
  split
  · exact cycle_move (l' := .p5) (es := []) h hw hc rfl rfl rfl rfl (.inl hf) rfl rfl rfl rfl
      (keepRegs (s := s) h) (cycleOk_none hr (by decide)) rfl rfl
  · next hn =>
    refine cycle_move (l' := .p4) (es := []) h hw hc rfl rfl rfl rfl (.inl hf) rfl rfl rfl rfl
      (keepRegs (s := s) h) ⟨le_rfl, Nat.pos_of_ne_zero hn, scale_ok _, ?_⟩ rfl rfl
    intro k hk
    simp [hr] at hk

/-- P5 grows read_delay within its range (R215, R42). -/
theorem inv_stepP5 (hc : s.cycle = some .p5) (hr : s.pos.replayPos = none) : (stepP5 s).Inv := by
  unfold stepP5
  dsimp only
  split
  · exact inv_goCycle h hw hf hc hr (by decide)
  · obtain ⟨hlo, hhi⟩ := grown_ok h
    obtain ⟨-, -, hread, -⟩ := h.timing
    exact cycle_move (l' := .p6) (es := []) h hw hc rfl rfl rfl rfl (.inl hf) rfl rfl rfl rfl
      ⟨s.grownDelay, s.regs.lastRead, s.regs.lastButtons, s.regs.buttons, rfl, hlo, hhi, hread⟩
      (cycleOk_none hr (by decide)) rfl rfl

/-- P6 takes a read timestamp that is CLOCK_BITS wide (R216, R43). -/
theorem inv_stepP6 (hc : s.cycle = some .p6) (hr : s.pos.replayPos = none) : (stepP6 s).Inv := by
  unfold stepP6
  dsimp only
  rw [State.nowMs_eq]
  obtain ⟨hlo, hhi, -, -⟩ := h.timing
  exact cycle_move (l' := .p7) (es := [_]) h hw hc rfl rfl rfl rfl (.inl hf) rfl rfl rfl rfl
    ⟨s.regs.readDelay, (roll s).nowMs.1, s.regs.buttons, s.buttonWord, rfl, hlo, hhi, State.nowMs_lt _⟩
    (cycleOk_none hr (by decide)) rfl (run_small (.inr (.inl ⟨_, rfl⟩)))

/-- After a read cycle inside INIT come the next probe or I2, or I4 (R221, R223). -/
theorem inv_afterCycle {l : InitStep} (ho : s.pos.opPos = .init l) (hc : s.cycle = some .p7)
    (hr : s.pos.replayPos = none) : (afterCycle l s).Inv := by
  obtain ⟨hA, -⟩ := around_of h.position hc
  unfold Around at hA
  simp only [ho] at hA
  obtain ⟨-, -, hl⟩ := hA
  cases l with
  | i1 =>
    unfold afterCycle
    dsimp only
    split
    · next hlt =>
      exact inv_init_pos (l' := .i1) h hw ho ⟨rfl, rfl, rfl, rfl⟩ rfl ho hf rfl
        ⟨hlt, cycleOk_none (l := .p1) hr (by decide)⟩
    · exact inv_init_pos (l' := .i2) h hw ho ⟨rfl, rfl, rfl, rfl⟩ rfl rfl hf rfl hr
  | i3 => exact inv_init_pos (l' := .i4) h hw ho ⟨rfl, rfl, rfl, rfl⟩ rfl rfl hf rfl ⟨hl, hr⟩
  | _ => exact hl.elim

/-- A read cycle's end keeps the invariant: POLL completes, and INIT goes on (R217, R218, R221, R223). -/
theorem inv_stepP7 (hc : s.cycle = some .p7) (hr : s.pos.replayPos = none) : (stepP7 s).Inv := by
  unfold stepP7
  split
  · exact inv_complete h hw hf hr _ s.regs.sessionValid
  · next l ho => exact inv_afterCycle h hw hf ho hc hr
  all_goals exact h

/-- A step at a label of a read cycle keeps the invariant. -/
theorem inv_stepCycle (hc : s.cycle = some l) (hr : s.pos.replayPos = none) : (stepCycle l s).Inv := by
  cases l with
  | p1 => exact inv_stepP1 h hw hf hc hr
  | p2 => exact inv_stepP2 h hw hf hc hr
  | p3 => exact inv_stepP3 h hw hf hc hr
  | p4 => exact inv_stepP4 h hw hc
  | p5 => exact inv_stepP5 h hw hf hc hr
  | p6 => exact inv_stepP6 h hw hf hc hr
  | p7 => exact inv_stepP7 h hw hf hc hr

/-! ## The labels of INIT -/

/-- INIT's last label, with a status that the mode byte bears out. -/
theorem inv_goStatus {l : InitStep} (ho : s.pos.opPos = .init l) (hr : s.pos.replayPos = none) {r : Status}
    (hs : (s.goStatus r).statusOk) : (s.goStatus r).Inv :=
  inv_init_pos (l' := .i5) h hw ho ⟨rfl, rfl, rfl, rfl⟩ rfl rfl hf rfl ⟨hr, hf, hs⟩

/-- An attempt begun at I3, with nothing of its command list sent (R222, R226). -/
theorem inv_goAttempt {l : InitStep} (ho : s.pos.opPos = .init l) (hr : s.pos.replayPos = none) {n : Nat}
    (h1 : 1 ≤ n) (hn : n ≤ s.params.configAttempts) : State.Inv { s.goInit .i3 with pos.attempt := n } := by
  refine inv_init_pos (l' := .i3) h hw ho ⟨rfl, rfl, rfl, rfl⟩ rfl rfl hf rfl ⟨⟨h1, hn⟩, fun k hk => ?_⟩
  exact absurd (hr.symm.trans hk) (by simp)

/-- I1 begins a probe read while one is to be made (R221). -/
theorem inv_stepI1 (ho : s.pos.opPos = .init .i1) (hr : s.pos.replayPos = none) : (stepI1 s).Inv := by
  unfold stepI1
  split
  · next hlt =>
    exact inv_init_pos (l' := .i1) h hw ho ⟨rfl, rfl, rfl, rfl⟩ rfl ho hf rfl
      ⟨hlt, cycleOk_none (l := .p1) hr (by decide)⟩
  · exact inv_init_pos (l' := .i2) h hw ho ⟨rfl, rfl, rfl, rfl⟩ rfl rfl hf rfl hr

/-- I2 begins the first attempt, or ends INIT with a status (R222). -/
theorem inv_stepI2 (ho : s.pos.opPos = .init .i2) (hr : s.pos.replayPos = none) : (stepI2 s).Inv := by
  unfold stepI2
  split
  · split
    · next h0 => exact inv_goStatus h hw hf ho hr (.inl h0)
    · next h0 => exact inv_goAttempt h hw hf ho hr le_rfl (Nat.pos_of_ne_zero h0)
  · next hn =>
    have habsent : s.modeByte ∉ s.params.validModes := by simpa [State.present] using hn
    exact inv_goStatus h hw hf ho hr habsent

/-- I3 stores the flags and begins the attempt's command list (R223). -/
theorem inv_stepI3 (ho : s.pos.opPos = .init .i3) (hc : s.pos.cyclePos = none) (hr : s.pos.replayPos = none) :
    (stepI3 s).Inv := by
  have ha := attemptOk_of h.position ho hc
  obtain ⟨hlo, hhi, -, -⟩ := h.timing
  have hflags : State.Inv { s with regs.enVibration := s.opV, regs.enPressures := s.opP } :=
    init_move (l' := .i3) (es := []) h hw ho ho (.inl hf) rfl rfl rfl rfl
      ⟨s.regs.readDelay, s.opV, s.opP, rfl, hlo, hhi⟩
      ((initOk_attempt (by exact hc)).2 ⟨ha, fun k hk => absurd (hr.symm.trans hk) (by simp)⟩) rfl rfl
  exact inv_attemptList hflags hw hf ho hc ha (State.commands_pos _)

/-- I4 ends INIT with the attempt's status, or grows read_delay for another attempt (R224, R225, R226). -/
theorem inv_stepI4 (ho : s.pos.opPos = .init .i4) (hr : s.pos.replayPos = none) : (stepI4 s).Inv := by
  have hgrown : State.Inv { s with regs.readDelay := s.grownDelay } := by
    obtain ⟨hlo, hhi⟩ := grown_ok h
    exact init_move (l' := .i4) (es := []) h hw ho ho (.inl hf) rfl rfl rfl rfl
      ⟨s.grownDelay, s.regs.enVibration, s.regs.enPressures, rfl, hlo, hhi⟩ (initOk_of h.position ho) rfl rfl
  unfold stepI4
  split
  · next r hres => exact inv_goStatus h hw hf ho hr (statusOk_of_attemptResult hres)
  · next hres =>
    dsimp only
    split
    · next hlt => exact inv_goAttempt hgrown hw hf ho hr (Nat.succ_pos _) hlt
    · exact inv_goStatus hgrown hw hf ho hr (.inr hres)

/-- A step at a label of INIT, outside a read cycle and a command list, keeps the invariant. -/
theorem inv_stepInit {l : InitStep} (ho : s.pos.opPos = .init l) (hc : s.pos.cyclePos = none)
    (hr : s.pos.replayPos = none) : (stepInit l s).Inv := by
  cases l with
  | i1 => exact inv_stepI1 h hw hf ho hr
  | i2 => exact inv_stepI2 h hw hf ho hr
  | i3 => exact inv_stepI3 h hw hf ho hc hr
  | i4 => exact inv_stepI4 h hw hf ho hr
  | i5 => exact inv_complete h hw hf hr _ true

/-- A step of the sequencer keeps the invariant. -/
theorem inv_sequencer : (sequencer s).Inv := by
  unfold sequencer
  split
  · next k hr =>
    split
    · next i hi => exact inv_loadCommand h hw hr (List.mem_of_getElem? hi)
    · exact inv_afterReplay h hw hf hr
  · next hr =>
    split
    · next l hc => exact inv_stepCycle h hw hf hc hr
    · next l hc ho =>
      have hcp : s.pos.cyclePos = none := by simpa [State.cycle, ho] using hc
      exact inv_stepInit h hw hf ho hcp hr
    all_goals exact h

end

/-- What follows a step of a frame: nothing while it is under way, then the list's next command or the check of an
attempt's read. -/
theorem inv_afterFrame (h : s.Inv) (hw : s.pos.frame = none → s.pos.asleep = false) :
    (afterFrame s).Inv := by
  unfold afterFrame
  split
  · exact h
  · next hf hr => exact inv_afterCommand h (hw hf) hf hr
  · next hf hr hc => exact inv_afterRead h (hw hf) hf hc hr
  · exact h

/-- A step of the pending frame, and what follows it, keep the invariant. -/
theorem inv_frame_step {i : Instr} {u : State} (h : s.Inv) (hw : s.pos.asleep = false)
    (hf : s.pos.frame = some i) (he : exec i s = .next u) : (afterFrame u).Inv := by
  obtain ⟨t, ht, hruns, hstops, hwaits, -⟩ :=
    exec_wire (h.frame.1 i hf).1 h.params (h.lines hw) h.frame.2 hw
  obtain rfl : t = u := by rw [ht] at he; injection he
  by_cases hready : s.ready
  · cases hs : t.pos.asleep with
    | false =>
      obtain ⟨hinv, haw, -⟩ := (hruns hready hs).inv h hf hw
      exact inv_afterFrame hinv fun _ => haw
    | true =>
      have k := hstops hready hs
      obtain ⟨fp, byi, bi, sh, dc, a, hpos⟩ := k.stopped.pos
      exact inv_afterFrame (k.inv h hf hw) fun hn => by rw [hpos] at hn; cases hn
  · have k := hwaits hready
    refine inv_afterFrame (k.inv h hf hw) fun _ => ?_
    obtain ⟨env, a, es, rfl, -⟩ := k
    exact hw

end

/-! ## Every step -/

/-- Settles O3: each thing that a step can do keeps the invariant. -/
theorem stepKeepsInvariant : Obligations.StepKeepsInvariant := by
  intro s t h hs
  obtain ⟨-, hcases⟩ := step_cases hs
  rcases hcases with ⟨r, rfl⟩ | ⟨-, hb, w, i, u, hu, hd, he⟩ | ⟨-, -, hw, i, u, hf, he, rfl⟩ | ⟨hctl, rfl⟩ | rfl
  · exact inv_refuse h r
  · rcases hu with rfl | rfl
    · exact inv_exec_host (inv_takeRequest h) hb (decodeHost_isWire hd) he
    · exact inv_exec_host (inv_takeProgram h) hb (decodeHost_isWire hd) he
  · exact inv_frame_step h hw hf he
  · obtain ⟨-, -, -, hf, -, hw⟩ := hctl
    exact inv_sequencer h hw hf
  · exact h

end Sys2Proof.Machine
end

section
/-! PROOF. What fetch finds, said once for each of its cases, and the step that follows: the fetched instruction, a
sequencer step, or nothing. A block whose parameters violate R8 is refused whatever the step or the instruction. -/

namespace Sys2Proof.Machine

/-! ## What fetch finds -/

section
variable {s : State}

theorem fetch_badParameters (hr : s.refused = none) (hok : s.params.ok = false) :
    fetch s = .refuse .badParameters := by
  simp [fetch, hr, hok]

theorem fetch_request {w : HostWord} (hr : s.refused = none) (hok : s.params.ok = true)
    (hq : s.port.request = some w) : fetch s = fetchHost w s.takeRequest s := by
  simp [fetch, hr, hok, hq]

theorem fetch_asleep (h : s.atSleep) : fetch s = .asleep := by
  obtain ⟨hr, hok, hq, hz⟩ := h
  simp [fetch, hr, hok, hq, hz]

theorem fetch_frame {i : Instr} (h : s.atFrame i) : fetch s = .frame i := by
  obtain ⟨hr, hok, hq, hf, hz⟩ := h
  simp [fetch, hr, hok, hq, hf, hz]

theorem fetch_control (h : s.atControl) : fetch s = .control := by
  obtain ⟨hr, hok, hq, hf, hb, hz⟩ := h
  simp [fetch, hr, hok, hq, hf, hb, hz]

/-- An idle block whose host issues nothing (R301). -/
theorem fetch_idle (hr : s.refused = none) (hok : s.params.ok = true) (hq : s.port.request = none)
    (hf : s.pos.frame = none) (hz : s.pos.asleep = false) (hb : s.port.busy = false)
    (hp : s.port.program = []) : fetch s = .idle := by
  simp [fetch, hr, hok, hq, hf, hz, hb, hp]

/-- An idle block takes the first word of the host's program (log entry 4). -/
theorem fetch_program {w : HostWord} {ws : List HostWord} (hr : s.refused = none) (hok : s.params.ok = true)
    (hq : s.port.request = none) (hf : s.pos.frame = none) (hz : s.pos.asleep = false)
    (hb : s.port.busy = false) (hp : s.port.program = w :: ws) :
    fetch s = fetchHost w s.takeProgram s := by
  simp [fetch, hr, hok, hq, hf, hz, hb, hp]

end

/-- A word that decodes is issued at a port that is not busy (R281). -/
theorem fetchHost_ok {w : HostWord} {i : Instr} {u s : State} (hb : s.port.busy = false)
    (hd : decodeHost w = .ok i) : fetchHost w u s = .host i u := by
  simp [fetchHost, hb, hd]

/-! ## The step that follows -/

theorem step_atSleep {s : State} (h : s.atSleep) : step s = .next s := by
  simp [step, fetch_asleep h]

theorem step_atControl {s : State} (h : s.atControl) : step s = .next (sequencer s) := by
  simp [step, fetch_control h]

theorem step_atFrame {i : Instr} {s u : State} (h : s.atFrame i) (he : exec i s = .next u) :
    step s = .next (afterFrame u) := by
  simp [step, fetch_frame h, he, thenSequence]

/-- The sequencer stays while the frame is under way. -/
theorem afterFrame_of_frame {s : State} (h : s.pos.frame ≠ none) : afterFrame s = s := by
  unfold afterFrame
  split
  · rfl
  all_goals exact absurd ‹s.pos.frame = none› h

/-- Settles O4, one case of fetch after another. -/
theorem stepRunsFetchedInstruction : Obligations.StepRunsFetchedInstruction := by
  refine ⟨fun s w i hr hok hq hb hd => ?_, fun s w ws i hr hok hq hf hz hb hp hd => ?_,
    fun s u i h he => ⟨step_atFrame h he, afterFrame_of_frame⟩, fun s => step_atControl, fun s => step_atSleep,
    fun s hr hok hq hf hz hb hp => ?_⟩
  · rw [step, fetch_request hr hok hq, fetchHost_ok hb hd]
    rfl
  · have htail : s.takeProgram = { s with port := { s.port with program := ws } } := by
      simp [State.takeProgram, hp]
    rw [step, fetch_program hr hok hq hf hz hb hp, fetchHost_ok hb hd, htail]
  · rw [step, fetch_idle hr hok hq hf hz hb hp]

/-! ## Parameters that violate R8 -/

section
variable {s : State} (hok : s.params.ok = false)
include hok

/-- BAD_PARAMETERS comes before the other reasons of a refusal (log entry 10). -/
theorem admission_badParameters (b : Bool) (run : State → State) :
    s.admission b run = s.refuse .badParameters := by
  simp [State.admission, State.refusal, hok]

theorem query_badParameters (w : HostWord) (result : State → HostWord) :
    query w result s = s.refuse .badParameters :=
  admission_badParameters hok _ _

theorem wireFrame_badParameters (run : State → State) : wireFrame run s = s.refuse .badParameters := by
  simp [wireFrame, hok]

/-- Every instruction is refused: a host operation at its admission, a wire frame before it begins (R276). -/
theorem exec_badParameters (i : Instr) : exec i s = .next (s.refuse .badParameters) := by
  cases i with
  | init | poll | analog => exact congrArg _ (admission_badParameters hok _ _)
  | isPressed | wasPressed | wasReleased | wasToggled | anyToggled | readType =>
    exact congrArg _ (query_badParameters hok _ _)
  | enterConfig | queryType | setMode | enableVibration | enablePressure | exitConfig | read | readCont =>
    exact congrArg _ (wireFrame_badParameters hok _)

end

/-- Settles O9: fetch refuses the step, and admission or the frame's own check the instruction. -/
theorem badParametersRefused : Obligations.BadParametersRefused := by
  intro s hr hok
  refine ⟨?_, exec_badParameters hok⟩
  rw [step, fetch_badParameters hr hok]
  rfl

end Sys2Proof.Machine
end

section
/-! PROOF. A sleep that never ends stops the block there: in a frame, beside the same frame under a time port that
ends every sleep, and after a failed attempt's replay. -/

namespace Sys2Proof.Machine

/-- A frame that does not wait, and what a time port that never ends one of its sleeps makes of it (R290). -/
theorem exec_wire_beside {i : Instr} {s : State} (hi : i.isWire = true) (hok : s.params.ok = true)
    (hready : s.ready) (hl : s.linesIdle) (ha : s.pos.acquiring = true → s.params.transport = .hwspi)
    (hw : s.pos.asleep = false) :
    ∃ t u, exec i s = .next t ∧ exec i s.freed = .next u ∧
      (t.pos.asleep = false → u = t.freed ∧
        ∀ n, s.env.sleepsLeft = some n → sleepCount t.history ≤ sleepCount s.history + n) ∧
      (t.pos.asleep = true → FrameStopped i s t ∧ (s.rbOk → t.rbOk) ∧ ∃ es, u.history = es ++ t.history) := by
  obtain ⟨t, ht, -, hstops, -, -⟩ := exec_wire hi hok hl ha hw
  cases hs : t.pos.asleep with
  | false =>
    obtain ⟨hfree, hcount⟩ := exec_wire_awake hi hok hready hw ht hs
    exact ⟨t, t.freed, ht, hfree, fun _ => ⟨rfl, hcount⟩, fun h => by simp [hs] at h⟩
  | true =>
    have k := hstops hready hs
    obtain ⟨u, es, hu, -, hh⟩ := k.whole
    exact ⟨t, u, ht, hu, fun h => by simp [hs] at h, fun _ => ⟨k.stopped, k.rb, es, hh⟩⟩

/-- After the last command of a list, the sequencer leaves it. -/
theorem afterFrame_last {s : State} {k : Nat} (hf : s.pos.frame = none) (hr : s.pos.replayPos = some k)
    (hk : k + 1 = s.commands.length) : afterFrame s = afterReplay s := by
  simp [afterFrame, hf, hr, afterCommand, hk]

/-- The sleep after a failed attempt's replay, never ended: the block stays at P4, its list left (R214, R290). -/
theorem afterReplay_stays {s : State} (hc : s.cycle = some .p4) (hl : s.env.sleepsLeft = some 0) :
    afterReplay s = { s with pos := { s.pos with replayPos := none, asleep := true },
                             history := .sleepMs s.regs.readDelay :: s.history } := by
  unfold afterReplay
  rw [hc]
  exact State.sleep_stays (s := s.leaveList) hl _ _

/-- Settles O27, with the laws of a frame that stops in a sleep. -/
theorem unendedSleepStopsTheBlock : Obligations.UnendedSleepStopsTheBlock := by
  refine ⟨fun s i => exec_wire_beside, fun s => step_atSleep, fun s u k i h he hf hl hr hk hc => ?_⟩
  rw [step_atFrame h he, afterFrame_last hf hr hk, afterReplay_stays hc hl]

end Sys2Proof.Machine
end

section
/-! PROOF. The events of a frame fold to one frame entry: what each part of the frame ends, and what it leaves under
way. -/

namespace Sys2Proof.Machine

/-! ## Folding events in two parts -/

theorem foldTrace_append (f : FoldState) (xs ys : List Event) :
    foldTrace f (xs ++ ys) = foldTrace f xs ++ foldTrace (xs.foldl FoldState.next f) ys := by
  induction xs generalizing f with
  | nil => rfl
  | cons e xs ih => simp [foldTrace, ih]

/-- From f the events es end the trace entries items and leave the folding at g. -/
def Folds (f : FoldState) (es : List Event) (items : List TraceItem) (g : FoldState) : Prop :=
  foldTrace f es = items ∧ es.foldl FoldState.next f = g

theorem Folds.append {f g k : FoldState} {xs ys : List Event} {is js : List TraceItem}
    (h : Folds f xs is g) (h' : Folds g ys js k) : Folds f (xs ++ ys) (is ++ js) k := by
  obtain ⟨h1, h2⟩ := h
  obtain ⟨h1', h2'⟩ := h'
  exact ⟨by rw [foldTrace_append, h2, h1, h1'], by rw [List.foldl_append, h2, h2']⟩

/-! ## The parts of a frame -/

/-- The byte whose bits are given, bit 7 first (R72). -/
theorem byteOfBits_bits :
    ∀ o : Byte, byteOfBits (o.getLsbD 7 :: (List.range 7).reverse.map o.getLsbD) = o := by decide

/-- A frame between two of its bytes, with the bytes exchanged so far. -/
def FoldState.between (out reply : List Byte) : FoldState := ⟨true, [], [], out, reply⟩

/-- A bit period before the byte's last adds its two bits. -/
theorem folds_bit (p : Params) (o r : Byte) (j : Nat) {f : FoldState} (hf : f.inBits.length < 7) :
    Folds f (gpioBitEvents p o r j) []
      { f with cmd := o.getLsbD j, outBits := o.getLsbD j :: f.outBits, inBits := r.getLsbD j :: f.inBits } := by
  have h7 : f.inBits.length ≠ 7 := by omega
  simp [Folds, gpioBitEvents, foldTrace, FoldState.item, FoldState.next, h7]

/-- The last bit period makes the byte whole. -/
theorem folds_lastBit (p : Params) (o r : Byte) (j : Nat) {f : FoldState} (hf : f.inBits.length = 7) :
    Folds f (gpioBitEvents p o r j) []
      ⟨o.getLsbD j, [], [], byteOfBits (o.getLsbD j :: f.outBits) :: f.out,
        byteOfBits (r.getLsbD j :: f.inBits) :: f.reply⟩ := by
  simp [Folds, gpioBitEvents, foldTrace, FoldState.item, FoldState.next, hf]

/-- After n bit periods, fewer than a byte's, the bits so far are under way, the latest first. -/
theorem folds_bits (p : Params) (b : Byte × Byte) (out reply : List Byte) {n : Nat} (hn : n < 8) :
    ∃ c, Folds (.between out reply) ((List.range n).flatMap (gpioBitEvents p b.1 b.2)) []
      ⟨c, (List.range n).reverse.map b.1.getLsbD, (List.range n).reverse.map b.2.getLsbD, out, reply⟩ := by
  induction n with
  | zero => exact ⟨true, rfl, rfl⟩
  | succ n ih =>
    obtain ⟨c, h⟩ := ih (by omega)
    refine ⟨b.1.getLsbD n, ?_⟩
    rw [List.range_succ, List.flatMap_append]
    simpa using h.append (folds_bit p b.1 b.2 n (by simp; omega))

/-- A byte exchange adds its two bytes, in either option (R72, R73). -/
theorem folds_byte (p : Params) (b : Byte × Byte) (out reply : List Byte) :
    Folds (.between out reply) (byteEvents p b) [] (.between (b.1 :: out) (b.2 :: reply)) := by
  cases ht : p.transport with
  | hwspi =>
    simp [Folds, byteEvents, ht, foldTrace, FoldState.item, FoldState.next, FoldState.between]
  | gpio =>
    obtain ⟨c, hbits⟩ := folds_bits p b out reply (n := 7) (by omega)
    have hlast := hbits.append (folds_lastBit p b.1 b.2 7 (by simp))
    have hend : ∀ c out reply, Folds ⟨c, [], [], out, reply⟩ [.pin .cmd true, .sleepUs p.tByteUs] []
        (.between out reply) := fun _ _ _ => ⟨rfl, rfl⟩
    have hevents : byteEvents p b = (List.range 7).flatMap (gpioBitEvents p b.1 b.2) ++
        gpioBitEvents p b.1 b.2 7 ++ [.pin .cmd true, .sleepUs p.tByteUs] := by
      simp [byteEvents, ht, List.range_succ]
    have hall := hlast.append (hend _ _ _)
    rwa [← hevents, byteOfBits_bits, byteOfBits_bits] at hall

/-- The bytes of a frame, exchanged one after another. -/
theorem folds_bytes (p : Params) (pairs : List (Byte × Byte)) (out reply : List Byte) :
    Folds (.between out reply) (pairs.flatMap (byteEvents p)) []
      (.between ((pairs.map Prod.fst).reverse ++ out) ((pairs.map Prod.snd).reverse ++ reply)) := by
  induction pairs generalizing out reply with
  | nil => exact ⟨rfl, rfl⟩
  | cons b pairs ih => simpa using (folds_byte p b out reply).append (ih (b.1 :: out) (b.2 :: reply))

/-- Attention falls with nothing under way (R135). -/
theorem folds_open (p : Params) : Folds .idle (openEvents p) [] (.between [] []) := by
  cases ht : p.transport <;>
    simp [Folds, openEvents, ht, foldTrace, FoldState.item, FoldState.next, FoldState.idle, FoldState.between]

/-- Attention's rise ends the frame's entry, and the release sample follows (R136). -/
theorem folds_close (p : Params) (v : Nat) (out reply : List Byte) :
    Folds (.between out reply) (closeEvents p v) [.frame out.reverse reply.reverse, .clock v] .idle := by
  cases ht : p.transport <;>
    simp [Folds, closeEvents, ht, foldTrace, FoldState.item, FoldState.next, FoldState.idle, FoldState.between]

/-- Settles O31: the opening, the bytes and the end of a frame folded in order. -/
theorem frameEventsFold : Obligations.FrameEventsFold := by
  intro p pairs v
  have h := ((folds_open p).append (folds_bytes p pairs [] [])).append (folds_close p v _ _)
  simpa [Folds, frameEvents] using h

end Sys2Proof.Machine
end

section
/-! PROOF. The refused mark, and how INIT and POLL are admitted, refused and issued. -/

namespace Sys2Proof.Machine

/-- Settles O6: fetch finds the mark first, so a step that goes on began without it. -/
theorem refusedStateHasNoStep : Obligations.RefusedStateHasNoStep := by
  refine ⟨fun s r => s.refuse_refused r, fun s r hr => ?_, fun s t h => (step_cases h).1⟩
  simp [step, fetch, hr]

/-! ## Admission -/

section
variable {s : State} {b : Bool}

/-- An operation that is admitted is not refused: the converse of State.refusal_none. -/
theorem refusal_of_admits (h : s.admits b) : s.refusal b = none := by
  obtain ⟨hok, hb, hv⟩ := h
  cases b with
  | false => simp [State.refusal, hok, hb]
  | true => simp [State.refusal, hok, hb, hv rfl]

theorem admission_of_admits (h : s.admits b) (run : State → State) : s.admission b run = run s := by
  simp [State.admission, refusal_of_admits h]

/-- At an idle port and with legal parameters, what needs a session is refused without one (R277). -/
theorem admission_notInitialised (h : s.admits false) (hv : s.regs.sessionValid = false) (run : State → State) :
    s.admission true run = s.refuse .notInitialised := by
  obtain ⟨hok, hb, -⟩ := h
  simp [State.admission, State.refusal, hok, hb, hv]

end

/-! ## The words of INIT and POLL (R110) -/

theorem hostWord_init (p v : Bool) :
    hostWord (.init p v) = 0#26 ++ BitVec.ofBool v ++ BitVec.ofBool p ++ 0x0#4 := by
  cases p <;> cases v <;> rfl

theorem hostWord_poll (a : Bool) (b : Byte) :
    hostWord (.poll a b) = 0#16 ++ b ++ (0#3 ++ BitVec.ofBool a ++ 0x1#4) := by
  have hlow : 0#2 ++ (BitVec.ofBool false ++ (BitVec.ofBool a ++ 0x1#4)) = 0#3 ++ BitVec.ofBool a ++ 0x1#4 := by
    cases a <;> rfl
  show 0#16 ++ (b ++ (0#2 ++ (BitVec.ofBool false ++ (BitVec.ofBool a ++ 0x1#4)))) = _
  rw [hlow]
  exact (BitVec.append_assoc (x₁ := 0#16) (x₂ := b)).symm

/-- Settles O43: an admitted POLL begins its read cycle, and one without a session is refused. -/
theorem pollIssue : Obligations.PollIssue := by
  refine fun s a b => ⟨hostWord_poll a b, fun h => ?_, fun h hv => ?_⟩
  · rw [exec, execPoll, admission_of_admits h]
    rfl
  · rw [exec, execPoll, admission_notInitialised h hv]
    rfl

/-- Settles O44: INIT needs no session, so an idle port admits it. -/
theorem initIssue : Obligations.InitIssue := by
  refine fun s p v => ⟨hostWord_init p v, fun h => ?_⟩
  rw [exec, execInit, admission_of_admits h]
  rfl

end Sys2Proof.Machine
end

section
/-! PROOF. What the block records and writes between frames, said once for each thing that a step can do: events that
leave the folding as it was, and each register by the one label of the sequencer that owns it. -/

namespace Sys2Proof.Machine

/-! ## Between frames -/

/-- The events that come between frames: the host's and the block's own, but no edge, byte or wait of a frame. -/
def Event.isBetween : Event → Bool
  | .hostIssue _ => true
  | .hostDone _ => true
  | .clock _ => true
  | .sleepMs _ => true
  | .pin _ _ => false
  | .sample _ => false
  | .spiBegin => false
  | .spiEnd => false
  | .spiXfer _ _ => false
  | .sleepUs _ => false

/-- From s to t only such events were recorded. -/
abbrev RecordsBetween (s t : State) : Prop :=
  ∃ es : List Event, t.history = es ++ s.history ∧ ∀ e ∈ es, e.isBetween = true

/-- From s to t the block moved between frames: it wrote no parameter, recorded such events only, and the clock did
not go back (R31, R34, R45). -/
structure Between (s t : State) : Prop where
  params  : t.params = s.params
  history : RecordsBetween s t
  clock   : s.env.clockCount ≤ t.env.clockCount

namespace Between
variable {s t u : State}

theorem trans (h : Between s t) (k : Between t u) : Between s u := by
  obtain ⟨xs, hx, hbx⟩ := h.history
  obtain ⟨ys, hy, hby⟩ := k.history
  refine ⟨k.params.trans h.params, ⟨ys ++ xs, by rw [hy, hx, List.append_assoc], fun e he => ?_⟩,
    h.clock.trans k.clock⟩
  rcases List.mem_append.1 he with he | he
  · exact hby e he
  · exact hbx e he

theorem grows (h : Between s t) : Grows s t := by
  obtain ⟨es, he, -⟩ := h.history
  exact ⟨h.params, ⟨es, he⟩, h.clock⟩

/-- Nothing was recorded and no answer drawn. -/
theorem silent (hp : t.params = s.params) (hh : t.history = s.history) (he : t.env = s.env) : Between s t :=
  ⟨hp, ⟨[], hh, by simp⟩, by rw [he]⟩

theorem refl (s : State) : Between s s := silent rfl rfl rfl

theorem sleepMs (n : Nat) (s : State) : Between s (s.sleepMs n) :=
  ⟨rfl, ⟨[.sleepMs n], rfl, by simp [Event.isBetween]⟩, le_rfl⟩

theorem nowMs (s : State) : Between s s.nowMs.2 :=
  ⟨s.nowMs_params, ⟨[.clock s.nowMs.1], s.nowMs_history, by simp [Event.isBetween]⟩, s.nowMs_clock.1⟩

theorem issue (w : HostWord) (o : OpPos) (s : State) : Between s (s.issue w o) :=
  ⟨rfl, ⟨[.hostIssue w], rfl, by simp [Event.isBetween]⟩, le_rfl⟩

theorem complete (r : HostWord) (s : State) : Between s (s.complete r) :=
  ⟨rfl, ⟨[.hostDone r], rfl, by simp [Event.isBetween]⟩, le_rfl⟩

/-- What follows a sleep moves between frames too, whether the sleep ends or not (R290). -/
theorem awake (h : Between s t) {f : State → State} (hf : ∀ v, Between v (f v)) : Between s (t.awake f) := by
  unfold State.awake
  split
  · exact h
  · exact h.trans (hf t)

end Between

/-! ## After a command list or a frame -/

theorem afterReplay_between (s : State) : Between s (afterReplay s) := by
  unfold afterReplay
  split
  case h_2 =>
    refine ((Between.silent rfl rfl rfl : Between s s.leaveList).trans (.sleepMs _ _)).awake fun v => ?_
    split <;> exact .silent rfl rfl rfl
  all_goals exact .silent rfl rfl rfl

theorem afterReplay_regs (s : State) : (afterReplay s).regs = s.regs := by
  unfold afterReplay
  split
  case h_2 => exact awake_regs id (fun v => by split <;> rfl) _
  all_goals rfl

theorem afterCommand_between (k : Nat) (s : State) : Between s (afterCommand k s) := by
  unfold afterCommand
  split
  · exact .silent rfl rfl rfl
  · exact afterReplay_between s

theorem afterCommand_regs (k : Nat) (s : State) : (afterCommand k s).regs = s.regs := by
  unfold afterCommand
  split
  · rfl
  · exact afterReplay_regs s

theorem afterFrame_between (s : State) : Between s (afterFrame s) := by
  unfold afterFrame afterRead
  split
  · exact .refl s
  · exact afterCommand_between _ s
  · split <;> exact .silent rfl rfl rfl
  · exact .refl s

/-- What follows a frame writes no register. -/
theorem afterFrame_regs (s : State) : (afterFrame s).regs = s.regs := by
  unfold afterFrame afterRead
  split
  · rfl
  · exact afterCommand_regs _ s
  · split <;> rfl
  · rfl

/-! ## A step of the sequencer -/

theorem afterCycle_between (l : InitStep) (s : State) : Between s (afterCycle l s) := by
  cases l with
  | i1 => unfold afterCycle; dsimp only; split <;> exact .silent rfl rfl rfl
  | _ => exact .silent rfl rfl rfl

/-- At each label of a read cycle (R210). -/
theorem stepCycle_between (l : CycleStep) (s : State) : Between s (stepCycle l s) := by
  cases l with
  | p1 =>
    refine (Between.nowMs s).trans ?_
    unfold stepCycle stepP1
    dsimp only
    split <;> exact .silent rfl rfl rfl
  | p2 =>
    refine Between.awake ?_ fun v => .silent rfl rfl rfl
    split
    · exact .sleepMs _ s
    · exact .refl s
  | p3 => unfold stepCycle stepP3; dsimp only; split <;> exact .silent rfl rfl rfl
  | p4 => exact .silent rfl rfl rfl
  | p5 => unfold stepCycle stepP5; dsimp only; split <;> exact .silent rfl rfl rfl
  | p6 =>
    exact ((Between.silent rfl rfl rfl : Between s (roll s)).trans (.nowMs _)).trans (.silent rfl rfl rfl)
  | p7 =>
    unfold stepCycle stepP7
    dsimp only
    split
    · exact .complete _ s
    · exact afterCycle_between _ s
    all_goals exact .refl s

/-- At each label of INIT (R220). -/
theorem stepInit_between (l : InitStep) (s : State) : Between s (stepInit l s) := by
  cases l with
  | i1 => unfold stepInit stepI1; dsimp only; split <;> exact .silent rfl rfl rfl
  | i2 =>
    unfold stepInit stepI2
    dsimp only
    split
    · split <;> exact .silent rfl rfl rfl
    · exact .silent rfl rfl rfl
  | i3 => exact .silent rfl rfl rfl
  | i4 =>
    unfold stepInit stepI4
    dsimp only
    split
    · exact .silent rfl rfl rfl
    · split <;> exact .silent rfl rfl rfl
  | i5 => exact (Between.silent rfl rfl rfl : Between s { s with regs.sessionValid := true }).trans (.complete _ _)

theorem sequencer_between (s : State) : Between s (sequencer s) := by
  unfold sequencer
  split
  · split
    · exact .silent rfl rfl rfl
    · exact afterReplay_between s
  · split
    · exact stepCycle_between _ s
    · exact stepInit_between _ s
    all_goals exact .refl s

/-! ## A host operation -/

/-- A host operation, refused, begun or answered, leaves the block as awake as it was. -/
theorem exec_host_between {i : Instr} {s t : State} (hi : i.isWire = false) (he : exec i s = .next t) :
    Between s t ∧ t.pos.asleep = s.pos.asleep := by
  rcases exec_host hi he with ⟨r, rfl⟩ | ⟨p, v, -, -, rfl⟩ | ⟨a, b, -, -, rfl⟩ | ⟨r, -, rfl⟩
  · exact ⟨.silent rfl rfl rfl, rfl⟩
  · exact ⟨(Between.issue _ (.init .i1) s).trans (.silent rfl rfl rfl), rfl⟩
  · exact ⟨(Between.issue _ (.poll .p1) s).trans (.silent rfl rfl rfl), rfl⟩
  · exact ⟨(Between.issue _ _ s).trans (.complete _ _), rfl⟩

/-- So does the step that takes its word off the port. -/
theorem host_step_between {i : Instr} {s u t : State} (hu : u = s.takeRequest ∨ u = s.takeProgram)
    (hi : i.isWire = false) (he : exec i u = .next t) : Between s t ∧ t.pos.asleep = s.pos.asleep := by
  obtain ⟨hb, ha⟩ := exec_host_between hi he
  rcases hu with rfl | rfl
  · exact ⟨(Between.silent rfl rfl rfl : Between s s.takeRequest).trans hb, ha⟩
  · exact ⟨(Between.silent rfl rfl rfl : Between s s.takeProgram).trans hb, ha⟩

/-! ## Every step -/

/-- A step of anything that stands where a frame is loaded: of a wire frame, or of a host operation laid there. -/
theorem exec_grows {i : Instr} {s t : State} (hok : s.params.ok = true) (hw : s.pos.asleep = false)
    (he : exec i s = .next t) : Grows s t := by
  cases hi : i.isWire with
  | true => exact exec_wire_grows hi hok hw he
  | false => exact (exec_host_between hi he).1.grows

theorem step_grows {s t : State} (h : step s = .next t) : Grows s t := by
  obtain ⟨-, hcases⟩ := step_cases h
  rcases hcases with ⟨r, rfl⟩ | ⟨-, -, w, i, u, hu, hd, he⟩ | ⟨hok, -, hw, i, u, -, he, rfl⟩ | ⟨-, rfl⟩ | rfl
  · exact (Between.silent rfl rfl rfl : Between s (s.refuse r)).grows
  · exact (host_step_between hu (decodeHost_isWire hd) he).1.grows
  · exact (exec_grows hok hw he).trans (afterFrame_between u).grows
  · exact (sequencer_between s).grows
  · exact (Between.refl _).grows

/-- Settles O54: each thing that a step can do extends the history and writes no parameter. -/
theorem historyOnlyGrows : Obligations.HistoryOnlyGrows := fun _ _ h =>
  ⟨(step_grows h).params, (step_grows h).history⟩

/-- The difference of two samples, as R34 computes it on naturals, is the integers' modulo 2^CLOCK_BITS. -/
theorem elapsedSince_int (p : Params) (a b : Nat) :
    (elapsedSince p a b : Int) = ((a : Int) - b) % 2 ^ p.clockBits := by
  have hle : b % 2 ^ p.clockBits ≤ 2 ^ p.clockBits := (Nat.mod_lt b (Nat.two_pow_pos _)).le
  unfold elapsedSince
  push_cast [hle]
  rw [add_sub_left_comm, Int.add_emod_left, Int.sub_emod_emod]

/-- Settles O55: no step sets the clock back, and a sample and a difference are taken modulo 2^CLOCK_BITS. -/
theorem clockLaw : Obligations.ClockLaw :=
  ⟨fun _ _ h => (step_grows h).clock,
    fun s => ⟨s.nowMs_clock.2, s.nowMs_clock.1, s.nowMs_history⟩, elapsedSince_int⟩

end Sys2Proof.Machine
end

section
/-! PROOF. The only writer of each register: which registers a step writes, and at which label, frame or issue. -/

namespace Sys2Proof.Machine

/-! ## The writers -/

/-- How a step from s to t leaves the registers: as they were, or written by the one step that the spec names as the
writer (R36 to R44). -/
inductive RegsStep (s t : State) : Prop where
  | kept (h : t.regs = s.regs)
  /-- A frame: RB is a read's, controller_type the type query's, last_release any frame's. -/
  | framed (i : Instr) (m : Memory) (c : Byte) (v : Nat) (hf : s.pos.frame = some i)
      (h : t.regs = { s.regs with rb := m, controllerType := c, lastRelease := v })
      (hm : m ≠ s.regs.rb → ∃ a b, i = .read a b ∨ i = .readCont a b)
      (hc : c ≠ s.regs.controllerType → i = .queryType)
  /-- INIT's issue. -/
  | issued (hb : s.port.busy = false) (ho : t.pos.opPos = .init .i1)
      (h : t.regs = { s.regs with readDelay := s.params.delayInit })
  /-- P5, or a failed attempt at I4. -/
  | grown (hp : s.cycle = some .p5 ∨ s.pos.opPos = .init .i4)
      (h : t.regs = { s.regs with readDelay := s.grownDelay })
  /-- P6: the roll and the read timestamp. -/
  | rolled (v : Nat) (hp : s.cycle = some .p6)
      (h : t.regs = { s.regs with lastButtons := s.regs.buttons, buttons := s.buttonWord, lastRead := v })
  /-- I3: the flags from INIT's operands. -/
  | flagged (ho : s.pos.opPos = .init .i3) (hc : s.pos.cyclePos = none)
      (h : t.regs = { s.regs with enVibration := s.opV, enPressures := s.opP })
  /-- I5. -/
  | opened (ho : s.pos.opPos = .init .i5) (h : t.regs = { s.regs with sessionValid := true })

/-! ## A step of the sequencer -/

theorem afterCycle_regs (l : InitStep) (s : State) : (afterCycle l s).regs = s.regs := by
  cases l with
  | i1 => unfold afterCycle; dsimp only; split <;> rfl
  | _ => rfl

theorem stepCycle_regs {l : CycleStep} {s : State} (hc : s.cycle = some l) : RegsStep s (stepCycle l s) := by
  cases l with
  | p1 =>
    refine .kept ?_
    unfold stepCycle stepP1
    dsimp only
    split <;> exact s.nowMs_regs
  | p2 =>
    refine .kept ((awake_regs id (f := State.goCycle .p3) (fun _ => rfl) _).trans ?_)
    split <;> rfl
  | p3 =>
    refine .kept ?_
    unfold stepCycle stepP3
    dsimp only
    split <;> rfl
  | p4 => exact .kept rfl
  | p5 =>
    unfold stepCycle stepP5
    dsimp only
    split
    · exact .kept rfl
    · exact .grown (.inl hc) rfl
  | p6 =>
    refine .rolled (roll s).nowMs.1 hc ?_
    unfold stepCycle stepP6
    simp [roll]
  | p7 =>
    refine .kept ?_
    unfold stepCycle stepP7
    dsimp only
    split
    case h_2 => exact afterCycle_regs _ s
    all_goals rfl

theorem stepInit_regs {l : InitStep} {s : State} (ho : s.pos.opPos = .init l) (hc : s.pos.cyclePos = none) :
    RegsStep s (stepInit l s) := by
  cases l with
  | i1 => refine .kept ?_; unfold stepInit stepI1; dsimp only; split <;> rfl
  | i2 =>
    refine .kept ?_
    unfold stepInit stepI2
    dsimp only
    split
    · split <;> rfl
    · rfl
  | i3 => exact .flagged ho hc rfl
  | i4 =>
    unfold stepInit stepI4
    dsimp only
    split
    · exact .kept rfl
    · refine .grown (.inr ho) ?_
      split <;> rfl
  | i5 => exact .opened ho rfl

theorem sequencer_regs (s : State) : RegsStep s (sequencer s) := by
  unfold sequencer
  split
  · refine .kept ?_
    split
    · rfl
    · exact afterReplay_regs s
  · split
    · next hc => exact stepCycle_regs hc
    · next l hc ho => exact stepInit_regs ho (by simpa [State.cycle, ho] using hc)
    all_goals exact .kept rfl

/-! ## A host operation and a frame -/

theorem exec_host_regs {i : Instr} {s t : State} (hi : i.isWire = false) (he : exec i s = .next t) :
    t.regs = s.regs ∨ (t.pos.opPos = .init .i1 ∧ t.regs = { s.regs with readDelay := s.params.delayInit }) := by
  rcases exec_host hi he with ⟨r, rfl⟩ | ⟨p, v, -, -, rfl⟩ | ⟨a, b, -, -, rfl⟩ | ⟨r, -, rfl⟩
  · exact .inl rfl
  · exact .inr ⟨rfl, rfl⟩
  · exact .inl rfl
  · exact .inl rfl

theorem host_step_regs {i : Instr} {s u t : State} (hb : s.port.busy = false)
    (hu : u = s.takeRequest ∨ u = s.takeProgram) (hi : i.isWire = false) (he : exec i u = .next t) :
    RegsStep s t := by
  have hup : u.regs = s.regs ∧ u.params = s.params := by rcases hu with rfl | rfl <;> exact ⟨rfl, rfl⟩
  obtain ⟨hur, hup⟩ := hup
  rcases exec_host_regs hi he with h | ⟨ho, h⟩
  · exact .kept (h.trans hur)
  · exact .issued hb ho (by rw [h, hur, hup])

/-- A whole frame writes RB only if it is a read and controller_type only if it is the type query (R36, R41). -/
theorem framedRegs_writes (p : Params) (g : Regs) (rs : List Byte) (i : Instr) :
    ∃ m c, framedRegs p g rs i = { g with rb := m, controllerType := c } ∧
      (m ≠ g.rb → ∃ a b, i = .read a b ∨ i = .readCont a b) ∧ (c ≠ g.controllerType → i = .queryType) := by
  cases i with
  | read a b => exact ⟨_, g.controllerType, rfl, fun _ => ⟨a, b, .inl rfl⟩, fun h => absurd rfl h⟩
  | readCont a b => exact ⟨_, g.controllerType, rfl, fun _ => ⟨a, b, .inr rfl⟩, fun h => absurd rfl h⟩
  | queryType => exact ⟨g.rb, _, rfl, fun h => absurd rfl h, fun _ => rfl⟩
  | _ => exact ⟨g.rb, g.controllerType, rfl, fun h => absurd rfl h, fun h => absurd rfl h⟩

/-- The pending frame waits, runs whole or stops in a sleep, as exec_wire says, from a legal pending frame. -/
theorem pending_frame_cases {i : Instr} {s u : State} (hfr : s.frameOk) (hf : s.pos.frame = some i)
    (hok : s.params.ok = true) (hl : s.linesIdle) (hw : s.pos.asleep = false) (he : exec i s = .next u) :
    (Runs i s u ∧ u.pos.asleep = false) ∨ Stops i s u ∨ Waits i s u := by
  obtain ⟨t, ht, hruns, hstops, hwaits, -⟩ := exec_wire (hfr.1 i hf).1 hok hl hfr.2 hw
  obtain rfl : t = u := by rw [ht] at he; injection he
  by_cases hready : s.ready
  · cases hs : t.pos.asleep with
    | false => exact .inl ⟨hruns hready hs, rfl⟩
    | true => exact .inr (.inl (hstops hready hs))
  · exact .inr (.inr (hwaits hready))

theorem frame_step_regs {i : Instr} {s u : State} (hf : s.pos.frame = some i)
    (h : Runs i s u ∨ Stops i s u ∨ Waits i s u) : RegsStep s (afterFrame u) := by
  rcases h with k | k | k
  · obtain ⟨rs, -, v, -, -, -, -, -, hr, -⟩ := k
    obtain ⟨m, c, hg, hm, hc⟩ := framedRegs_writes s.params s.regs rs i
    exact .framed i m c v hf (by rw [afterFrame_regs, hr, hg]) hm hc
  · obtain ⟨m, c, v, hr, hm, hc⟩ := k.stopped.regs
    refine .framed i m c v hf (by rw [afterFrame_regs, hr]) (fun hn => ?_) (fun hn => ?_)
    · by_contra hno
      exact hn (hm fun a b => ⟨fun h => hno ⟨a, b, .inl h⟩, fun h => hno ⟨a, b, .inr h⟩⟩)
    · by_contra hno
      exact hn (hc hno)
  · obtain ⟨env, a, es, rfl, -⟩ := k
    exact .kept (afterFrame_regs _)

/-! ## Every step -/

theorem step_regs {s t : State} (hfr : s.frameOk) (hl : s.pos.asleep = false → s.linesIdle)
    (h : step s = .next t) : RegsStep s t := by
  obtain ⟨-, hcases⟩ := step_cases h
  rcases hcases with ⟨r, rfl⟩ | ⟨-, hb, w, i, u, hu, hd, he⟩ | ⟨hok, -, hw, i, u, hf, he, rfl⟩ | ⟨-, rfl⟩ | rfl
  · exact .kept rfl
  · exact host_step_regs hb hu (decodeHost_isWire hd) he
  · exact frame_step_regs hf ((pending_frame_cases hfr hf hok (hl hw) hw he).imp_left And.left)
  · exact sequencer_regs s
  · exact .kept rfl

/-- Settles O53: of each register that differs, the one writer. -/
theorem registersWrittenOnlyByTheirOwners : Obligations.RegistersWrittenOnlyByTheirOwners := by
  intro s t hfr hl h
  cases step_regs hfr hl h with
  | kept h => simp [h]
  | framed i m c v hf h hm hc =>
    simpa [h, hf] using ⟨hm, hc⟩
  | issued hb ho h => simp [h, hb, ho]
  | grown hp h => simp [h, hp, State.grownDelay]
  | rolled v hp h => simp [h, hp, State.buttonWord]
  | flagged ho hc h => simp [h, ho, hc]
  | opened ho h => simp [h, ho]

end Sys2Proof.Machine
end

section
/-! PROOF. The frames that a step adds to the trace: none between frames, the pending frame's entry when it runs whole,
and a part of that when it stops in a sleep. -/

namespace Sys2Proof.Machine

/-! ## The trace of a longer history -/

theorem trace_extend {s t : State} {es : List Event} (h : t.history = es.reverse ++ s.history) :
    t.trace = s.trace ++ foldTrace s.folded es ∧ t.folded = es.foldl FoldState.next s.folded := by
  simp [State.trace, State.folded, h, foldTrace_append]

/-- Whether an entry is a frame's. -/
def TraceItem.isFrame : TraceItem → Bool
  | .frame _ _ => true
  | .issue _ => false
  | .done _ => false
  | .clock _ => false
  | .sleepMs _ => false

/-- An event between frames leaves what is under way, and ends no frame. -/
theorem Event.next_between {e : Event} (h : e.isBetween = true) (f : FoldState) :
    f.next e = f ∧ ∀ x ∈ f.item e, x.isFrame = false := by
  cases e <;> simp_all [Event.isBetween, FoldState.next, FoldState.item, TraceItem.isFrame]

theorem foldTrace_between {es : List Event} (h : ∀ e ∈ es, e.isBetween = true) (f : FoldState) :
    es.foldl FoldState.next f = f ∧ ∀ x ∈ foldTrace f es, x.isFrame = false := by
  induction es with
  | nil => simp [foldTrace]
  | cons e es ih =>
    obtain ⟨hn, hi⟩ := Event.next_between (h e (by simp)) f
    obtain ⟨hf, hx⟩ := ih fun d hd => h d (by simp [hd])
    refine ⟨by rw [List.foldl_cons, hn, hf], fun x hx' => ?_⟩
    rw [foldTrace, hn] at hx'
    rcases List.mem_append.1 hx' with hx' | hx'
    · exact hi x hx'
    · exact hx x hx'

/-! ## The entries a step may add -/

/-- A frame entry of the frame that s is about to send: a catalog frame, well formed, a READ with or without its
continuation, with a reply byte for every request byte (R99, R102). -/
def PendingFrame (s : State) (out reply : List Byte) : Prop :=
  reply.length = out.length ∧
    ∃ i j : Instr, s.pos.frame = some j ∧
      (i = j ∨ ∃ a b, (i = .read a b ∨ i = .readCont a b) ∧ (j = .read a b ∨ j = .readCont a b)) ∧
      i.isWire = true ∧ i.wf = true ∧ encode s.params.catalog i = .wire out

/-- New entries with at most one frame, the pending one. -/
structure NewEntries (s : State) (new : List TraceItem) : Prop where
  frames : ∀ out reply, TraceItem.frame out reply ∈ new → PendingFrame s out reply
  one    : new.countP TraceItem.isFrame ≤ 1

section
variable {s t u : State} {xs ys : List TraceItem}

/-- No entry of a frame. -/
theorem countP_isFrame (h : ∀ x ∈ xs, x.isFrame = false) : xs.countP TraceItem.isFrame = 0 :=
  List.countP_eq_zero.2 fun x hx => by simp [h x hx]

theorem frame_not_mem (h : ∀ x ∈ xs, x.isFrame = false) (out reply : List Byte) : .frame out reply ∉ xs :=
  fun hm => Bool.noConfusion (h _ hm)

theorem NewEntries.of_noFrame (h : ∀ x ∈ xs, x.isFrame = false) : NewEntries s xs :=
  ⟨fun out reply hm => absurd hm (frame_not_mem h out reply), by rw [countP_isFrame h]; omega⟩

theorem NewEntries.left (h : NewEntries s (xs ++ ys)) : NewEntries s xs := by
  refine ⟨fun out reply hm => h.frames out reply (List.mem_append_left ys hm), ?_⟩
  have hone := h.one
  rw [List.countP_append] at hone
  omega

/-- With entries of no frame before or after. -/
theorem NewEntries.around (h : NewEntries s xs) {ps qs : List TraceItem} (hp : ∀ x ∈ ps, x.isFrame = false)
    (hq : ∀ x ∈ qs, x.isFrame = false) : NewEntries s (ps ++ xs ++ qs) := by
  refine ⟨fun out reply hm => h.frames out reply ?_, ?_⟩
  · simpa [frame_not_mem hp, frame_not_mem hq] using hm
  · simpa [countP_isFrame hp, countP_isFrame hq] using h.one

/-- From s to t the trace grew by such entries, and unless the block is asleep at t no frame is half traced. -/
structure TraceStep (s t : State) : Prop where
  idle : t.pos.asleep = false → t.folded = .idle
  grew : ∃ new, t.trace = s.trace ++ new ∧ NewEntries s new

/-- Between frames the trace grows by no frame, and what is under way stays. -/
theorem trace_between (h : RecordsBetween s t) :
    t.folded = s.folded ∧ ∃ new, t.trace = s.trace ++ new ∧ ∀ x ∈ new, x.isFrame = false := by
  obtain ⟨es, hh, hb⟩ := h
  obtain ⟨ht, hf⟩ := trace_extend (es := es.reverse) (by simpa using hh)
  obtain ⟨hn, hx⟩ := foldTrace_between (es := es.reverse) (by simpa using hb) s.folded
  exact ⟨hf.trans hn, _, ht, hx⟩

theorem TraceStep.of_between (h : RecordsBetween s t) (hi : t.pos.asleep = false → s.folded = .idle) :
    TraceStep s t := by
  obtain ⟨hf, new, ht, hx⟩ := trace_between h
  exact ⟨fun ha => hf.trans (hi ha), new, ht, .of_noFrame hx⟩

theorem TraceStep.andBetween (h : TraceStep s u) (hu : u.pos.asleep = false) (k : RecordsBetween u t) :
    TraceStep s t := by
  obtain ⟨new, hn, hnew⟩ := h.grew
  obtain ⟨hf, more, hm, hx⟩ := trace_between k
  refine ⟨fun _ => hf.trans (h.idle hu), new ++ more, by rw [hm, hn, List.append_assoc], ?_⟩
  simpa using hnew.around (ps := []) (by simp) hx

/-! ## The pending frame -/

/-- What a read frame sends is the encoding of a READ, with its continuation if that is taken (R93, R101). -/
theorem encode_readBytes (p : Params) (a b : Byte) (cont : Bool) :
    ∃ k : Instr, (k = .read a b ∨ k = .readCont a b) ∧ encode p.catalog k = .wire (readBytes p a b cont) := by
  cases cont with
  | false => exact ⟨.read a b, .inl rfl, by simp [encode, readBytes]⟩
  | true => exact ⟨.readCont a b, .inr rfl, by simp [encode, readBytes]⟩

/-- The two READs are wire frames, well formed alike (R102). -/
theorem read_wf {a b : Byte} {k : Instr} (hk : k = .read a b ∨ k = .readCont a b) :
    k.isWire = true ∧ k.wf = (actuatorAOk a && actuatorBOk b) := by
  rcases hk with rfl | rfl <;> exact ⟨rfl, rfl⟩

/-- What a wire frame sends is the encoding of it, or for a read frame of one of the two READs. -/
theorem encode_sentBytes (p : Params) {i : Instr} (hi : i.isWire = true) (hwf : i.wf = true) (cont : Bool) :
    ∃ k : Instr, (k = i ∨ ∃ a b, (k = .read a b ∨ k = .readCont a b) ∧ (i = .read a b ∨ i = .readCont a b)) ∧
      k.isWire = true ∧ k.wf = true ∧ encode p.catalog k = .wire (sentBytes p i cont) := by
  cases i with
  | read a b =>
    obtain ⟨k, hk, he⟩ := encode_readBytes p a b cont
    exact ⟨k, .inr ⟨a, b, hk, .inl rfl⟩, (read_wf hk).1, (read_wf hk).2.trans hwf, he⟩
  | readCont a b =>
    obtain ⟨k, hk, he⟩ := encode_readBytes p a b cont
    exact ⟨k, .inr ⟨a, b, hk, .inr rfl⟩, (read_wf hk).1, (read_wf hk).2.trans hwf, he⟩
  | enterConfig | queryType | setMode | enableVibration | enablePressure | exitConfig =>
    exact ⟨_, .inl rfl, rfl, rfl, rfl⟩
  | _ => simp [Instr.isWire] at hi

variable {i : Instr}

/-- The events of a whole frame, in time order: they fold to its one entry, between entries of no frame. -/
theorem Runs.entries (k : Runs i s u) (hf : s.pos.frame = some i) (hi : i.isWire = true) (hwf : i.wf = true) :
    ∃ es, u.history = es.reverse ++ s.history ∧ es.foldl FoldState.next .idle = .idle ∧
      NewEntries s (foldTrace .idle es) := by
  obtain ⟨rs, cont, v, pre, tail, hlen, -, -, -, hh, htail, hpre⟩ := k
  obtain ⟨hpn, hpx⟩ := foldTrace_between (es := pre.reverse) (f := .idle)
    (by rcases hpre with rfl | ⟨c, rfl⟩ <;> simp [Event.isBetween])
  obtain ⟨htn, htx⟩ := foldTrace_between (es := tail.reverse) (f := .idle)
    (by rcases htail with rfl | ⟨n, rfl⟩ <;> simp [Event.isBetween])
  obtain ⟨hfx, hfn⟩ := frameEventsFold s.params ((sentBytes s.params i cont).zip rs) v
  rw [List.map_fst_zip hlen.ge, List.map_snd_zip hlen.le] at hfx
  refine ⟨pre.reverse ++ frameEvents s.params ((sentBytes s.params i cont).zip rs) v ++ tail.reverse,
    by simp [hh], by simp [hpn, hfn, htn], ?_⟩
  obtain ⟨j, hj, hjw, hjf, hje⟩ := encode_sentBytes s.params hi hwf cont
  have hentry : NewEntries s [.frame (sentBytes s.params i cont) rs, .clock v] := by
    refine ⟨fun out reply hm => ?_, le_rfl⟩
    obtain ⟨rfl, rfl⟩ : out = sentBytes s.params i cont ∧ reply = rs := by simpa using hm
    exact ⟨hlen, j, i, hf, hj, hjw, hjf, hje⟩
  rw [foldTrace_append, foldTrace_append, List.foldl_append, hpn, hfn, hfx]
  exact hentry.around hpx htx

theorem Runs.traceStep (k : Runs i s u) (hf : s.pos.frame = some i) (hi : i.isWire = true) (hwf : i.wf = true)
    (hidle : s.folded = .idle) : TraceStep s u := by
  obtain ⟨es, hh, hn, hnew⟩ := k.entries hf hi hwf
  obtain ⟨ht, hu⟩ := trace_extend hh
  rw [hidle] at ht hu
  exact ⟨fun _ => hu.trans hn, _, ht, hnew⟩

/-- A frame stopped in a sleep has recorded the front of a whole frame's events, so its entries are the front of that
frame's (R290). -/
theorem Stops.traceStep (k : Stops i s t) (hf : s.pos.frame = some i) (hi : i.isWire = true) (hwf : i.wf = true)
    (hidle : s.folded = .idle) : TraceStep s t := by
  refine ⟨fun ha => absurd (k.stopped.asleep.symm.trans ha) (by simp), ?_⟩
  obtain ⟨es, hes, -⟩ := k.events
  obtain ⟨u, fs, -, hrun, hu⟩ := k.whole
  obtain ⟨gs, hgs, -, hnew⟩ := hrun.entries (s := s.freed) hf hi hwf
  have hsplit : gs = es ++ fs.reverse := by
    have h : gs.reverse ++ s.history = fs ++ (es.reverse ++ s.history) := by rw [← hes, ← hu, hgs]; rfl
    rw [← List.append_assoc] at h
    simpa using congrArg List.reverse (List.append_cancel_right h)
  rw [hsplit, foldTrace_append] at hnew
  obtain ⟨ht, -⟩ := trace_extend hes
  rw [hidle] at ht
  exact ⟨_, ht, hnew.left.frames, hnew.left.one⟩

theorem Waits.records (k : Waits i s t) : RecordsBetween s t := by
  obtain ⟨env, a, es, rfl, -, hes⟩ := k
  refine ⟨es, rfl, ?_⟩
  rcases hes with rfl | ⟨v, rfl⟩ <;> simp [Event.isBetween]

/-- A step of the pending frame: its own entry, and what follows it adds no frame's. -/
theorem frame_step_trace (hf : s.pos.frame = some i) (hi : i.isWire = true) (hwf : i.wf = true)
    (hidle : s.folded = .idle) (h : (Runs i s u ∧ u.pos.asleep = false) ∨ Stops i s u ∨ Waits i s u) :
    TraceStep s (afterFrame u) := by
  rcases h with ⟨k, ha⟩ | k | k
  · exact (k.traceStep hf hi hwf hidle).andBetween ha (afterFrame_between u).history
  · have hu : u.pos.frame ≠ none := by
      obtain ⟨fp, byi, bi, sh, dc, a, hp⟩ := k.stopped.pos
      simp [hp]
    rw [afterFrame_of_frame hu]
    exact k.traceStep hf hi hwf hidle
  · have hu : u.pos.frame ≠ none := by
      obtain ⟨env, a, es, rfl, -⟩ := k
      simp
    rw [afterFrame_of_frame hu]
    exact .of_between k.records fun _ => hidle

end

/-! ## Every step -/

theorem step_trace {s t : State} (hfr : s.frameOk) (hl : s.pos.asleep = false → s.linesIdle ∧ s.folded = .idle)
    (h : step s = .next t) : TraceStep s t := by
  obtain ⟨-, hcases⟩ := step_cases h
  rcases hcases with ⟨r, rfl⟩ | ⟨-, -, w, i, u, hu, hd, he⟩ | ⟨hok, -, hw, i, u, hf, he, rfl⟩ | ⟨hctl, rfl⟩ | rfl
  · exact .of_between ⟨[], rfl, by simp⟩ fun ha => (hl ha).2
  · obtain ⟨hb, ha⟩ := host_step_between hu (decodeHost_isWire hd) he
    exact .of_between hb.history fun ht => (hl (ha ▸ ht)).2
  · obtain ⟨hlines, hidle⟩ := hl hw
    obtain ⟨hi, hwf⟩ := hfr.1 i hf
    exact frame_step_trace hf hi hwf hidle (pending_frame_cases hfr hf hok hlines hw he)
  · obtain ⟨-, -, -, -, -, hw⟩ := hctl
    exact .of_between (sequencer_between s).history fun _ => (hl hw).2
  · exact .of_between (Between.refl _).history fun ha => (hl ha).2

/-- Settles O32: the only frame entry of a step is the pending frame's, and only a sleep leaves it half traced. -/
theorem traceGrowsByCatalogFrames : Obligations.TraceGrowsByCatalogFrames := by
  intro s t hfr hl h
  obtain ⟨hidle, new, ht, hnew⟩ := step_trace hfr hl h
  refine ⟨hidle, new, ht, hnew.frames, ?_⟩
  rw [← List.countP_eq_length_filter]
  refine (List.countP_congr fun x _ => ?_).trans_le hnew.one
  cases x <;> exact Iff.rfl

end Sys2Proof.Machine
end

section
/-! PROOF. A word laid by withFetchWord runs next: what each host word selects of R111's table, the default catalog's
frames decoded, and the table's numbering of their bits. -/

namespace Sys2Proof.Machine

/-! ## Host words -/

/-- The operation code, bits 3:0 (R110). -/
def opcodeOf (w : HostWord) : BitVec 4 := w.extractLsb' 0 4

/-- A word that selects a row has the row's code. -/
theorem opcodeOf_of_selects {r : HostRow} (hr : r ∈ hostRows) {w : HostWord} (h : r.selects w = true) :
    opcodeOf w = opcodeOf r.pattern := by
  have hmasks : (hostRows.map fun r => opcodeOf r.mask) = List.replicate 9 (BitVec.allOnes 4) := rfl
  have hmask : opcodeOf r.mask = BitVec.allOnes 4 :=
    List.eq_of_mem_replicate (hmasks ▸ List.mem_map_of_mem hr)
  have hand : w &&& r.mask = r.pattern := by simpa [HostRow.selects] using h
  have hop : opcodeOf (w &&& r.mask) = opcodeOf w &&& opcodeOf r.mask := BitVec.extractLsb'_and
  rw [← hand, hop, hmask, BitVec.and_allOnes]

/-- The codes tell the rows apart, so a word decodes as the row that it selects (R111). -/
theorem decodeHost_of_selects {r : HostRow} (hr : r ∈ hostRows) {w : HostWord} (h : r.selects w = true) :
    decodeHost w = .ok (r.build w) := by
  have hcodes : (hostRows.map fun r => opcodeOf r.pattern).Nodup := by decide
  unfold decodeHost
  cases hf : hostRows.find? (fun r => r.selects w) with
  | none => exact absurd h (List.find?_eq_none.1 hf r hr)
  | some r' =>
    have hr' := List.mem_of_find?_eq_some hf
    have hsame : opcodeOf r'.pattern = opcodeOf r.pattern :=
      (opcodeOf_of_selects hr' (by simpa using List.find?_some hf)).symm.trans (opcodeOf_of_selects hr h)
    rw [List.inj_on_of_nodup_map hcodes hr' hr hsame]

/-- The word of the row at index k, decoded. -/
theorem decodeHost_row (k : Fin 9) {w : HostWord} {i : Instr}
    (h : w &&& (hostRows.get k).mask = (hostRows.get k).pattern) (hb : (hostRows.get k).build w = i) :
    decodeHost w = .ok i := by
  rw [decodeHost_of_selects (List.get_mem hostRows k) (by simpa [HostRow.selects] using h), hb]

/-- The code of a word with a mask operand (R111). -/
theorem hostMask_and (m : ButtonWord) (opc : BitVec 16) : hostMask m opc &&& 0x0000FFFF = 0#16 ++ opc := by
  have hand : (m ++ opc) &&& (0#16 ++ BitVec.allOnes 16) = 0#16 ++ opc := by
    rw [BitVec.and_append, BitVec.and_zero, BitVec.and_allOnes]
  exact hand

theorem fieldM_hostMask (m : ButtonWord) (opc : BitVec 16) : fieldM (hostMask m opc) = m :=
  BitVec.extractLsb'_append_eq_left

/-- Bit 4 and bits 15:8 of a word whose operands are in its low half (R110). -/
theorem fieldP_hostLow (high : BitVec 8) (v p : Bool) (opc : BitVec 4) : fieldP (hostLow high v p opc) = p := by
  have hbit : (0#16 ++ (high ++ (0#2 ++ (BitVec.ofBool v ++ (BitVec.ofBool p ++ opc))))).getLsbD 4 = p := by
    simp only [BitVec.getLsbD_append]
    cases p <;> rfl
  exact hbit

theorem fieldB_hostLow (high : BitVec 8) (v p : Bool) (opc : BitVec 4) : fieldB (hostLow high v p opc) = high := by
  have hbits : ∀ low : BitVec 8, (0#16 ++ (high ++ low)).extractLsb' 8 8 = high := by
    intro low
    ext j hj
    rw [BitVec.getElem_extractLsb', BitVec.getLsbD_append, if_pos (by omega), BitVec.getLsbD_append,
      if_neg (by omega), Nat.add_sub_cancel_left, BitVec.getLsbD_eq_getElem hj]
  exact hbits _

theorem decodeHost_poll (a : Bool) (b : Byte) : decodeHost (hostWord (.poll a b)) = .ok (.poll a b) := by
  refine decodeHost_row 1 ?_ (congrArg₂ _ (fieldP_hostLow b false a 0x1) (fieldB_hostLow b false a 0x1))
  have hand : (0#16 ++ b ++ (0#3 ++ BitVec.ofBool a ++ 0x1#4)) &&& (0xFFFF#16 ++ 0#8 ++ 0xEF#8) = 0x00000001 := by
    rw [BitVec.and_append, BitVec.and_append, BitVec.and_zero]
    cases a <;> rfl
  rw [hostWord_poll]
  exact hand

/-- The word of every host operation decodes to it. -/
theorem decodeHost_hostWord {i : Instr} (hi : i.isWire = false) : decodeHost (hostWord i) = .ok i := by
  cases i with
  | init p v => cases p <;> cases v <;> rfl
  | poll a b => exact decodeHost_poll a b
  | isPressed m => exact decodeHost_row 2 (hostMask_and m 0x2) (congrArg _ (fieldM_hostMask m 0x2))
  | wasPressed m => exact decodeHost_row 3 (hostMask_and m 0x3) (congrArg _ (fieldM_hostMask m 0x3))
  | wasReleased m => exact decodeHost_row 4 (hostMask_and m 0x4) (congrArg _ (fieldM_hostMask m 0x4))
  | wasToggled m => exact decodeHost_row 5 (hostMask_and m 0x5) (congrArg _ (fieldM_hostMask m 0x5))
  | anyToggled => rfl
  | analog k => clear hi; revert k; decide
  | readType => rfl
  | _ => cases hi

/-! ## Wire frames -/

/-- The default catalog's frames, decoded: no two rows have the same bytes, and each is longer than a host word (R96,
R97). -/
theorem decodeWire_encode {i : Instr} {bytes : List Byte} (h : encode defaultCatalog i = .wire bytes) :
    decodeWire defaultCatalog bytes = .ok i ∧ 4 < bytes.length := by
  cases i with
  | enterConfig | queryType | setMode | enableVibration | enablePressure | exitConfig =>
    cases h
    decide
  | read a b =>
    cases h
    exact ⟨by simp [decodeWire, readRequest, defaultCatalog, readByte, List.range, List.range.loop],
      by simp [readRequest, defaultCatalog]⟩
  | readCont a b =>
    cases h
    exact ⟨by simp [decodeWire, readRequest, defaultCatalog, readByte, List.range, List.range.loop, contRequest],
      by simp [readRequest, contRequest, defaultCatalog]⟩
  | _ => cases h

/-! ## The table's numbering of bits -/

theorem littleBytes_foldr (bytes : List Byte) :
    littleBytes bytes.length (bytes.foldr (fun b n => b.toNat + 256 * n) 0) = bytes := by
  induction bytes with
  | nil => rfl
  | cons b bytes ih =>
    simp only [List.length_cons, List.foldr_cons, littleBytes]
    have hlt := b.isLt
    have hdiv : (b.toNat + 256 * bytes.foldr (fun b n => b.toNat + 256 * n) 0) / 256 =
        bytes.foldr (fun b n => b.toNat + 256 * n) 0 := by omega
    have hlow : BitVec.ofNat 8 (b.toNat + 256 * bytes.foldr (fun b n => b.toNat + 256 * n) 0) = b := by
      apply BitVec.eq_of_toNat_eq
      rw [BitVec.toNat_ofNat]
      omega
    rw [hdiv, hlow, ih]

theorem tableCode_host (w : HostWord) : tableCode 32 w.toNat = .host w := by
  simp [tableCode]

theorem tableCode_wire {bytes : List Byte} (h : 4 < bytes.length) :
    tableCode (8 * bytes.length) (bytes.foldr (fun b n => b.toNat + 256 * n) 0) = .wire bytes := by
  have h1 : (8 * bytes.length + 7) / 8 = bytes.length := by omega
  rw [tableCode, if_neg (by omega), h1, littleBytes_foldr]

/-- A step at a frame runs it, and the sequencer after it. -/
theorem step_frame {i : Instr} {s : State} (h : s.atFrame i) : step s = thenSequence (exec i s) := by
  rw [step, fetch_frame h]

/-- Settles O5: the word laid decodes to its instruction, and fetch finds it there. -/
theorem loadedWordRunsNext : Obligations.LoadedWordRunsNext := by
  obtain ⟨hrequest, -⟩ := stepRunsFetchedInstruction
  refine ⟨fun s i hr hok hb hi => ?_, fun s i bytes hr hok hc he => ?_⟩
  · rw [State.withFetchWord, tableCode_host]
    exact hrequest (loadCode (.host (hostWord i)) s) _ i hr hok rfl hb (decodeHost_hostWord hi)
  · obtain ⟨hd, hlen⟩ := decodeWire_encode he
    rw [State.withFetchWord, tableCode_wire hlen, loadCode, hc, hd]
    exact step_frame ⟨hr, hok, rfl, rfl, rfl⟩

end Sys2Proof.Machine
end

section
/-! PROOF. The two waits of BEGIN_FRAME: for the quiet time, and for the SPI bus. -/

namespace Sys2Proof.Machine

/-- A clock sample less than T_PACKET_MS after the last release leaves the quiet time unpassed (R135). -/
theorem quietTime_early {s : State} (ha : s.pos.acquiring = false)
    (h : ((s.nowMs.1 : Int) - s.regs.lastRelease) % 2 ^ s.params.clockBits < s.params.tPacketMs) :
    (quietTime s).1 = false := by
  rw [← elapsedSince_int, Int.ofNat_lt] at h
  simp [quietTime, ha, h]

/-- SPI_BEGIN in the HWSPI option goes on exactly if the bus is granted (R82, R135). -/
theorem acquireBus_hwspi {s : State} (ht : s.params.transport = .hwspi) : (acquireBus s).1 = s.spiGrant.1 := by
  simp [acquireBus, ht]

/-- Settles O26: every wire frame is one runFrame, which waits before it opens the frame. -/
theorem frameWaitsForTheEnvironment : Obligations.FrameWaitsForTheEnvironment := by
  refine ⟨fun s i hi hok ha hearly => ?_, fun s i hi hok ht hquiet hgrant => ?_⟩
  · obtain ⟨exchange, after, k⟩ := frame_shape (s := s) hi hok
    exact (runFrame_waits (quietTime_early ha hearly)).imp fun _ hwait => k.runs.trans (congrArg _ hwait)
  · obtain ⟨exchange, after, k⟩ := frame_shape (s := s) hi hok
    have hparams : (quietTime s).2.params = s.params := by
      obtain ⟨env, -, -, hq⟩ := quietTime_eq s
      rw [hq]
    have hbus : (acquireBus (quietTime s).2).1 = false := by
      rw [acquireBus_hwspi (hparams ▸ ht), hgrant]
    exact (runFrame_blocked hquiet hbus).imp fun _ hwait => k.runs.trans (congrArg _ hwait)

end Sys2Proof.Machine
end

section
/-! PROOF. One byte exchange against the answers laid down for it, bit by bit or whole: both transport options return
the same reply byte. -/

namespace Sys2Proof.Machine

/-! ## GPIO: the reply bit by bit on DAT (R130) -/

/-- What a GPIO byte exchange hears: the DAT levels still laid down, and the reply byte so far. -/
def State.heard (s : State) : List Bool × Byte := (s.env.datIn, s.pos.shiftIn)

/-- A part that changes nothing of what is heard changes nothing of it where a sleep cuts it off, too. -/
theorem heard_awake {f : State → State} (h : ∀ t, (f t).heard = t.heard) (s : State) :
    (s.awake f).heard = s.heard := by
  unfold State.awake
  split
  · rfl
  · exact h s

/-- The second half of a bit period samples the next level laid down, into bit j. -/
theorem bitRise_heard {s : State} {b : Bool} {rest : List Bool} (hd : s.env.datIn = b :: rest) :
    (bitRise s).heard = (rest, setBit s.pos.shiftIn s.pos.bitIdx b) := by
  simp [State.heard, bitRise, State.sampleDat, hd]

/-- So does the whole bit period, its first sleep ended. -/
theorem bitPeriod_heard (o : Byte) {s : State} (hn : s.sleepsEnd) {b : Bool} {rest : List Bool}
    (hd : s.env.datIn = b :: rest) :
    (bitPeriod o s).heard = (rest, setBit s.pos.shiftIn s.pos.bitIdx b) := by
  rw [bitPeriod, heard_awake (f := nextBit) (fun _ => rfl), State.sleepUs,
    State.sleep_awake (s := (s.pin .cmd (o.getLsbD s.pos.bitIdx.val)).pin .clk false) hn]
  exact bitRise_heard hd

/-- n bit periods take the first n levels, into bits 0 to n-1. -/
theorem bitPeriods_heard (o r : Byte) {s : State} (hn : s.sleepsEnd) (hs : s.pos.bitIdx = 0)
    (hclk : s.bus.clk = true) {n : Nat} (h8 : n ≤ 8) {rest : List Bool}
    (hd : s.env.datIn = (List.range n).map r.getLsbD ++ rest) :
    ∃ sh, ((State.awake (bitPeriod o))^[n] s).heard = (rest, sh) ∧ ∀ j < n, sh.getLsbD j = r.getLsbD j := by
  induction n generalizing rest with
  | zero => exact ⟨s.pos.shiftIn, congrArg (·, s.pos.shiftIn) hd, fun j hj => absurd hj j.not_lt_zero⟩
  | succ n ih =>
    obtain ⟨sh, hheard, hbits⟩ := ih (by omega) (rest := r.getLsbD n :: rest) (by simpa [List.range_succ] using hd)
    obtain ⟨env, _, c, hl, hstate⟩ := bitPeriods_eq o s hn hs hclk n (by omega)
    rw [Function.iterate_succ_apply']
    generalize (State.awake (bitPeriod o))^[n] s = u at hheard hstate ⊢
    obtain ⟨hdat, rfl⟩ := Prod.mk.inj hheard
    have hu : u.sleepsEnd := by rw [hstate]; exact ⟨hn.1, hl⟩
    have hidx : u.pos.bitIdx.val = n := by rw [hstate]; exact Nat.mod_eq_of_lt (by omega)
    refine ⟨setBit u.pos.shiftIn u.pos.bitIdx (r.getLsbD n), ?_, fun j hj => ?_⟩
    · rw [State.awake_of hu.1, bitPeriod_heard o hu hdat]
    · rw [setBit_getLsbD, hidx]
      split
      · next h => rw [h]
      · next h => exact hbits j (by omega)

/-- A GPIO byte exchange returns the byte whose bits DAT answers, least significant first (R72, R130). -/
theorem xfer_gpio_laid (o r : Byte) {s : State} (ht : s.params.transport = .gpio) (hn : s.sleepsEnd)
    (hclk : s.bus.clk = true) {bits : List Bool} (hd : s.env.datIn = (List.range 8).map r.getLsbD ++ bits) :
    (xfer o s).1 = r ∧ (xfer o s).2.env.datIn = bits := by
  obtain ⟨sh, hheard, hbits⟩ :=
    bitPeriods_heard o r (s := { s with pos.shiftIn := 0x00, pos.bitIdx := 0 }) hn rfl hclk le_rfl hd
  have hsh : sh = r := BitVec.eq_of_getLsbD_eq hbits
  have hend : (xfer o s).2.heard = (bits, r) := by
    rw [xfer, ht, ← hsh, ← hheard]
    exact heard_awake (f := fun t => (t.pin .cmd true).sleepUs t.params.tByteUs) (fun _ => rfl) _
  have hreply : (xfer o s).1 = (xfer o s).2.pos.shiftIn := by
    rw [xfer, ht]
    rfl
  obtain ⟨hdat, hshift⟩ := Prod.mk.inj hend
  exact ⟨hreply.trans hshift, hdat⟩

/-! ## HWSPI: the reply whole (R132) -/

/-- An HWSPI byte exchange returns the byte laid down, with the events of one exchange. -/
theorem xfer_hwspi_laid (o r : Byte) {s : State} (ht : s.params.transport = .hwspi) {bytes : List Byte}
    (hd : s.env.spiIn = r :: bytes) :
    (xfer o s).1 = r ∧ (xfer o s).2.env.spiIn = bytes ∧
      (xfer o s).2.history = (byteEvents s.params (o, r)).reverse ++ s.history := by
  simp [xfer, ht, xferHwspi, State.spiExchange, hd, byteEvents]

/-- Settles O30: in both options the exchange's events fold to the one byte exchanged. -/
theorem transportsEquivalent : Obligations.TransportsEquivalent := by
  intro o r s t bits bytes hgpio hs hclk hcmd hdat hhwspi _ hspi
  obtain ⟨hreply, hbits⟩ := xfer_gpio_laid o r hgpio hs hclk hdat
  obtain ⟨env, sh, bi, -, hgpioState⟩ := xfer_eq o s hs hclk hcmd
  obtain ⟨hreply', hbytes, hhistory⟩ := xfer_hwspi_laid o r hhwspi hspi
  refine ⟨byteEvents s.params (o, r), byteEvents t.params (o, r), hreply, hreply', hbits, hbytes, ?_, hhistory,
    (folds_byte s.params (o, r) [] []).2, (folds_byte t.params (o, r) [] []).2⟩
  rw [hgpioState, hreply]

end Sys2Proof.Machine
end

section
/-! PROOF. The decoder operations, each one answer computed from the parameters and the registers. -/

namespace Sys2Proof.Machine

/-- The result word of an admitted decoder operation, or none where RB has no byte of ANALOG's index (R242 to R252,
R279). -/
def decoderResult (s : State) : Instr → Option HostWord
  | .isPressed m => some (boolResult (s.isPressed m))
  | .wasPressed m => some (boolResult (s.wasPressed m))
  | .wasReleased m => some (boolResult (s.wasReleased m))
  | .wasToggled m => some (boolResult (s.wasToggled m))
  | .anyToggled => some (boolResult s.anyToggled)
  | .analog k => if s.params.rbLen ≤ k.toNat then none else some (byteResult (s.rbRead k.toNat))
  | .readType => some (typeCode (peripheralType s.params.typeMap s.regs.controllerType s.modeByte))
  | .init _ _ => none
  | .poll _ _ => none
  | .enterConfig => none
  | .queryType => none
  | .setMode => none
  | .enableVibration => none
  | .enablePressure => none
  | .exitConfig => none
  | .read _ _ => none
  | .readCont _ _ => none

/-- An admitted decoder operation answers that word in one step, and is refused where there is none (R241, R279). -/
theorem exec_decoder {i : Instr} {s : State} (hi : i.needsSession = true) (hp : ∀ a b, i ≠ .poll a b)
    (h : s.admits true) :
    exec i s = .next ((decoderResult s i).elim (s.refuse .rbIndex) (s.answered (hostWord i))) := by
  cases i with
  | isPressed | wasPressed | wasReleased | wasToggled | anyToggled | readType =>
    exact congrArg _ (admission_of_admits h _)
  | analog k =>
    rw [exec, execAnalog, admission_of_admits h, decoderResult]
    split <;> rfl
  | poll a b => exact absurd rfl (hp a b)
  | _ => cases hi

/-- An answer changes nothing that a result is computed from (R37, R76). -/
theorem decoderResult_answered (w r : HostWord) (s : State) (i : Instr) :
    decoderResult (s.answered w r) i = decoderResult s i := by
  cases i <;> rfl

/-- Settles O21: the first operation leaves the port idle and writes no register, so the second finds the same. -/
theorem queriesAreIdempotent : Obligations.QueriesAreIdempotent := by
  intro i s t u hi hp ha _ ht hr hu
  rw [exec_decoder hi hp ha] at ht
  injection ht with ht
  cases hd : decoderResult s i with
  | none => simp [← ht, hd] at hr
  | some r =>
    obtain rfl : s.answered (hostWord i) r = t := by rw [← ht, hd, Option.elim_some]
    obtain ⟨hok, -, hsession⟩ := ha
    have hidle : (s.answered (hostWord i) r).admits true := ⟨hok, rfl, hsession⟩
    rw [exec_decoder hi hp hidle, decoderResult_answered, hd] at hu
    injection hu with hu
    subst hu
    exact ⟨rfl, rfl⟩

end Sys2Proof.Machine
end

section
/-! PROOF. The two encoded spaces: the row of R111 that a word selects, a word put together from its fields, and the
round trips of decoder and encoder. -/

namespace Sys2Proof.Machine

/-! ## The row that a word selects (R111) -/

theorem HostRow.selects_iff {r : HostRow} {w : HostWord} : r.selects w = true ↔ w &&& r.mask = r.pattern := by
  simp [HostRow.selects]

/-- A word that decodes selects a row, which is what it decodes as. -/
theorem selects_of_decodeHost {w : HostWord} {i : Instr} (h : decodeHost w = .ok i) :
    ∃ r ∈ hostRows, r.selects w = true ∧ r.build w = i := by
  unfold decodeHost at h
  split at h
  · next r hf =>
    injection h with h
    exact ⟨r, List.mem_of_find?_eq_some hf, by simpa using List.find?_some hf, h⟩
  · cases h

/-- A word is reserved exactly if it selects no row (R112). -/
theorem decodeHost_reserved_iff {w : HostWord} :
    decodeHost w = .error .reservedEncoding ↔ ∀ r ∈ hostRows, ¬ r.selects w = true := by
  refine ⟨fun h r hr hs => ?_, fun h => ?_⟩
  · rw [decodeHost_of_selects hr hs] at h
    cases h
  · rw [decodeHost, List.find?_eq_none.2 h]

/-- Where a row's mask is all ones, a word that selects the row has the row's bits. -/
theorem extractLsb'_of_selects {r : HostRow} {w : HostWord} (h : r.selects w = true) {start len : Nat}
    (hm : r.mask.extractLsb' start len = BitVec.allOnes len) :
    w.extractLsb' start len = r.pattern.extractLsb' start len := by
  rw [← HostRow.selects_iff.1 h, BitVec.extractLsb'_and, hm, BitVec.and_allOnes]

/-- Settles O59: the rows' codes differ, and a word that selects a row has the row's code. -/
theorem hostRowsDisjoint : Obligations.HostRowsDisjoint := by
  have hcodes : hostRows.Pairwise (fun r q => opcodeOf r.pattern ≠ opcodeOf q.pattern) :=
    List.pairwise_map.1 (by decide : (hostRows.map fun r => opcodeOf r.pattern).Nodup)
  refine ⟨rfl, fun r hr w h => decodeHost_of_selects hr (HostRow.selects_iff.2 h), ?_⟩
  refine hcodes.imp_of_mem fun {r q} hr hq hne w ⟨hwr, hwq⟩ => hne ?_
  exact (opcodeOf_of_selects hr (HostRow.selects_iff.2 hwr)).symm.trans
    (opcodeOf_of_selects hq (HostRow.selects_iff.2 hwq))

/-! ## A word from its fields (R110) -/

/-- A word whose operand is a mask. -/
theorem hostMask_of_fields {w : HostWord} {opc : BitVec 16} (ho : w.extractLsb' 0 16 = opc) :
    hostMask (fieldM w) opc = w := by
  subst ho
  exact (BitVec.extractLsb'_append_extractLsb'_eq_extractLsb' rfl).trans BitVec.extractLsb'_eq_self

/-- A bit of a word is its field of one bit. -/
theorem ofBool_getLsbD (w : HostWord) (j : Nat) : BitVec.ofBool (w.getLsbD j) = w.extractLsb' j 1 := by
  ext k hk
  obtain rfl : k = 0 := by omega
  simp

/-- A word with nothing outside the operands of INIT, POLL and ANALOG. -/
theorem hostLow_of_fields {w : HostWord} {high : Byte} {v p : Bool} {opc : BitVec 4} (hm : fieldM w = 0)
    (hb : fieldB w = high) (hr : w.extractLsb' 6 2 = 0) (hv : fieldV w = v) (hp : fieldP w = p)
    (ho : opcodeOf w = opc) : hostLow high v p opc = w := by
  subst hb hv hp ho
  have h5 : w.extractLsb' 4 1 ++ w.extractLsb' 0 4 = w.extractLsb' 0 5 :=
    BitVec.extractLsb'_append_extractLsb'_eq_extractLsb' rfl
  have h6 : w.extractLsb' 5 1 ++ w.extractLsb' 0 5 = w.extractLsb' 0 6 :=
    BitVec.extractLsb'_append_extractLsb'_eq_extractLsb' rfl
  have h8 : w.extractLsb' 6 2 ++ w.extractLsb' 0 6 = w.extractLsb' 0 8 :=
    BitVec.extractLsb'_append_extractLsb'_eq_extractLsb' rfl
  have h16 : w.extractLsb' 8 8 ++ w.extractLsb' 0 8 = w.extractLsb' 0 16 :=
    BitVec.extractLsb'_append_extractLsb'_eq_extractLsb' rfl
  rw [← ofBool_getLsbD] at h5 h6
  have hw := hostMask_of_fields (w := w) rfl
  rw [hm, ← h16, ← h8, hr, ← h6, ← h5] at hw
  exact hw

/-- K is the low part of the field that holds B (R110). -/
theorem fieldB_of_fieldK {w : HostWord} (h : w.extractLsb' 13 3 = 0) : fieldB w = 0#3 ++ fieldK w := by
  have hb : w.extractLsb' 13 3 ++ fieldK w = fieldB w :=
    BitVec.extractLsb'_append_extractLsb'_eq_extractLsb' rfl
  rw [← hb, h]
  rfl

/-- A bit that is no operand. -/
theorem getLsbD_eq_false {w : HostWord} {j : Nat} (h : w.extractLsb' j 1 = 0) : w.getLsbD j = false := by
  rw [← ofBool_getLsbD] at h
  exact BitVec.ofBool_eq_iff_eq.1 h

/-- The operation of a row, encoded, is the word that selected the row. -/
theorem encode_build (k : Fin 9) {w : HostWord} (h : (hostRows.get k).selects w = true) :
    encode defaultCatalog ((hostRows.get k).build w) = .host w := by
  have bits : ∀ {start len : Nat}, (hostRows.get k).mask.extractLsb' start len = BitVec.allOnes len →
      w.extractLsb' start len = (hostRows.get k).pattern.extractLsb' start len := extractLsb'_of_selects h
  match k with
  | 0 => exact congrArg Code.host (hostLow_of_fields (bits rfl) (bits rfl) (bits rfl) rfl rfl (bits rfl))
  | 1 =>
    exact congrArg Code.host
      (hostLow_of_fields (bits rfl) rfl (bits rfl) (getLsbD_eq_false (bits rfl)) rfl (bits rfl))
  | 2 | 3 | 4 | 5 => exact congrArg Code.host (hostMask_of_fields (bits rfl))
  | 7 =>
    exact congrArg Code.host (hostLow_of_fields (bits rfl) (fieldB_of_fieldK (bits rfl)) (bits rfl)
      (getLsbD_eq_false (bits rfl)) (getLsbD_eq_false (bits rfl)) (bits rfl))
  | 6 | 8 => exact congrArg Code.host ((bits rfl).symm.trans BitVec.extractLsb'_eq_self)

/-! ## The round trips -/

/-- A host operation is encoded as its word (R110). -/
theorem encode_hostWord {i : Instr} {w : HostWord} (h : encode defaultCatalog i = .host w) :
    i.isWire = false ∧ hostWord i = w := by
  refine ⟨?_, by rw [hostWord, h]⟩
  cases i with
  | enterConfig | queryType | setMode | enableVibration | enablePressure | exitConfig | read | readCont => cases h
  | _ => rfl

/-- Settles O57, in each of the two spaces. -/
theorem decodeEncodeRoundTrip : Obligations.DecodeEncodeRoundTrip := by
  intro i
  cases h : encode defaultCatalog i with
  | host w =>
    obtain ⟨hi, rfl⟩ := encode_hostWord h
    exact decodeHost_hostWord hi
  | wire bytes => exact (decodeWire_encode h).1

/-- A recorded request that decodes is the request of what it decodes to, in any catalog (R99). -/
theorem encode_of_decodeWire {c : Catalog} {bytes : List Byte} {i : Instr} (h : decodeWire c bytes = .ok i) :
    encode c i = .wire bytes := by
  unfold decodeWire at h
  dsimp only at h
  split_ifs at h
  all_goals
    injection h with h
    subst h
    exact congrArg Code.wire (Eq.symm ‹_›)

/-- Settles O58: in the host space by the fields of the row selected, in the wire space by the matching request. -/
theorem encodeDecodeRoundTrip : Obligations.EncodeDecodeRoundTrip := by
  intro c i h
  cases c with
  | host w =>
    obtain ⟨r, hr, hs, rfl⟩ := selects_of_decodeHost h
    obtain ⟨k, rfl⟩ := List.mem_iff_get.1 hr
    exact encode_build k hs
  | wire bytes => exact encode_of_decodeWire h

/-- Settles O22: each request is the catalog's list. -/
theorem catalogBytes : Obligations.CatalogBytes :=
  ⟨rfl, rfl, rfl, rfl, rfl, rfl, fun _ _ => rfl, fun _ _ => rfl⟩

/-- Settles O60, each word and line evaluated. -/
theorem specWordsDecode : Obligations.SpecWordsDecode := by
  unfold Obligations.SpecWordsDecode
  decide

end Sys2Proof.Machine
end

section
/-! PROOF. The reserved host words, by their code and their operation's fields, and the refusals that follow. -/

namespace Sys2Proof.Machine

/-- A row's pattern is its code alone, and its mask is the code and every bit outside the operation's fields. -/
theorem hostRows_shape : ∀ r ∈ hostRows, r.pattern = 0#28 ++ opcodeOf r.pattern ∧
    r.mask = 0x0000000F ||| ~~~ operationFields (opcodeOf r.pattern) ∧
      r.mask &&& ~~~ operationFields (opcodeOf r.pattern) = ~~~ operationFields (opcodeOf r.pattern) ∧
        r.pattern &&& ~~~ operationFields (opcodeOf r.pattern) = 0 := by decide

/-- The rows are those of the codes below 9. -/
theorem exists_row_iff (opc : BitVec 4) : (∃ r ∈ hostRows, opcodeOf r.pattern = opc) ↔ opc.toNat < 9 := by
  revert opc
  decide

theorem and_opcodeMask (w : HostWord) : w &&& 0x0000000F = 0#28 ++ opcodeOf w := by
  have hw : w.extractLsb' 4 28 ++ opcodeOf w = w :=
    (BitVec.extractLsb'_append_extractLsb'_eq_extractLsb' rfl).trans BitVec.extractLsb'_eq_self
  have hand : (w.extractLsb' 4 28 ++ opcodeOf w) &&& (0#28 ++ BitVec.allOnes 4) = 0#28 ++ opcodeOf w := by
    rw [BitVec.and_append, BitVec.and_zero, BitVec.and_allOnes]
  rw [hw] at hand
  exact hand

/-- A word selects a row exactly if it has the row's code and no bit set outside the operation's fields. -/
theorem selects_iff_fields {r : HostRow} (hr : r ∈ hostRows) (w : HostWord) : r.selects w = true ↔
    opcodeOf r.pattern = opcodeOf w ∧ w &&& ~~~ operationFields (opcodeOf w) = 0 := by
  obtain ⟨hcode, hmask, hin, hout⟩ := hostRows_shape r hr
  rw [HostRow.selects_iff]
  constructor
  · intro h
    have hop := opcodeOf_of_selects hr (HostRow.selects_iff.2 h)
    refine ⟨hop.symm, ?_⟩
    rw [hop, ← hin, ← BitVec.and_assoc, h, hout]
  · rintro ⟨hop, hw⟩
    have hzero : ∀ v : HostWord, v ||| 0 = v := fun _ => BitVec.or_zero
    rw [hmask, BitVec.and_or_distrib_left, hop, hw, hzero, and_opcodeMask, ← hop, ← hcode]

/-- The reserved words are those with a code of no row, or with a bit set outside the operation's fields (R112). -/
theorem decodeHost_reserved_iff_fields (w : HostWord) : decodeHost w = .error .reservedEncoding ↔
    9 ≤ (opcodeOf w).toNat ∨ w &&& ~~~ operationFields (opcodeOf w) ≠ 0 := by
  rw [← not_lt, ← exists_row_iff, ← not_and_or, decodeHost_reserved_iff]
  refine ⟨fun h ⟨⟨r, hr, hop⟩, hw⟩ => h r hr ((selects_iff_fields hr w).2 ⟨hop, hw⟩), fun h r hr hs => ?_⟩
  obtain ⟨hop, hw⟩ := (selects_iff_fields hr w).1 hs
  exact h ⟨⟨r, hr, hop⟩, hw⟩

/-- A reserved word at an idle port is refused before any instruction runs (R281). -/
theorem fetchHost_reserved {w : HostWord} {u s : State} (hb : s.port.busy = false)
    (hd : decodeHost w = .error .reservedEncoding) : fetchHost w u s = .refuse .reservedEncoding := by
  simp [fetchHost, hb, hd]

theorem hostWord_analog (k : BitVec 5) : hostWord (.analog k) = 0#16 ++ (0#3 ++ k) ++ 0x07#8 :=
  (BitVec.append_assoc (x₁ := 0#16) (x₂ := 0#3 ++ k)).symm

/-- Settles O8: fetch refuses a word that selects no row, and ANALOG an index that RB has not. -/
theorem reservedEncodingsRefused : Obligations.ReservedEncodingsRefused := by
  refine ⟨decodeHost_reserved_iff_fields, fun s w hr hok hq hb hd => ?_, fun s k hk hlen => ⟨?_, fun ha => ?_⟩⟩
  · rw [step, fetch_request hr hok hq, fetchHost_reserved hb hd]
    rfl
  · rw [← hostWord_analog]
    exact decodeHost_hostWord rfl
  · have hnone : decoderResult s (.analog k) = none := if_pos (hlen ▸ hk)
    rw [exec_decoder rfl (by simp) ha, hnone]
    rfl

end Sys2Proof.Machine
end

section
/-! PROOF. The two kinds of frame that keep a reply, the type query and the read frame, each run whole. -/

namespace Sys2Proof.Machine

section
variable {s : State}

theorem wireFrame_of_ok (hok : s.params.ok = true) (run : State → State) : wireFrame run s = run s := if_pos hok

theorem exec_queryType_of_ok (hok : s.params.ok = true) : exec .queryType s = .next (typeFrame .queryType s) :=
  congrArg _ (wireFrame_of_ok hok _)

/-- READ and READ+CONT run one frame (log entry 8). -/
theorem exec_read_of_ok (hok : s.params.ok = true) {i : Instr} {a b : Byte} (hi : i = .read a b ∨ i = .readCont a b) :
    exec i s = .next (readFrame i a b s) := by
  rcases hi with rfl | rfl
  · exact congrArg _ (wireFrame_of_ok hok _)
  · exact congrArg _ (wireFrame_of_ok hok _)

end

/-- Settles O24: TYPE_FRAME, whole. -/
theorem typeQueryStoresTypeCode : Obligations.TypeQueryStoresTypeCode := by
  intro s hok hr hn hl
  obtain ⟨rs, v, hlen, hv, hleaves, -, hregs, hh⟩ := typeFrame_done (i := .queryType) hn hr hl
  exact ⟨_, exec_queryType_of_ok hok, rs, v, hlen, hv, hleaves, hregs, hh⟩

/-- RB[1], once the short reply is stored, is this frame's reply byte 1 (R93). -/
theorem modeByte_of_shortReply {m : Memory} (hm : m.wf) {rs : List Byte} {n : Nat} (hn : 2 ≤ n)
    (hlen : n ≤ rs.length) : (storeFrom 0 (rs.take n) m).read 1 = rs.getD 1 0 := by
  rw [storeFrom_read hm, if_pos (by simp; omega), List.getD_eq_getElem?_getD, List.getElem?_take_of_lt (by omega),
    List.getD_eq_getElem?_getD]

/-- The read command is SHORT_LEN bytes long, and the continuation CONT_LEN (R101). -/
theorem readBytes_length (p : Params) (a b : Byte) (cont : Bool) :
    (readBytes p a b cont).length = p.catalog.shortLen + if cont then p.catalog.contLen else 0 := by
  cases cont <;> simp [readBytes, readRequest, contRequest]

/-- Settles O25: READ_FRAME, whole, its stores read back. -/
theorem readFramesFillResponseBuffer : Obligations.ReadFramesFillResponseBuffer := by
  intro s i a b hi hok hr hn hl hrb hshort
  obtain ⟨rs, cont, v, hlen, hv, hcont, hleaves, -, hregs, hh⟩ := readFrame_done (i := i) (a := a) (b := b) hn hr hl
  have hlength := hlen.trans (readBytes_length s.params a b cont)
  have hstored : (readFrame i a b s).regs.rb = storeFrom 0 rs s.regs.rb := by rw [hregs]
  refine ⟨_, exec_read_of_ok hok hi, rs, cont, v, ?_, hlength, hv, hleaves, ?_, fun j => ?_, ?_, hh⟩
  · rw [hcont, modeByte_of_shortReply hrb.1 hshort (by omega), beq_iff_eq]
  · unfold State.rbOk
    rw [hstored, hleaves.params]
    exact rb_frame hrb hok hlen
  · unfold State.rbRead
    rw [hstored, storeFrom_read hrb.1]
    simp
  · rw [hregs]

end Sys2Proof.Machine
end

section
/-! PROOF. P3 and P4: the actuator bytes of the read frames. -/

namespace Sys2Proof.Machine

/-- At a label of a read cycle, outside a list, a step is that label's. -/
theorem step_atCycle {l : CycleStep} {s : State} (h : s.atCycle l) : step s = .next (stepCycle l s) := by
  obtain ⟨hctl, hc, hr⟩ := h
  rw [step_atControl hctl, sequencer, hr, hc]

/-- POLL's operands are those of its word (R102, R218). -/
theorem cycleOperands_poll {s : State} {l : CycleStep} {a : Bool} {b : Byte} (ho : s.pos.opPos = .poll l)
    (hw : s.port.op = hostWord (.poll a b)) : s.cycleA = a ∧ s.cycleB = b := by
  rw [State.cycleA, State.cycleB, ho, hw]
  exact ⟨fieldP_hostLow b false a 0x1, fieldB_hostLow b false a 0x1⟩

/-- The read cycles inside INIT use 0 and 0 (R102, R221). -/
theorem cycleOperands_init {s : State} {l : InitStep} (ho : s.pos.opPos = .init l) :
    s.cycleA = false ∧ s.cycleB = 0x00 := by
  rw [State.cycleA, State.cycleB, ho]
  exact ⟨rfl, rfl⟩

theorem stepP3_of_attempts {s : State} (h : 1 ≤ s.params.readAttempts) :
    stepP3 s = State.goCycle .p4 { s with pos.scaledB := scale s.cycleB, pos.retry := 1 } :=
  if_neg (Nat.one_le_iff_ne_zero.1 h)

/-- Settles O36: each label's step with the operands that POLL's word, or INIT, gives the read cycle. -/
theorem attemptsUseOneScaledByte : Obligations.AttemptsUseOneScaledByte := by
  refine ⟨fun s a b h ho hw hn => ?_, fun s l h ho hn => ?_, fun s a b h ho hw => ?_, fun s l h ho => ?_⟩
  · obtain ⟨-, hb⟩ := cycleOperands_poll ho hw
    rw [step_atCycle h, stepCycle, stepP3_of_attempts hn, hb, State.goCycle_poll (c := .p3) (by exact ho)]
  · obtain ⟨-, hb⟩ := cycleOperands_init ho
    rw [step_atCycle h, stepCycle, stepP3_of_attempts hn, hb, State.goCycle_init (i := l) (by exact ho)]
    rfl
  · obtain ⟨ha, -⟩ := cycleOperands_poll ho hw
    rw [step_atCycle h, stepCycle, stepP4, ha]
    rfl
  · obtain ⟨ha, -⟩ := cycleOperands_init ho
    rw [step_atCycle h, stepCycle, stepP4, ha]
    rfl

end Sys2Proof.Machine
end

section
/-! PROOF. The transport's own claims: one byte exchange in each option, and the configuration commands' frame. -/

namespace Sys2Proof.Machine

/-! ## One byte exchange (R130, R132) -/

/-- The GPIO reply byte is what the temporary r, shiftIn, holds at the end (R46, R130). -/
theorem xfer_gpio_reply (o : Byte) {s : State} (ht : s.params.transport = .gpio) :
    (xfer o s).1 = (xfer o s).2.pos.shiftIn := by
  rw [xfer, ht]
  rfl

theorem byteEvents_gpio {p : Params} (ht : p.transport = .gpio) (b : Byte × Byte) :
    byteEvents p b = (List.range 8).flatMap (gpioBitEvents p b.1 b.2) ++ [.pin .cmd true, .sleepUs p.tByteUs] := by
  rw [byteEvents, ht]

/-- Settles O28: the exchange's events and end state, with the reply read off shiftIn. -/
theorem gpioByteExchange : Obligations.GpioByteExchange := by
  intro o s ht hn hclk hcmd
  obtain ⟨env, sh, bi, -, hstate⟩ := xfer_eq o s hn hclk hcmd
  have hreply : (xfer o s).1 = sh := by rw [xfer_gpio_reply o ht, hstate]
  rw [hreply, byteEvents_gpio ht] at hstate
  exact ⟨env, sh, bi, Prod.ext hreply hstate⟩

/-- An HWSPI byte exchange whose sleep ends is one SPI exchange and that sleep, at any line levels. -/
theorem xfer_hwspi_eq (o : Byte) {s : State} (ht : s.params.transport = .hwspi) (hn : s.sleepsEnd) :
    xfer o s = ((s.spiExchange o).1, (s.spiExchange o).2.emit (.sleepUs s.params.tByteUs)) := by
  have hdrawn : (s.spiExchange o).2.sleepsEnd := by simpa [State.sleepsEnd] using hn
  rw [xfer, ht]
  exact congrArg (Prod.mk _) (State.sleep_free hdrawn _)

/-- Settles O29: the SPI exchange is its event and a draw from the environment. -/
theorem hwspiByteExchange : Obligations.HwspiByteExchange := by
  intro o s ht hn
  refine ⟨(s.spiExchange o).2.env, (s.spiExchange o).1, ?_⟩
  rw [xfer_hwspi_eq o ht hn, State.spiExchange_eq]
  rfl

/-! ## The configuration commands (R160, R162 to R165) -/

/-- Each of the five configuration commands is one SEND_CMD. -/
theorem exec_config_of_ok {s : State} (hok : s.params.ok = true) {i : Instr}
    (hi : i ∈ [Instr.enterConfig, .setMode, .enableVibration, .enablePressure, .exitConfig]) :
    exec i s = .next (sendCmd i s) := by
  have hrun : exec i s = .next (wireFrame (sendCmd i) s) := by
    simp only [List.mem_cons, List.not_mem_nil, or_false] at hi
    rcases hi with rfl | rfl | rfl | rfl | rfl <;> rfl
  rw [hrun, wireFrame_of_ok hok]

/-- Settles O23: SEND_CMD, whole. -/
theorem commandFramesRun : Obligations.CommandFramesRun := by
  intro s i hi hok hr hn hl
  obtain ⟨rs, v, hlen, hv, hleaves, -, hregs, hh⟩ := sendCmd_done (i := i) hn hr hl
  exact ⟨_, exec_config_of_ok hok hi, rs, v, hlen, hv, hleaves, hregs, hh⟩

end Sys2Proof.Machine
end

section
/-! PROOF. SCALE, the command lists with the operands that choose their commands, and one step at each label of a read
cycle. -/

namespace Sys2Proof.Machine

/-! ## SCALE (R200) -/

/-- SCALE does not overflow a byte. -/
theorem scale_toNat {b : Byte} (hb : b ≠ 0) : (scale b).toNat = b.toNat * 191 / 255 + 64 := by
  have hlt := b.isLt
  rw [scale, if_neg hb, BitVec.toNat_ofNat]
  omega

/-- Settles O56: 0 stays 0, and the other bytes are those of R200's formula on naturals. -/
theorem scaleProperties : Obligations.ScaleProperties := by
  have hle : ∀ b : Byte, b.toNat ≤ (scale b).toNat := by
    intro b
    by_cases hb : b = 0
    · simp [hb]
    · rw [scale_toNat hb]
      omega
  refine ⟨rfl, fun b => scale_toNat, fun b hb => ?_, fun b c hbc => ?_, hle⟩
  · rw [scale_toNat hb]
    omega
  · by_cases hb : b = 0
    · simp [hb, scale]
    · have hc : c ≠ 0 := by
        rintro rfl
        exact hb (BitVec.eq_of_toNat_eq (by simpa using hbc))
      rw [scale_toNat hb, scale_toNat hc]
      omega

/-! ## The operands of INIT -/

theorem fieldV_hostLow (high : BitVec 8) (v p : Bool) (opc : BitVec 4) : fieldV (hostLow high v p opc) = v := by
  have hbit : (0#16 ++ (high ++ (0#2 ++ (BitVec.ofBool v ++ (BitVec.ofBool p ++ opc))))).getLsbD 5 = v := by
    simp only [BitVec.getLsbD_append]
    cases v <;> rfl
  exact hbit

/-- INIT's operands are those of its word (R110, R220). -/
theorem initOperands {s : State} {p v : Bool} (hw : s.port.op = hostWord (.init p v)) : s.opP = p ∧ s.opV = v := by
  rw [State.opP, State.opV, hw]
  exact ⟨fieldP_hostLow 0 v p 0x0, fieldV_hostLow 0 v p 0x0⟩

/-! ## Command lists -/

theorem commands_of_cycle {s : State} (h : s.cycle ≠ none) :
    s.commands = replayCommands s.regs.enVibration s.regs.enPressures := by
  obtain ⟨l, hl⟩ := Option.ne_none_iff_exists'.1 h
  rw [State.commands, hl]

theorem commands_of_noCycle {s : State} (h : s.cycle = none) : s.commands = attemptCommands s.opV s.opP := by
  rw [State.commands, h]

theorem three_le_commands (s : State) : 3 ≤ s.commands.length := by
  cases h : s.cycle with
  | none => simp [commands_of_noCycle h, attemptCommands]
  | some l =>
    rw [commands_of_cycle (by simp [h])]
    simp [replayCommands]
    omega

/-- Settles O38: a list is a replay's or an attempt's. -/
theorem commandLists : Obligations.CommandLists := by
  refine ⟨fun s => commands_of_cycle, fun s p v hc hw => ?_, fun s => ?_⟩
  · obtain ⟨hp, hv⟩ := initOperands hw
    rw [commands_of_noCycle hc, hp, hv]
    rfl
  · obtain ⟨hle, hreplay⟩ := s.commands_le
    exact ⟨three_le_commands s, hle, hreplay, fun i hi => (State.commands_wire hi).1⟩

/-! ## The labels of a read cycle -/

section
variable {s : State}

/-- The mode byte is analog as R240 says it. -/
theorem analog_iff : s.analog = true ↔ highNibble (s.rbRead 1) = s.params.analogNibble := beq_iff_eq

/-- Settles O34: P1's sample, and where the poll gap leads. -/
theorem stallCheck : Obligations.StallCheck := by
  intro s h
  refine ⟨s.nowMs.2.env, s.nowMs.1, elapsedSince s.params s.nowMs.1 s.regs.lastRead, s.nowMs_lt,
    elapsedSince_int _ _ _, ?_⟩
  rw [step_atCycle h, stepCycle, stepP1, State.nowMs_eq]
  split <;> rfl

/-- Settles O35: P2 with no sleep, a sleep that ends and one that does not. -/
theorem pacingSleep : Obligations.PacingSleep := by
  intro s h
  have ⟨⟨_, _, _, _, _, hw⟩, _⟩ := h
  rw [step_atCycle h, stepCycle, stepP2]
  refine ⟨fun hle => ?_, fun hlt hl => ?_, fun hlt hl => ?_⟩
  · rw [if_neg (Nat.not_lt.2 hle), State.awake_of hw]
    rfl
  · have hpos : { s.pos with asleep := false } = s.pos := by rw [← hw]
    rw [if_pos hlt, State.sleepMs, State.sleep_ends hl, hpos]
    rfl
  · rw [if_pos hlt, State.sleepMs, State.sleep_stays hl]

/-- Settles O40: P5 with the mode byte analog or not. -/
theorem delayGrowth : Obligations.DelayGrowth := by
  intro s h
  rw [step_atCycle h, stepCycle, stepP5]
  by_cases ha : highNibble (s.rbRead 1) = s.params.analogNibble
  · rw [if_pos ha, if_pos (analog_iff.2 ha)]
    rfl
  · rw [if_neg ha, if_neg (mt analog_iff.1 ha)]
    rfl

/-- Settles O41: the roll, then P6's sample. -/
theorem buttonRoll : Obligations.ButtonRoll := by
  intro s h
  refine ⟨(roll s).nowMs.2.env, (roll s).nowMs.1, (roll s).nowMs_lt, ?_⟩
  rw [step_atCycle h, stepCycle, stepP6, State.nowMs_eq]
  rfl

theorem stepP7_poll {l : CycleStep} (ho : s.pos.opPos = .poll l) : stepP7 s = s.complete (boolResult s.analog) := by
  rw [stepP7, ho]

theorem stepP7_init {l : InitStep} (ho : s.pos.opPos = .init l) : stepP7 s = afterCycle l s := by
  rw [stepP7, ho]

/-- Settles O42: P7 of a POLL is its completion. -/
theorem pollReturnsAnalog : Obligations.PollReturnsAnalog := by
  intro s h ho
  refine ⟨boolResult s.analog, if_congr analog_iff rfl rfl, ?_⟩
  rw [step_atCycle h, stepCycle, stepP7_poll ho]
  rfl

end

end Sys2Proof.Machine
end

section
/-! PROOF. One step at each label of INIT, and at the end of its read cycles. -/

namespace Sys2Proof.Machine

section
variable {s : State}

/-- At a label of INIT, outside a read cycle and a list, a step is that label's. -/
theorem step_atInit {l : InitStep} (h : s.atInit l) : step s = .next (stepInit l s) := by
  obtain ⟨hctl, ho, hc, hr⟩ := h
  have hcycle : s.cycle = none := by rw [State.cycle, ho, hc]
  rw [step_atControl hctl, sequencer, hr, hcycle, ho]

/-- Outside a read cycle, a move to a label of INIT moves opPos alone. -/
theorem goInit_of_noCycle (hc : s.pos.cyclePos = none) (l : InitStep) :
    s.goInit l = { s with pos := { s.pos with opPos := .init l } } := by
  rw [State.goInit, ← hc]

theorem goStatus_of_noCycle (hc : s.pos.cyclePos = none) (r : Status) :
    s.goStatus r = { s with pos := { s.pos with opPos := .init .i5, status := r } } := by
  rw [State.goStatus, goInit_of_noCycle hc]

/-- Settles O45: I1, and P7 of a probe. -/
theorem probeReads : Obligations.ProbeReads := by
  refine ⟨fun s h => ?_, fun s h ho => ?_⟩
  · have ⟨_, _, hc, _⟩ := h
    rw [step_atInit h, stepInit, stepI1, goInit_of_noCycle hc]
    split <;> rfl
  · rw [step_atCycle h, stepCycle, stepP7_init ho, afterCycle]
    dsimp only
    split <;> rfl

/-- The peripheral is present if its mode byte is one of VALID_MODES (R222). -/
theorem present_iff : s.present = true ↔ s.rbRead 1 ∈ s.params.validModes := List.contains_iff_mem

/-- Settles O46: I2 with the mode byte in VALID_MODES or not. -/
theorem presenceCheck : Obligations.PresenceCheck := by
  intro s h hn
  have ⟨_, _, hc, _⟩ := h
  rw [step_atInit h, stepInit, stepI2, if_neg (Nat.one_le_iff_ne_zero.1 hn), goInit_of_noCycle hc,
    goStatus_of_noCycle hc]
  by_cases hm : s.rbRead 1 ∈ s.params.validModes
  · rw [if_pos hm, if_pos (present_iff.2 hm)]
  · rw [if_neg hm, if_neg (mt present_iff.1 hm)]

/-- Settles O47: I3 with INIT's operands, and P7 of the attempt's read cycle. -/
theorem attemptStart : Obligations.AttemptStart := by
  refine ⟨fun s p v h hw => ?_, fun s h ho => ?_⟩
  · obtain ⟨hp, hv⟩ := initOperands hw
    rw [step_atInit h, stepInit, stepI3, hp, hv]
    rfl
  · rw [step_atCycle h, stepCycle, stepP7_init ho]
    rfl

/-- None of I4's tests holds of the mode byte (R224, R225). -/
theorem attemptResult_none_iff {p : Params} {wantPressures : Bool} {mode : Byte} :
    attemptResult p wantPressures mode = none ↔
      (wantPressures = true → mode ≠ p.fullMode ∧ mode ≠ p.pressureReject) ∧
        (wantPressures = false → mode ≠ p.basicAnalog) := by
  unfold attemptResult
  cases wantPressures with
  | false => simp
  | true => simp [ite_eq_iff]

/-- A test of I4 that succeeds. -/
theorem stepI4_success {r : Status} (hc : s.pos.cyclePos = none)
    (hres : attemptResult s.params s.opP (s.rbRead 1) = some r) :
    stepI4 s = { s with pos := { s.pos with opPos := .init .i5, status := r } } := by
  rw [stepI4, State.modeByte, hres]
  exact goStatus_of_noCycle hc r

/-- Settles O48: the tests in their order. -/
theorem attemptResultInOrder : Obligations.AttemptResult := by
  intro s p v h hw
  obtain ⟨hp, -⟩ := initOperands hw
  have ⟨_, _, hc, _⟩ := h
  rw [step_atInit h, stepInit]
  refine ⟨fun h1 hm => ?_, fun h1 hn hm => ?_, fun h0 hm => ?_⟩
  · exact congrArg _ (stepI4_success hc (by simp [attemptResult, hp, h1, hm]))
  · have hne : s.params.pressureReject ≠ s.params.fullMode := hm ▸ hn
    exact congrArg _ (stepI4_success hc (by simp [attemptResult, hp, h1, hm, hne]))
  · exact congrArg _ (stepI4_success hc (by simp [attemptResult, hp, h0, hm]))

/-- Settles O49: no test holds, so another attempt or ConfigRejected. -/
theorem failedAttemptGrowsDelay : Obligations.FailedAttemptGrowsDelay := by
  intro s p v h hw h1 h0
  obtain ⟨hp, -⟩ := initOperands hw
  have ⟨_, _, hc, _⟩ := h
  have hres : attemptResult s.params s.opP s.modeByte = none := by
    rw [hp]
    exact attemptResult_none_iff.2 ⟨h1, h0⟩
  rw [step_atInit h, stepInit, stepI4, hres]
  dsimp only
  rw [goInit_of_noCycle (by exact hc), goStatus_of_noCycle (by exact hc)]
  split <;> rfl

/-- Settles O50: I5 is INIT's completion, in a session. -/
theorem initReturnsStatus : Obligations.InitReturnsStatus := by
  intro s h
  refine ⟨s.pos.status.code, ?_, ?_⟩
  · cases s.pos.status <;> rfl
  · rw [step_atInit h]
    rfl

end

end Sys2Proof.Machine
end

section
/-! PROOF. A frame that the sequencer sends runs whole, and the sequencer goes on: to the list's next command, to what
follows the list, or to what the mode byte of an attempt asks for. -/

namespace Sys2Proof.Machine

/-! ## What a whole frame leaves of the position -/

namespace FrameLeaves
variable {s u : State}

theorem frame (h : FrameLeaves s u) : u.pos.frame = none := by
  obtain ⟨_, _, _, _, hpos⟩ := h.pos
  rw [hpos]

theorem asleep (h : FrameLeaves s u) : u.pos.asleep = s.pos.asleep := by
  obtain ⟨_, _, _, _, hpos⟩ := h.pos
  rw [hpos]

theorem replayPos (h : FrameLeaves s u) : u.pos.replayPos = s.pos.replayPos := by
  obtain ⟨_, _, _, _, hpos⟩ := h.pos
  rw [hpos]

theorem retry (h : FrameLeaves s u) : u.pos.retry = s.pos.retry := by
  obtain ⟨_, _, _, _, hpos⟩ := h.pos
  rw [hpos]

theorem cycle (h : FrameLeaves s u) : u.cycle = s.cycle := by
  obtain ⟨_, _, _, _, hpos⟩ := h.pos
  simp [State.cycle, hpos]

end FrameLeaves

/-- A frame ran whole from s to u with its sleeps ended: what it leaves, and the registers that a frame may write. -/
structure FrameEnds (s u : State) : Prop where
  leaves : FrameLeaves s u
  sleeps : u.sleepsEnd
  regs   : ∃ m c v, u.regs = { s.regs with rb := m, controllerType := c, lastRelease := v }

/-- Every wire frame that does not wait and whose sleeps the time port ends (R137, R161, R205). -/
theorem exec_frameEnds {i : Instr} {s : State} (hi : i.isWire = true) (hok : s.params.ok = true) (hr : s.ready)
    (hn : s.sleepsEnd) (hl : s.linesIdle) : ∃ u, exec i s = .next u ∧ FrameEnds s u := by
  have hread : ∀ a b, i = .read a b ∨ i = .readCont a b → ∃ u, exec i s = .next u ∧ FrameEnds s u := by
    intro a b hab
    obtain ⟨rs, _, v, -, -, -, hleaves, hsleeps, hregs, -⟩ := readFrame_done (i := i) (a := a) (b := b) hn hr hl
    exact ⟨_, exec_read_of_ok hok hab, hleaves, ⟨hleaves.asleep.trans hn.1, hsleeps⟩, _, s.regs.controllerType, v,
      hregs⟩
  have hconfig : i ∈ [Instr.enterConfig, .setMode, .enableVibration, .enablePressure, .exitConfig] →
      ∃ u, exec i s = .next u ∧ FrameEnds s u := by
    intro hc
    obtain ⟨_, v, -, -, hleaves, hsleeps, hregs, -⟩ := sendCmd_done (i := i) hn hr hl
    exact ⟨_, exec_config_of_ok hok hc, hleaves, ⟨hleaves.asleep.trans hn.1, hsleeps⟩, s.regs.rb,
      s.regs.controllerType, v, hregs⟩
  cases i with
  | read a b => exact hread a b (.inl rfl)
  | readCont a b => exact hread a b (.inr rfl)
  | queryType =>
    obtain ⟨rs, v, -, -, hleaves, hsleeps, hregs, -⟩ := typeFrame_done (i := .queryType) hn hr hl
    exact ⟨_, exec_queryType_of_ok hok, hleaves, ⟨hleaves.asleep.trans hn.1, hsleeps⟩, s.regs.rb, _, v, hregs⟩
  | enterConfig | setMode | enableVibration | enablePressure | exitConfig => exact hconfig (by simp)
  | _ => cases hi

/-- No frame changes the list that it belongs to (R190, R223). -/
theorem FrameEnds.commands {s u : State} (h : FrameEnds s u) : u.commands = s.commands := by
  obtain ⟨m, c, v, hregs⟩ := h.regs
  exact State.commands_congr h.leaves.cycle (by rw [h.leaves.port]) (by rw [hregs]) (by rw [hregs])

theorem FrameEnds.readDelay {s u : State} (h : FrameEnds s u) : u.regs.readDelay = s.regs.readDelay := by
  obtain ⟨m, c, v, hregs⟩ := h.regs
  rw [hregs]

/-! ## After an attempt's read frame -/

theorem afterFrame_read {s : State} (hf : s.pos.frame = none) (hr : s.pos.replayPos = none)
    (hc : s.cycle = some .p4) : afterFrame s = if s.analog then s.goCycle .p5 else s.startList := by
  rw [afterFrame, hf, hr, hc, afterRead]

/-- Settles O37: the frame runs whole, and its mode byte decides. -/
theorem attemptOutcome : Obligations.AttemptOutcome := by
  intro s a b h hr hn hl hc hlist
  have ⟨_, hok, _, _, _⟩ := h
  obtain ⟨u, hu, k⟩ := exec_frameEnds (i := .read a b) rfl hok hr hn hl
  refine ⟨u, hu, ?_⟩
  rw [step_atFrame h hu,
    afterFrame_read k.leaves.frame (k.leaves.replayPos.trans hlist) (k.leaves.cycle.trans hc)]
  exact congrArg _ (if_congr analog_iff rfl rfl)

/-! ## After a command's frame -/

section
variable {s : State} {k : Nat}

/-- The command at the list's index is loaded. -/
theorem sequencer_list {i : Instr} (hr : s.pos.replayPos = some k) (hi : s.commands[k]? = some i) :
    sequencer s = s.loadFrame i := by
  simp [sequencer, hr, hi]

/-- A command that is not the list's last: the next one follows. -/
theorem afterFrame_more (hf : s.pos.frame = none) (hr : s.pos.replayPos = some k) (hk : k + 1 < s.commands.length) :
    afterFrame s = { s with pos := { s.pos with replayPos := some (k + 1) } } := by
  simp [afterFrame, hf, hr, afterCommand, hk]

/-- After a stall's replay P2 follows (R211). -/
theorem afterReplay_p1 (hc : s.cycle = some .p1) : afterReplay s = s.leaveList.goCycle .p2 := by
  rw [afterReplay, hc]

/-- After an attempt's commands its read cycle begins (R223). -/
theorem afterReplay_attempt (hc : s.cycle = none) : afterReplay s = s.leaveList.enterCycle := by
  rw [afterReplay, hc]

/-- After a failed attempt's replay and its sleep, ended, the next attempt or P5 follows (R214). -/
theorem afterReplay_p4 (hc : s.cycle = some .p4) (hn : s.sleepsEnd) : afterReplay s =
    if s.pos.retry < s.params.readAttempts then
      { s with pos := { s.pos with replayPos := none, retry := s.pos.retry + 1 },
               history := .sleepMs s.regs.readDelay :: s.history }
    else { s with pos := { (s.goCycle .p5).pos with replayPos := none },
                  history := .sleepMs s.regs.readDelay :: s.history } := by
  rw [afterReplay, hc]
  exact State.sleep_awake (s := s.leaveList) hn _ _

end

/-- Settles O39: a command is loaded, its frame runs whole, and the list goes on or ends. -/
theorem commandListsRunInOrder : Obligations.CommandListsRunInOrder := by
  refine ⟨fun s k i h hlist hi => ?_, fun s k i h hr hn hl hlist hi => ?_⟩
  · rw [step_atControl h, sequencer_list hlist hi]
    rfl
  · have ⟨_, hok, _, _, _⟩ := h
    obtain ⟨u, hu, e⟩ := exec_frameEnds (State.commands_wire (List.mem_of_getElem? hi)).1 hok hr hn hl
    have hframe := e.leaves.frame
    have hlist' := e.leaves.replayPos.trans hlist
    have hlast : k + 1 = s.commands.length → step s = .next (afterReplay u) := fun hk => by
      rw [step_atFrame h hu, afterFrame_last hframe hlist' (by rw [e.commands, hk])]
    refine ⟨u, hu, hframe, fun hk => ?_, fun hk hc => ?_, fun hk hc hlt => ?_, fun hk hc hle => ?_, fun hk hc => ?_⟩
    · rw [step_atFrame h hu, afterFrame_more hframe hlist' (by rwa [e.commands])]
    · rw [hlast hk, afterReplay_p1 (e.leaves.cycle.trans hc)]
      rfl
    · rw [hlast hk, afterReplay_p4 (e.leaves.cycle.trans hc) e.sleeps, e.leaves.retry, e.leaves.params, if_pos hlt,
        e.readDelay]
    · rw [hlast hk, afterReplay_p4 (e.leaves.cycle.trans hc) e.sleeps, e.leaves.retry, e.leaves.params,
        if_neg (Nat.not_lt.2 hle), e.readDelay]
    · rw [hlast hk, afterReplay_attempt (e.leaves.cycle.trans hc)]
      rfl

end Sys2Proof.Machine
end

section
/-! PROOF. POLL and INIT from their issue to their completion, where no frame waits and every sleep ends. -/

namespace Sys2Proof.Machine

theorem Running.atControl {s : State} (h : Running s) : s.atControl :=
  ⟨h.refused, h.ok, h.request, h.frame, h.busy, h.sleeps.1⟩

theorem exec_poll_admitted {s : State} (h : s.admits true) (a : Bool) (b : Byte) :
    exec (.poll a b) s = .next (beginPoll (hostWord (.poll a b)) s) :=
  congrArg _ (admission_of_admits h _)

theorem exec_init_admitted {s : State} (h : s.admits false) (p v : Bool) :
    exec (.init p v) s = .next (beginInit (hostWord (.init p v)) s) :=
  congrArg _ (admission_of_admits h _)

/-- Only a fall of attention counts as a frame. -/
theorem frameCount_cons {e : Event} (he : e ≠ .pin .att false) (hist : List Event) :
    frameCount (e :: hist) = frameCount hist :=
  List.count_cons_of_ne he

section
variable {s : State} (h : s.Inv) (hr : s.refused = none) (hq : s.port.request = none) (hw : s.neverWaits)
  (hn : s.sleepsEnd)
include h hr hq hw hn

theorem running_beginPoll (w : HostWord) : Running (beginPoll w s) :=
  ⟨hr, h.params, hq, rfl, hw, h.lines hn.1, rfl, rfl, hn⟩

theorem running_beginInit (w : HostWord) : Running (beginInit w s) :=
  ⟨hr, h.params, hq, rfl, hw, h.lines hn.1, rfl, rfl, hn⟩

end

/-! ## POLL (R218, R219) -/

/-- A read cycle of a POLL stays in the POLL. -/
theorem SameOperation.poll {s u : State} {l l' : CycleStep} (h : SameOperation s u) (ho : s.pos.opPos = .poll l)
    (hc : u.cycle = some l') : u.pos.opPos = .poll l' := by
  have hpoll : ∃ m, u.pos.opPos = .poll m := by
    rcases h.op with hsame | ⟨_, m, -, hm⟩
    · exact ⟨l, hsame.trans ho⟩
    · exact ⟨m, hm⟩
  obtain ⟨m, hm⟩ := hpoll
  rw [State.cycle, hm] at hc
  rw [hm, Option.some.inj hc]

/-- Settles O51: the read cycle from P1 to P7, and P7's completion. -/
theorem pollCompletes : Obligations.PollCompletes := by
  intro s a b h ha hr hq hw hn hreads
  have hrun := running_beginPoll h hr hq hw hn (hostWord (.poll a b))
  have hissue : frameCount (beginPoll (hostWord (.poll a b)) s).history = frameCount s.history :=
    frameCount_cons (by simp) _
  obtain ⟨u, hu, hlast, hbuttons, hmin, hmax⟩ := cycle_run hrun rfl rfl
  obtain ⟨r, hres, hdone⟩ := pollReturnsAnalog u ⟨(hu.same.running hrun).atControl, hu.cycle, hu.list⟩
    (hu.same.poll rfl hu.cycle)
  obtain ⟨n, hreach⟩ := hu.reach.trans (.one hdone)
  have hend : frameCount (.hostDone r :: u.history) = frameCount u.history := frameCount_cons (by simp) _
  have hmin := hmin hreads
  rw [hissue] at hmin hmax
  exact ⟨_, n, _, exec_poll_admitted ha a b, hreach, rfl, rfl, (hu.same.running hrun).refused,
    congrArg HostPort.op hu.same.port, hres, hlast, hbuttons, hu.same.vib, hu.same.pres, hu.type, hu.same.session,
    hu.same.params, hu.same.bus, hmin.trans_eq hend.symm, hend.trans_le hmax⟩

/-! ## INIT (R220, R228) -/

/-- The probes of an INIT, from I1 to I2 (R221). -/
theorem all_probes_run {s : State} (h : Running s) (ho : s.pos.opPos = .init .i1) (hc : s.pos.cyclePos = none)
    (hr : s.pos.replayPos = none) (hp : s.pos.probe = 0) :
    ∃ t, InitReaches .i2 s t ∧ SameFlags s t ∧
      frameCount t.history ≤ frameCount s.history + s.params.probeReads * (5 + 6 * s.params.readAttempts) := by
  have hstep := step_atInit (l := .i1) ⟨h.atControl, ho, hc, hr⟩
  rw [stepInit, stepI1, hp] at hstep
  by_cases hn : 0 < s.params.probeReads
  · rw [if_pos hn] at hstep
    obtain ⟨t, ht, hflags, hframes⟩ := probes_run (s.params.probeReads - 1) s.enterCycle
      (h.keeps rfl rfl rfl rfl h.frame h.acq h.sleeps) ho rfl hr
      (by simp only [State.enterCycle_pos, State.enterCycle_params, hp]; omega)
    simp only [State.enterCycle_params, State.enterCycle_history, Nat.sub_add_cancel hn] at hframes
    exact ⟨t, ⟨.cons hstep ht.reach, ht.running, ht.params, ht.port, ht.op, ht.cyc, ht.list, ht.delay⟩, hflags,
      hframes⟩
  · rw [if_neg hn] at hstep
    exact ⟨_, ⟨.one hstep, h.keeps rfl rfl rfl rfl h.frame h.acq h.sleeps, rfl, rfl, rfl, rfl, hr, .of_eq rfl⟩,
      ⟨rfl, rfl, rfl⟩, Nat.le_add_right _ _⟩

/-- What INIT leaves at I5: a status that the mode byte bears out, the flags as they were or as the operands, and
after ConfigRejected a read_delay at DELAY_CAP if the attempts suffice to reach it. -/
structure InitRan (s t : State) : Prop where
  at5    : InitReaches .i5 s t
  status : t.statusOk
  absent : t.pos.status = .notFound → SameFlags s t
  flags  : t.pos.status ≠ .notFound → t.regs.enVibration = s.opV ∧ t.regs.enPressures = s.opP
  capped : t.pos.status = .configRejected → s.regs.readDelay ≤ s.params.delayCap →
    s.params.delayCap ≤ s.regs.readDelay + s.params.configAttempts → t.regs.readDelay = s.params.delayCap
  frames : frameCount t.history ≤ frameCount s.history + s.params.probeReads * (5 + 6 * s.params.readAttempts) +
    s.params.configAttempts * (11 + 6 * s.params.readAttempts)

theorem InitReaches.trans {l l' : InitStep} {s t u : State} (h : InitReaches l s t) (k : InitReaches l' t u) :
    InitReaches l' s u :=
  ⟨h.reach.trans k.reach, k.running, k.params.trans h.params, k.port.trans h.port, k.op, k.cyc, k.list,
    h.delay.trans h.params k.delay⟩

/-- INIT from I1 to I5. -/
theorem init_run {s : State} (h : Running s) (ho : s.pos.opPos = .init .i1) (hc : s.pos.cyclePos = none)
    (hr : s.pos.replayPos = none) (hp : s.pos.probe = 0) (hn : 1 ≤ s.params.configAttempts) :
    ∃ t, InitRan s t := by
  obtain ⟨m, hm, ⟨hv, he, htype⟩, hprobes⟩ := all_probes_run h ho hc hr hp
  obtain ⟨t, ht, hcases⟩ := presence_run hm.running hm.op hm.cyc hm.list (by rwa [hm.params])
  have hreach := hm.trans ht
  refine ⟨t, ?_⟩
  rcases hcases with ⟨hstatus, hok, ⟨hv', he', htype'⟩, hframes⟩ | k
  · exact ⟨hreach, hok, fun _ => ⟨hv'.trans hv, he'.trans he, htype'.trans htype⟩, fun hne => absurd hstatus hne,
      fun hrej => absurd (hstatus.symm.trans hrej) (by simp), by omega⟩
  · have hframes := k.frames
    rw [hm.params] at hframes
    refine ⟨hreach, k.status, fun hf => absurd hf k.found, fun _ => ⟨?_, ?_⟩, fun hrej hle hcap => ?_, by omega⟩
    · rw [k.vib, State.opV, hm.port, State.opV]
    · rw [k.pres, State.opP, hm.port, State.opP]
    · obtain ⟨hlo, hhi⟩ := hm.delay hle
      obtain ⟨-, hcapped⟩ := hreach.delay hle
      have hgrown := k.grown hrej (by rw [hm.params]; exact hhi)
      rw [hm.params] at hgrown
      omega

/-! ## What a status says of the mode byte (R222, R224, R225, R226) -/

section
variable {s : State} (h : s.statusOk)
include h

theorem mode_of_ok (hs : s.pos.status = .ok) :
    s.rbRead 1 = if s.opP then s.params.fullMode else s.params.basicAnalog := by
  rw [State.statusOk, hs] at h
  rcases h with ⟨hp, hm⟩ | ⟨hp, hm⟩
  · rw [hp]
    exact hm
  · rw [hp]
    exact hm

theorem mode_of_notFound (hs : s.pos.status = .notFound) : s.rbRead 1 ∉ s.params.validModes := by
  rw [State.statusOk, hs] at h
  exact h

theorem mode_of_pressureRejected (hs : s.pos.status = .pressureRejected) :
    s.opP = true ∧ s.rbRead 1 = s.params.pressureReject := by
  rw [State.statusOk, hs] at h
  exact h

theorem mode_of_configRejected (hs : s.pos.status = .configRejected) (hn : 1 ≤ s.params.configAttempts) :
    (s.opP = true → s.rbRead 1 ≠ s.params.fullMode ∧ s.rbRead 1 ≠ s.params.pressureReject) ∧
      (s.opP = false → s.rbRead 1 ≠ s.params.basicAnalog) := by
  rw [State.statusOk, hs] at h
  rcases h with h0 | hnone
  · omega
  · exact attemptResult_none_iff.1 hnone

end

/-- Settles O52: from I1 to I5, I5's completion, and each status by the mode byte that bears it out. -/
theorem initCompletes : Obligations.InitCompletes := by
  intro s p v h ha hr hq hw hn hattempts
  have hrun := running_beginInit h hr hq hw hn (hostWord (.init p v))
  obtain ⟨t, k⟩ := init_run hrun rfl rfl rfl rfl hattempts
  obtain ⟨r, hres, hdone⟩ := initReturnsStatus t ⟨k.at5.running.atControl, k.at5.op, k.at5.cyc, k.at5.list⟩
  obtain ⟨n, hreach⟩ := k.at5.reach.trans (.one hdone)
  have hparams : t.params = s.params := k.at5.params
  have hop : t.port.op = hostWord (.init p v) := congrArg HostPort.op k.at5.port
  obtain ⟨hp, -⟩ := initOperands hop
  obtain ⟨hp0, hv0⟩ := initOperands (s := beginInit (hostWord (.init p v)) s) rfl
  have hflags : t.pos.status ≠ .notFound → t.regs.enVibration = v ∧ t.regs.enPressures = p := by
    simpa only [hp0, hv0] using k.flags
  have hbus : t.bus = s.bus := k.at5.running.lines.trans (h.lines hn.1).symm
  have hframes : frameCount (.hostDone r :: t.history) ≤ frameCount s.history +
      s.params.probeReads * (5 + 6 * s.params.readAttempts) +
      s.params.configAttempts * (11 + 6 * s.params.readAttempts) := by
    have hissue : frameCount (beginInit (hostWord (.init p v)) s).history = frameCount s.history :=
      frameCount_cons (by simp) _
    rw [frameCount_cons (by simp), ← hissue]
    exact k.frames
  refine ⟨_, n, _, exec_init_admitted ha p v, hreach, rfl, rfl, k.at5.running.refused, hop, rfl, hparams, hbus,
    fun hne => hflags fun hs => hne ?_, ?_, hframes⟩
  · rw [hs] at hres
    exact hres
  · cases hs : t.pos.status with
    | ok =>
      rw [hs] at hres
      have hmode := mode_of_ok k.status hs
      rw [hp] at hmode
      exact .inl ⟨hres, hmode⟩
    | notFound =>
      rw [hs] at hres
      exact .inr (.inl ⟨hres, mode_of_notFound k.status hs, k.absent hs⟩)
    | configRejected =>
      rw [hs] at hres
      obtain ⟨hpress, hbasic⟩ := mode_of_configRejected k.status hs (hparams ▸ hattempts)
      rw [hp] at hpress hbasic
      obtain ⟨hlo, hhi, -, -⟩ := h.timing
      exact .inr (.inr (.inl ⟨hres, hpress, hbasic, k.capped hs (hlo.trans hhi)⟩))
    | pressureRejected =>
      rw [hs] at hres
      obtain ⟨hpress, hmode⟩ := mode_of_pressureRejected k.status hs
      exact .inr (.inr (.inr ⟨hres, hp ▸ hpress, hmode⟩))

end Sys2Proof.Machine
end

section
/-! PROOF. The response decoder: the button conditions lane by lane, and each operation's word, result word and refusal
(R241 to R252). -/

namespace Sys2Proof.Machine

/-! ## The button conditions lane by lane -/

/-- A word is not 0 exactly if some lane of it is 1. -/
theorem bne_zero_eq_any {w : Nat} (x : BitVec w) : (x != 0) = (List.finRange w).any fun b => x.getLsbD b := by
  rw [Bool.eq_iff_iff, bne_iff_ne, List.any_eq_true]
  constructor
  · intro hne
    by_contra hall
    refine hne (BitVec.eq_of_getLsbD_eq fun i hi => ?_)
    simpa using fun hbit => hall ⟨⟨i, hi⟩, List.mem_finRange _, hbit⟩
  · rintro ⟨b, -, hbit⟩ rfl
    simp at hbit

theorem pressedIn_eq_any (word m : ButtonWord) :
    pressedIn word m = (List.finRange 16).any fun b => m.getLsbD b && !word.getLsbD b := by
  have hlane (b : Fin 16) : (~~~word &&& m).getLsbD b = (m.getLsbD b && !word.getLsbD b) := by
    simp [Bool.and_comm]
  simp only [pressedIn, bne_zero_eq_any, hlane]

theorem toggledIn_eq_any (last now m : ButtonWord) :
    toggledIn last now m = (List.finRange 16).any fun b => m.getLsbD b && (last.getLsbD b != now.getLsbD b) := by
  have hlane (b : Fin 16) : ((last ^^^ now) &&& m).getLsbD b = (m.getLsbD b && (last.getLsbD b != now.getLsbD b)) := by
    simp [Bool.and_comm]
  simp only [toggledIn, bne_zero_eq_any, hlane]

/-- ANY_TOGGLED is WAS_TOGGLED of every control (R246). -/
theorem anyToggled_eq_wasToggled (s : State) : s.anyToggled = s.wasToggled 0xFFFF :=
  congrArg (· != 0) (BitVec.and_allOnes (x := s.regs.lastButtons ^^^ s.regs.buttons)).symm

/-- Settles O18: a masked word is not 0 exactly if a lane that the mask selects is 1. -/
theorem buttonLanesOr : Obligations.ButtonLanesOr := by
  intro s m
  refine ⟨pressedIn_eq_any _ m, toggledIn_eq_any _ _ m, ?_, ?_, ?_⟩
  · rw [State.wasPressed, State.isPressed, pressedIn_eq_any]
  · rw [State.wasReleased, pressedIn_eq_any]
  · rw [State.anyToggled, bne_zero_eq_any]
    simp only [BitVec.getLsbD_xor, Bool.bne_eq_xor]

/-! ## One-bit masks -/

/-- A one-bit mask selects its lane alone. -/
theorem any_oneBit (b : Fin 16) (f : Fin 16 → Bool) :
    ((List.finRange 16).any fun i => (1#16 <<< b.val).getLsbD i && f i) = f b := by
  have hbit (i : Fin 16) : (1#16 <<< b.val).getLsbD i = decide (b = i) := by
    rw [← BitVec.twoPow_eq, BitVec.getLsbD_twoPow]
    simp [Fin.ext_iff]
  simp only [hbit]
  rw [Bool.eq_iff_iff, List.any_eq_true]
  simp

/-- Settles O17: of the lanes that O18 ors, a one-bit mask leaves one, and the rest is a table of its two bits. -/
theorem oneBitMasks : Obligations.OneBitMasks := by
  intro s b
  obtain ⟨hpressed, htoggled, hwasPressed, hwasReleased, -⟩ := buttonLanesOr s (1#16 <<< b.val)
  rw [any_oneBit b fun i => !s.regs.buttons.getLsbD i] at hpressed hwasPressed
  rw [any_oneBit b fun i => s.regs.lastButtons.getLsbD i != s.regs.buttons.getLsbD i] at htoggled
  rw [any_oneBit b fun i => !s.regs.lastButtons.getLsbD i] at hwasReleased
  rw [hwasPressed, hwasReleased, htoggled, hpressed]
  cases s.regs.lastButtons.getLsbD b <;> cases s.regs.buttons.getLsbD b <;> decide

/-! ## Admission and refusal -/

/-- At an idle port, an operation that needs a session is refused without one, and only the mark is written (R277). -/
theorem exec_withoutSession {i : Instr} {s : State} (hi : i.needsSession = true) (h : s.admits false)
    (hv : s.regs.sessionValid = false) : exec i s = .next (s.refuse .notInitialised) := by
  cases i with
  | poll | isPressed | wasPressed | wasReleased | wasToggled | anyToggled | analog | readType =>
    exact congrArg _ (admission_notInitialised h hv _)
  | _ => cases hi

/-- A decoder operation whose result word every state has answers that word, and is refused without a session. -/
theorem decoderAnswers {i : Instr} {result : State → HostWord} (hi : i.needsSession = true)
    (hp : ∀ a b, i ≠ .poll a b) (hr : ∀ s, decoderResult s i = some (result s)) : DecoderAnswers i result := by
  refine fun s => ⟨fun ha => ?_, exec_withoutSession hi⟩
  rw [exec_decoder hi hp ha, hr, Option.elim_some]

/-! ## The button operations -/

/-- The result word of a condition that says P (R113). -/
theorem boolResult_of_iff {b : Bool} {P : Prop} [Decidable P] (h : b = true ↔ P) :
    boolResult b = if P then 1 else 0 :=
  if_congr h rfl rfl

section
variable {word last now m : ButtonWord}

theorem pressedIn_iff : pressedIn word m = true ↔ ~~~word &&& m ≠ 0 := bne_iff_ne

theorem toggledIn_iff : toggledIn last now m = true ↔ (last ^^^ now) &&& m ≠ 0 := bne_iff_ne

/-- Some control of M differs and some control of M is pressed, possibly another one (R244, R245). -/
theorem toggledIn_and_pressedIn_iff : (toggledIn last now m && pressedIn word m) = true ↔
    (last ^^^ now) &&& m ≠ 0 ∧ ~~~word &&& m ≠ 0 :=
  Bool.and_eq_true_iff.trans (and_congr toggledIn_iff pressedIn_iff)

end

/-- Settles O12: its word is the mask before the code, and its condition IS_PRESSED's. -/
theorem isPressedReadsButtons : Obligations.IsPressedReadsButtons := fun _ =>
  ⟨rfl, decoderAnswers rfl nofun fun _ => congrArg some (boolResult_of_iff pressedIn_iff)⟩

/-- Settles O13: its word is the mask before the code, and its condition WAS_TOGGLED's. -/
theorem wasToggledComparesReads : Obligations.WasToggledComparesReads := fun _ =>
  ⟨rfl, decoderAnswers rfl nofun fun _ => congrArg some (boolResult_of_iff toggledIn_iff)⟩

/-- Settles O14: its word is the mask before the code, and its condition the and of WAS_TOGGLED's and IS_PRESSED's. -/
theorem wasPressedNeedsToggleAndPress : Obligations.WasPressedNeedsToggleAndPress := fun _ =>
  ⟨rfl, decoderAnswers rfl nofun fun _ => congrArg some (boolResult_of_iff toggledIn_and_pressedIn_iff)⟩

/-- Settles O15: its word is the mask before the code, and its condition the same and, with the press looked for in
last_buttons. -/
theorem wasReleasedNeedsToggleAndOldPress : Obligations.WasReleasedNeedsToggleAndOldPress := fun _ =>
  ⟨rfl, decoderAnswers rfl nofun fun _ => congrArg some (boolResult_of_iff toggledIn_and_pressedIn_iff)⟩

/-- Settles O16: its word has no operand, and its condition is WAS_TOGGLED's of every control. -/
theorem anyToggledComparesReads : Obligations.AnyToggledComparesReads :=
  ⟨rfl, decoderAnswers rfl nofun fun _ => congrArg some (boolResult_of_iff bne_iff_ne), anyToggled_eq_wasToggled⟩

/-! ## ANALOG and READ_TYPE -/

/-- Settles O19: an admitted ANALOG is refused exactly if RB has no byte K, and else answers that byte. -/
theorem analogReadsResponseBuffer : Obligations.AnalogReadsResponseBuffer := by
  refine fun k s => ⟨hostWord_analog k, fun ha hk => ?_, fun ha hk => ?_, exec_withoutSession rfl⟩
  · have hsome : decoderResult s (.analog k) = some (0#24 ++ s.rbRead k.toNat) := by
      rw [decoderResult, if_neg (by omega), byteResult, BitVec.setWidth_eq_append (by omega)]
      rfl
    rw [exec_decoder rfl (by simp) ha, hsome, Option.elim_some]
  · have hnone : decoderResult s (.analog k) = none := if_pos hk
    rw [exec_decoder rfl (by simp) ha, hnone, Option.elim_none]
    rfl

/-- The type code of the default TYPE_MAP's first matching row (R252). -/
theorem typeCode_default (code mode : Byte) : typeCode (peripheralType defaultTypeMap code mode) =
    if code = 0x03 then 1
    else if code = 0x01 ∧ mode ≠ 0x42 then 2
    else if code = 0x01 ∧ mode = 0x42 then 4
    else if code = 0x0C then 3
    else 0 := by
  simp only [defaultTypeMap, peripheralType, meetsMode, and_true, bne_iff_ne, beq_iff_eq, apply_ite typeCode]
  rfl

/-- Settles O20: the if-chain is the default TYPE_MAP, row by row. -/
theorem readTypeResult : Obligations.ReadTypeResult := by
  refine ⟨rfl, fun s hmap => ⟨fun ha => ?_, exec_withoutSession rfl⟩⟩
  rw [exec_decoder rfl (by simp) ha, decoderResult, hmap, typeCode_default, Option.elim_some]
  rfl

end Sys2Proof.Machine
end

section
/-! PROOF. What becomes of a host word on the port: it is refused at a busy port, whatever the word (R278), and else, if
it decodes, its operation is refused or admitted in the order of R281. -/

namespace Sys2Proof.Machine

/-! ## A busy port -/

/-- A word at a busy port is refused before it is decoded (R281). -/
theorem fetchHost_busy {w : HostWord} {u s : State} (hb : s.port.busy = true) :
    fetchHost w u s = .refuse .busyIssue := by
  simp [fetchHost, hb]

/-- Settles O7: fetch looks at the port before the word. -/
theorem busyIssueRefused : Obligations.BusyIssueRefused := by
  intro s w hr hok hq hb
  rw [step, fetch_request hr hok hq, fetchHost_busy hb]
  rfl

/-! ## The session -/

/-- Settles O10: what needs a session is refused without one, and INIT needs none. -/
theorem notInitialisedRefused : Obligations.NotInitialisedRefused :=
  fun _ ha => ⟨fun hv _ hi => exec_withoutSession hi ha hv,
    fun p v hr => ⟨_, exec_init_admitted ha p v, hr, rfl⟩⟩

/-! ## The order of the reasons (R281) -/

/-- The host-port decoder has one reason to reject a word (R112). -/
theorem decodeHost_error {w : HostWord} {e : DecodeError} (h : decodeHost w = .error e) :
    e = .reservedEncoding := by
  unfold decodeHost at h
  split at h
  · cases h
  · exact (Except.error.inj h).symm

/-- The instruction is ANALOG with an index that has no byte in RB (R279). -/
abbrev State.lacksByteOf (i : Instr) (s : State) : Prop :=
  ∃ k : BitVec 5, i = .analog k ∧ s.params.rbLen ≤ k.toNat

section
variable {i : Instr} {s : State}

/-- Of the decoder operations only ANALOG can lack a result word (R251, R279). -/
theorem decoderResult_eq_none_iff (hi : i.needsSession = true) (hp : ∀ a b, i ≠ .poll a b) :
    decoderResult s i = none ↔ s.lacksByteOf i := by
  cases i with
  | analog | isPressed | wasPressed | wasReleased | wasToggled | anyToggled | readType =>
    simp [decoderResult, State.lacksByteOf]
  | poll a b => exact absurd rfl (hp a b)
  | _ => cases hi

/-- The mark after an admitted decoder operation (R279). -/
theorem exec_decoder_refused (hi : i.needsSession = true) (hp : ∀ a b, i ≠ .poll a b) (ha : s.admits true) :
    ∃ t, exec i s = .next t ∧ t.refused = if s.lacksByteOf i then some .rbIndex else s.refused := by
  refine ⟨_, exec_decoder hi hp ha, ?_⟩
  simp only [← decoderResult_eq_none_iff hi hp]
  cases decoderResult s i <;> rfl

/-- An admitted host operation leaves the mark as it was, unless it is ANALOG with an index that RB lacks (R279). -/
theorem exec_admitted_refused (hi : i.isWire = false) (ha : s.admits i.needsSession) :
    ∃ t, exec i s = .next t ∧ t.refused = if s.lacksByteOf i then some .rbIndex else s.refused := by
  cases i with
  | init p v => exact ⟨_, exec_init_admitted ha p v, (if_neg nofun).symm⟩
  | poll a b => exact ⟨_, exec_poll_admitted ha a b, (if_neg nofun).symm⟩
  | isPressed | wasPressed | wasReleased | wasToggled | anyToggled | analog | readType =>
    exact exec_decoder_refused rfl nofun ha
  | _ => cases hi

/-- At an idle port NOT_INITIALISED comes before RB_INDEX (R281). -/
theorem exec_host_refused (hi : i.isWire = false) (ha : s.admits false) :
    ∃ t, exec i s = .next t ∧ t.refused =
      if i.needsSession = true ∧ s.regs.sessionValid = false then some .notInitialised
      else if s.lacksByteOf i then some .rbIndex
      else s.refused := by
  by_cases hn : i.needsSession = true ∧ s.regs.sessionValid = false
  · obtain ⟨hneeds, hv⟩ := hn
    exact ⟨_, exec_withoutSession hneeds ha hv, (if_pos ⟨hneeds, hv⟩).symm⟩
  · obtain ⟨hok, hb, -⟩ := ha
    rw [if_neg hn]
    exact exec_admitted_refused hi ⟨hok, hb, fun hneeds => by simpa [hneeds] using hn⟩

end

/-- Settles O11: the busy port (O7), the reserved word (O8), and else the operation that the word decodes to. -/
theorem admissionOrder : Obligations.AdmissionOrder := by
  intro s w hr hok hq
  obtain ⟨-, hreserved, -⟩ := reservedEncodingsRefused
  obtain ⟨hruns, -⟩ := stepRunsFetchedInstruction
  cases hb : s.port.busy with
  | true => exact ⟨_, busyIssueRefused s w hr hok hq hb, rfl⟩
  | false =>
    cases hd : decodeHost w with
    | error e =>
      obtain rfl := decodeHost_error hd
      exact ⟨_, hreserved s w hr hok hq hb hd, rfl⟩
    | ok i =>
      have hidle : s.takeRequest.admits false := ⟨hok, hb, nofun⟩
      obtain ⟨t, ht, hmark⟩ := exec_host_refused (decodeHost_isWire hd) hidle
      refine ⟨t, (hruns s w i hr hok hq hb hd).trans ht, ?_⟩
      simpa [State.lacksByteOf, hr] using hmark

end Sys2Proof.Machine
end

section
/-! PROOF. The state after reset: R300's values, and the invariant. -/

namespace Sys2Proof.Machine

/-- Settles O1: the store is empty, and every other element is the value that reset names. -/
theorem resetState : Obligations.ResetState :=
  ⟨fun _ _ => rfl, rfl, rfl, rfl, rfl, rfl, rfl, rfl, rfl, rfl, rfl, rfl, rfl, rfl⟩

/-- The default of each row of R7 that R8 speaks of meets it, whatever the OPEN rows are. -/
theorem defaultParams_ok : defaultParams.ok = true := rfl

/-- No byte is written, no operation, frame or sleep is under way, and the history is empty. -/
theorem State.reset_inv : State.reset.Inv where
  params := defaultParams_ok
  rb := ⟨⟨.nil, nofun⟩, nofun⟩
  timing := by decide
  lines := fun _ => rfl
  position := ⟨rfl, rfl, rfl, rfl⟩
  frame := ⟨nofun, nofun⟩
  history := ⟨.idle, rfl, rfl, fun _ => rfl⟩

/-- Settles O2, clause by clause of the invariant. -/
theorem resetSatisfiesInvariant : Obligations.ResetSatisfiesInvariant := State.reset_inv

end Sys2Proof.Machine
end

section
/-! PROOF. The microseconds that a frame sleeps, part by part, beside R313's lower bound. -/

namespace Sys2Proof.Machine

theorem sleptMicros_append (xs ys : List Event) : sleptMicros (xs ++ ys) = sleptMicros xs + sleptMicros ys := by
  induction xs with
  | nil => exact (Nat.zero_add _).symm
  | cons e xs ih =>
    cases e with
    | sleepUs n => simp only [List.cons_append, sleptMicros, ih, Nat.add_assoc]
    | _ => exact ih

/-- Parts that each sleep n microseconds sleep n for each of them. -/
theorem sleptMicros_flatMap {α : Type} {f : α → List Event} {n : Nat} (h : ∀ a, sleptMicros (f a) = n)
    (as : List α) : sleptMicros (as.flatMap f) = as.length * n := by
  induction as with
  | nil => exact (Nat.zero_mul n).symm
  | cons a as ih => rw [List.flatMap_cons, sleptMicros_append, h, ih, List.length_cons, Nat.succ_mul, Nat.add_comm]

section
variable {p : Params}

/-- Two clock phases in each of eight bits, and the gap after the byte (R130). -/
theorem sleptMicros_byte_gpio (ht : p.transport = .gpio) (b : Byte × Byte) :
    sleptMicros (byteEvents p b) = 16 * p.tClkUs + p.tByteUs := by
  have hbit (j : Nat) : sleptMicros (gpioBitEvents p b.1 b.2 j) = p.tClkUs + p.tClkUs := rfl
  simp only [byteEvents, ht, sleptMicros_append, sleptMicros_flatMap hbit, List.length_range, sleptMicros]
  omega

/-- The gap alone: the SPI transport's exchange is no sleep of the block (R132). -/
theorem sleptMicros_byte_hwspi (ht : p.transport = .hwspi) (b : Byte × Byte) :
    sleptMicros (byteEvents p b) = p.tByteUs := by
  simp only [byteEvents, ht, sleptMicros, Nat.add_zero]

/-- A frame sleeps after attention falls and in its bytes (R135, R136). -/
theorem sleptMicros_frame {n : Nat} (h : ∀ b, sleptMicros (byteEvents p b) = n) (pairs : List (Byte × Byte))
    (v : Nat) : sleptMicros (frameEvents p pairs v) = p.tAttUs + pairs.length * n := by
  have hopen : sleptMicros (openEvents p) = p.tAttUs := by
    cases ht : p.transport <;> simp [openEvents, ht, sleptMicros]
  have hclose : sleptMicros (closeEvents p v) = 0 := by
    cases ht : p.transport <;> simp [closeEvents, ht, sleptMicros]
  simp only [frameEvents, sleptMicros_append, hopen, sleptMicros_flatMap h, hclose, Nat.add_zero]

end

/-- Settles O33: a byte exchange sleeps R313's bound for it, in HWSPI without the transport's own part. -/
theorem frameSleepDurations : Obligations.FrameSleepDurations := by
  intro p pairs v
  cases ht : p.transport with
  | gpio =>
    have hs := sleptMicros_frame (sleptMicros_byte_gpio ht) pairs v
    refine ⟨hs, fun _ => ?_, nofun⟩
    rw [hs, frameMicros, byteMicros, ht]
  | hwspi =>
    have hs := sleptMicros_frame (sleptMicros_byte_hwspi ht) pairs v
    refine ⟨hs, nofun, fun _ => ?_⟩
    rw [hs, frameMicros, byteMicros, ht, Nat.mul_add, Nat.add_assoc, Nat.add_comm (_ * _)]

end Sys2Proof.Machine
end
